-- ==== Sys2Proof/Word.lean ====
section
/-! DEFINITION. The word types of HUFFCORE: 32-bit registers (00_scope R7 REG_WIDTH), bytes of the two streams
(00_scope R6 BITS_PER_WORD) and symbols (00_scope R6: the alphabet is 0..256). -/

namespace Sys2Proof

/-- A register or a command word: 32 bits (00_scope R7, 10_state R22). -/
abbrev Word := BitVec 32

/-- One byte of a stream buffer (20_memory R60). -/
abbrev Byte := BitVec 8

/-- A symbol: 0..255 are byte values, 256 is PSEUDO_EOF (00_scope R6 and the glossary). -/
abbrev Symbol := Fin 257

/-- The register image of a count or a cursor: its low 32 bits.  Every count of a reachable state fits
(10_state R39, R40, R43), so nothing is lost there. -/
def Word.ofCount (n : Nat) : Word := BitVec.ofNat 32 n

end Sys2Proof
end

