-- ==== Sys2Proof/Config.lean ====
section
/-! DEFINITION. What the source fixes (00_scope R6), what the spec fixes (00_scope R7), the OPEN parameters
(92_eei_decisions, "Named parameters") and the free values (93_implementation_defined, section 2).
An OPEN parameter and a free value are opaque constants with no body: nothing can be proved of their value. -/

namespace Sys2Proof.Config

/-- BITS_PER_WORD: the width of one input value and one output symbol (00_scope R6). -/
@[simp] abbrev bitsPerWord : Nat := 8

/-- SYMBOL_BITS: the width of a symbol in the header (00_scope R6). -/
@[simp] abbrev symbolBits : Nat := 9

/-- MAGIC_BITS: the width of the magic number (00_scope R6). -/
@[simp] abbrev magicBits : Nat := 32

/-- PSEUDO_EOF, the end-marker symbol (00_scope R6). -/
@[simp] abbrev pseudoEof : Symbol := 256

/-- NODE_CAP: the most nodes TREE can hold (00_scope R7). -/
@[simp] abbrev nodeCap : Nat := 513

/-- MAX_CODE_LEN: the longest code in bits (00_scope R7, 10_state R33). -/
@[simp] abbrev maxCodeLen : Nat := 256

/-- The most bytes a buffer can have, 2^29 - 1 (00_scope R7). -/
@[simp] abbrev maxCap : Nat := 2 ^ 29 - 1

/-- MAGIC, an OPEN parameter (00_scope R7; log 1): its value is not in the spec. -/
opaque magic : Word

/-- IN_CAP, an OPEN parameter with 0 <= IN_CAP <= 2^29 - 1 (00_scope R7; log 1): the range is its type's. -/
opaque inCap : BitVec 29

/-- OUT_CAP, an OPEN parameter with 0 <= OUT_CAP <= 2^29 - 1 (00_scope R7; log 1): the range is its type's. -/
opaque outCap : BitVec 29

/-- REG_BASE, an OPEN parameter of the platform; no rule of the block reads it (20_memory R70, 93 U10). -/
opaque regBase : Nat

/-- IN_BASE, an OPEN parameter of the platform; no rule of the block reads it (20_memory R70, 93 U10). -/
opaque inBase : Nat

/-- OUT_BASE, an OPEN parameter of the platform; no rule of the block reads it (20_memory R70, 93 U10). -/
opaque outBase : Nat

/-- The unspecified value a host register read returns while BUSY = 1 (70_reset R234, 93 U3; log 7): free value
number `k` of the run. -/
opaque freeWord : Nat → Word

/-- The unspecified byte a host buffer read returns (93 U1, U2, U3; log 7): free value number `k` of the run. -/
opaque freeByte : Nat → Byte

/-- The unspecified content of the OUT_MEM byte at an index nothing has written (10_state R40, R44; 93 U2; log 6).
The core reads such a byte only in states that no run reaches. -/
opaque staleByte : Nat → Byte

end Sys2Proof.Config
end

