-- ==== Sys2Proof/Syntax.lean ====
section
/-! DEFINITION. The commands of HUFFCORE: one constructor per row of the opcode map (30_encoding R83). -/

namespace Sys2Proof

/-- A command (30_encoding R83).  `n` is the N field, w[13:8] (30_encoding R81, R82); the value operand of WRBITS
is the register ARG and stands in no word (30_encoding R82). -/
inductive Instr where
  | nop
  | srst
  | rdbits (n : BitVec 6)
  | wrbits (n : BitVec 6)
  | rstin
  | close
  | outclr
  | count
  | build
  | gencodes
  | wrhdr
  | encode
  | compress
  | chkmagic
  | rdhdr
  | decode
  | decompress
  deriving DecidableEq, Repr

end Sys2Proof
end

