-- ==== Sys2Proof/Machine/State.lean ====
section
/-! DEFINITION. The state of HUFFCORE (10_state R22, R42, R44), the agents beside the core held as plain data
(70_reset R242, 30_encoding R87), and the reasons a step can stop. -/

namespace Sys2Proof.Machine

/-- The error codes of 60_exceptions R200.  No other value of ERRCODE is ever written. -/
inductive ErrCode where
  | none
  | badMagic
  | malformedHeader
  | truncatedStream
  | illegalCommand
  | sequence
  | noCode
  | badSymbol
  | headerOverflow
  | outputOverflow
  | outputClosed
  deriving DecidableEq, Repr

/-- The tree of 00_scope R11: `leaf` is Leaf(s, w), `node` is Internal(w, l, r); bit 0 leads left, bit 1 right. -/
inductive Tree where
  | leaf (sym : Symbol) (weight : Nat)
  | node (weight : Nat) (left right : Tree)
  deriving DecidableEq, Repr

/-- A stream buffer's written bytes: (index, byte) pairs, indices strictly rising.  An index not listed has not been
written since hardware reset and reads as no value (70_reset R236, 93 U1, U2; log 5, log 6). -/
abbrev Memory := List Host.Cell

/-- The canonical form of a buffer: indices strictly rising, so that equal contents are equal lists. -/
abbrev Memory.wf (m : Memory) : Prop := List.Pairwise (fun a b : Host.Cell => a.1 < b.1) m

/-- The registers and windows of the register map (10_state R22). -/
inductive Reg where
  | cmd
  | status
  | arg
  | result
  | inLen
  | inPos
  | outBits
  | magic
  | nodes
  | inCap
  | outCap
  | freq (s : Symbol)
  | codeLen (s : Symbol)
  | codeBits (s : Symbol) (k : Fin 8)
  deriving DecidableEq, Repr

/-- What the host's last read access returned. -/
inductive Reply where
  | nothing
  | word (v : Word)
  | byte (b : Byte)
  deriving DecidableEq, Repr

/-- One access of the host, or of the platform's reset input: what happens between two steps of the core
(20_memory R60 to R64, R69; 70_reset R230, R242). -/
inductive HostMove where
  /-- A register read of `bytes` bytes at a byte offset (20_memory R61, R62). -/
  | regRead (off : BitVec 16) (bytes : Nat)
  /-- A register write of `bytes` bytes at a byte offset (20_memory R62 to R64). -/
  | regWrite (off : BitVec 16) (bytes : Nat) (v : Word)
  /-- A 32-bit register write of the word the host has just read (30_encoding R88, WRMAGIC). -/
  | regWriteReply (off : BitVec 16)
  /-- A read of one IN_MEM byte (20_memory R60, R69). -/
  | inRead (i : Nat)
  /-- A write of one IN_MEM byte (20_memory R60, R69). -/
  | inWrite (i : Nat) (b : Byte)
  /-- A write of the byte the host has just read (30_encoding R87, COPYOUTIN). -/
  | inWriteReply (i : Nat)
  /-- A read of one OUT_MEM byte (20_memory R60, R69). -/
  | outRead (i : Nat)
  /-- A write of one OUT_MEM byte, which is ignored (20_memory R60, R69). -/
  | outWrite (i : Nat) (b : Byte)
  /-- The host polls STATUS until BUSY = 0 (30_encoding R87, WAIT). -/
  | wait
  /-- COPYOUTIN once OUT_BITS has been read: the copies of its bytes and the IN_LEN write (30_encoding R87). -/
  | copyPlan
  /-- `IF ... GOTO` once the register has been read: bits `hi` to `lo` are compared with `v` (30_encoding R87). -/
  | branch (hi lo v : Nat) (target : String)
  /-- The platform asserts and releases the reset input (70_reset R230). -/
  | hardReset
  deriving DecidableEq, Repr

/-- One line of a host program (30_encoding R87 and the pseudo-commands of R88). -/
inductive HostLine where
  | loadin (bytes : List Byte)
  | setarg (v : Word)
  | command (w : Word)
  | wait
  | read (r : Reg)
  | copyoutin
  | label (name : String)
  | ifGoto (r : Reg) (hi lo v : Nat) (name : String)
  | rdint
  | wrint (v : Word)
  | rdbyte
  | wrbyte (v : Word)
  | wrmagic
  deriving DecidableEq, Repr

/-- Why the machine stops.  None of these is an error of the block: an error of the block is a NEXT state with ERR set
(60_exceptions R201, R216). -/
inductive Fault where
  /-- A command read an IN_MEM byte the host has not written since hardware reset (60_exceptions R216 (b), 70_reset
  R236).  Raised by every command that reads the input stream.  Safe: the block returns some value and goes on. -/
  | unwrittenInput
  /-- A host buffer access at an index at or past the buffer's capacity, a byte 20_memory R60 does not give (log 8).
  Raised by the host's buffer moves.  Safe: no rule says what the access does. -/
  | outsideBuffer
  /-- BUSY = 1 with no pending word (log 10).  Raised by the step, in states no run reaches.  Safe. -/
  | noPendingCommand
  deriving DecidableEq, Repr

/-- Why the model has no step. -/
inductive Refusal where
  /-- The instruction has no meaning in the model.  Raised by exec's refused arms; there are none.  Safe. -/
  | notModelled (mnemonic : String)
  /-- A register access that is not 32-bit and aligned (20_memory R62, 60_exceptions R216 (a): the model refuses it).
  Raised by the host's register moves.  Safe. -/
  | accessError
  /-- A host write to IN_MEM[0 .. IN_LEN - 1] while BUSY = 1, which the host must not do (70_reset R235, 93 U7: the
  model has no such move).  Raised by the host's IN_MEM writes.  Unsafe where a host breaks the duty (log 4). -/
  | inputUnstable
  /-- `IF ... GOTO` names a label that no line of the host program is (30_encoding R87; log 9).  Raised by the host's
  branch move.  Safe: such a text is no host program. -/
  | noSuchLabel
  deriving DecidableEq, Repr

/-- The state of the machine: the block (10_state R22, R42, R44), then the host (70_reset R242, 30_encoding R87). -/
structure State where
  /-- MAGIC register: the MAGIC parameter (10_state R41). -/
  magic : Word
  /-- IN_CAP register: the input buffer's capacity in bytes (10_state R41). -/
  inCap : Nat
  /-- OUT_CAP register: the output buffer's capacity in bytes (10_state R41). -/
  outCap : Nat
  /-- The pending command word latched at acceptance (10_state R42 (b), 40_control R100). -/
  pending : Option Word
  /-- CMD readback: the last accepted command word (10_state R23). -/
  cmdLast : Word
  /-- ARG: the value operand of WRBITS (10_state R31). -/
  arg : Word
  /-- RESULT: the value result of RDBITS (10_state R31). -/
  result : Word
  /-- STATUS bit 0 (10_state R24, R25). -/
  busy : Bool
  /-- STATUS bit 1 (10_state R24, R25). -/
  done : Bool
  /-- STATUS bit 2 (10_state R24, R26). -/
  err : Bool
  /-- STATUS bit 3 (10_state R24, R27). -/
  eos : Bool
  /-- STATUS bit 4 (10_state R24, R28). -/
  treeValid : Bool
  /-- STATUS bit 5 (10_state R24, R28). -/
  codesValid : Bool
  /-- STATUS bit 6 (10_state R24, R29). -/
  outClosed : Bool
  /-- STATUS bit 7 (10_state R24, R30). -/
  ovr : Bool
  /-- STATUS bits 15:8, ERRCODE (10_state R24, R26). -/
  errCode : ErrCode
  /-- IN_MEM: the input bytes written since hardware reset (10_state R37). -/
  inMem : Memory
  /-- IN_LEN: the number of valid input bytes (10_state R38). -/
  inLen : Nat
  /-- IN_POS: the input bit cursor (10_state R39). -/
  inPos : Nat
  /-- OUT_MEM: the output bytes written since hardware reset (10_state R40). -/
  outMem : Memory
  /-- OUT_BITS: the number of output bits written (10_state R40). -/
  outBits : Nat
  /-- FREQ[0..256] (10_state R35). -/
  freq : Vector Word 257
  /-- TREE: empty or one tree (10_state R32). -/
  tree : Option Tree
  /-- NODES: the node count of TREE (10_state R41). -/
  nodes : Nat
  /-- The code table: CODE[s] is "no code" or the path to a leaf of s, first bit first (10_state R33). -/
  codes : Vector (Option (List Bool)) 257
  /-- The host program (30_encoding R87). -/
  program : List HostLine
  /-- The index of the host program's next line (30_encoding R87). -/
  line : Nat
  /-- The accesses the host still makes before its next line. -/
  todo : List HostMove
  /-- What the host's last read returned. -/
  reply : Reply
  /-- How many unspecified values host reads have drawn (70_reset R234; log 7). -/
  draws : Nat
  deriving DecidableEq, Repr

/-- The FREQ table with every counter 0 (10_state R44). -/
def noCounts : Vector Word 257 := Vector.replicate 257 0

/-- The code table with every entry "no code" (10_state R44). -/
def noCodes : Vector (Option (List Bool)) 257 := Vector.replicate 257 none

/-- The machine right after hardware reset, for given parameters (10_state R44, 70_reset R230), with a host that
does nothing (log 3). -/
def State.resetWith (magic : Word) (inCap outCap : Nat) : State where
  magic := magic
  inCap := inCap
  outCap := outCap
  pending := none
  cmdLast := 0
  arg := 0
  result := 0
  busy := false
  done := false
  err := false
  eos := false
  treeValid := false
  codesValid := false
  outClosed := false
  ovr := false
  errCode := .none
  inMem := []
  inLen := 0
  inPos := 0
  outMem := []
  outBits := 0
  freq := noCounts
  tree := none
  nodes := 0
  codes := noCodes
  program := []
  line := 0
  todo := []
  reply := .nothing
  draws := 0

/-- The machine right after hardware reset (10_state R44), its parameters the OPEN constants of Config (log 1). -/
def State.reset : State := State.resetWith Config.magic Config.inCap.toNat Config.outCap.toNat

/-- How a part of a command ends: it goes on with a value, it has raised an error, or the run stops
(60_exceptions R203, R216).  The state carried by `error` is the one the pseudocode had reached at the raise. -/
inductive Run (α : Type) where
  | ok (a : α) (s : State)
  | error (e : ErrCode) (s : State)
  | fault (f : Fault)
  deriving DecidableEq, Repr

/-- How a part of a command that reads no input ends: with the state after it, or with an error and the state at the
raise (60_exceptions R203). -/
abbrev Emit := Except (ErrCode × State) State

end Sys2Proof.Machine
end

