-- ==== Sys2Proof/Machine/Ops.lean ====
section
/-! DEFINITION. The named operations every command is written over: bit strings (00_scope R9), buffers (20_memory R65),
the end of a command and `raise` (40_control R101, 60_exceptions R203), command issue (40_control R100), and the stream
primitives InRead, OutPut, OutField and OutClose (41_bitstream R110 to R113). -/

namespace Sys2Proof.Machine

/-! ### Bit strings -/

/-- `field(n, v)`: the low n bits of v, most significant first (00_scope R9). -/
def field : Nat → Nat → List Bool
  | 0, _ => []
  | n + 1, v => v.testBit n :: field n v

/-- The unsigned integer a bit string writes, first bit most significant (00_scope R9, 41_bitstream R110). -/
def bitsToNat (bs : List Bool) : Nat := bs.foldl (fun v b => 2 * v + b.toNat) 0

/-- `x` with bit `i` replaced by `b`. -/
def putBit (x : Byte) (i : Nat) (b : Bool) : Byte :=
  if b then x ||| BitVec.twoPow 8 i else x &&& ~~~(BitVec.twoPow 8 i)

/-! ### Buffers -/

/-- The byte at index `a`, none if nothing has written it. -/
def Memory.read : Memory → Nat → Option Byte
  | [], _ => none
  | (a', b') :: m, a => if a = a' then some b' else Memory.read m a

/-- The buffer after a write of `b` at index `a`, in canonical form. -/
def Memory.write : Memory → Nat → Byte → Memory
  | [], a, b => [(a, b)]
  | (a', b') :: m, a, b =>
    if a < a' then (a, b) :: (a', b') :: m
    else if a = a' then (a, b) :: m
    else (a', b') :: Memory.write m a b

/-- Stream bit i: bit 7 - (i mod 8) of byte i div 8, none if nothing has written that byte (20_memory R65). -/
def Memory.bit (m : Memory) (i : Nat) : Option Bool :=
  (Memory.read m (i / 8)).map fun b => b.getLsbD (7 - i % 8)

/-- The `n` stream bits from bit `i` on, none if one of their bytes has not been written. -/
def Memory.bits (m : Memory) : Nat → Nat → Option (List Bool)
  | _, 0 => some []
  | i, n + 1 =>
    match Memory.bit m i, Memory.bits m (i + 1) n with
    | some b, some bs => some (b :: bs)
    | _, _ => none

/-! ### How a command runs and ends -/

/-- One part of a command after another: an error or a fault of the first is the whole's (40_control R106,
60_exceptions R203). -/
def Run.bind {α β : Type} (r : Run α) (f : α → State → Run β) : Run β :=
  match r with
  | .ok a s => f a s
  | .error e s => .error e s
  | .fault e => .fault e

/-- A part of a command that reads no input, as a part of one that does. -/
def Run.ofEmit : Emit → Run Unit
  | .ok s => .ok () s
  | .error (e, s) => .error e s

/-- Normal completion: BUSY <- 0, DONE <- 1 (40_control R101). -/
def complete (s : State) : State := { s with busy := false, done := true }

/-- `raise E`, the only error mechanism: ERR and ERRCODE are written, the command ends, and every change made before
stays (60_exceptions R203).  This is HUFFCORE's taking of an exception; there is no return from it (R206). -/
def raise (e : ErrCode) (s : State) : State :=
  { s with err := true, errCode := e, busy := false, done := true }

/-- The end of a command that reads no input. -/
def settle : Emit → State
  | .ok s => complete s
  | .error (e, s) => raise e s

/-- The end of a command: completion, an error report, or the model fault of 60_exceptions R216 (b). -/
def finish : Run Unit → Host.Outcome State Fault Refusal
  | .ok _ s => .next (complete s)
  | .error e s => .next (raise e s)
  | .fault f => .fault f

/-- Command issue while BUSY = 0: the word is latched and the report flags are cleared (40_control R100). -/
def issue (w : Word) (s : State) : State :=
  { s with pending := some w, cmdLast := w, busy := true, done := false, err := false, errCode := .none }

/-! ### The input stream -/

/-- IN_POS <- p (10_state R39). -/
def seek (p : Nat) (s : State) : State := { s with inPos := p }

/-- `InRead(n)`: none is the end-of-stream flag, and then nothing is consumed; else the n bits as an unsigned integer,
and IN_POS advances by n (41_bitstream R110).  A byte the host has not written is a model fault (70_reset R236). -/
def inRead (n : Nat) (s : State) : Run (Option Nat) :=
  if 8 * s.inLen < s.inPos + n then .ok none s
  else match Memory.bits s.inMem s.inPos n with
    | none => .fault .unwrittenInput
    | some bs => .ok (some (bitsToNat bs)) (seek (s.inPos + n) s)

/-- IN_POS <- 0: the source's reset-to-start (41_bitstream R116). -/
def rewind (s : State) : State := seek 0 s

/-! ### The output stream -/

/-- OUT_MEM and OUT_BITS are written (10_state R40). -/
def setOutput (m : Memory) (n : Nat) (s : State) : State := { s with outMem := m, outBits := n }

/-- The OUT_MEM byte the next output bit goes to, before it is written: 0x00 at a byte boundary, else what the byte
holds (41_bitstream R112).  A byte that holds nothing is met only in states no run reaches; it is free (log 6). -/
def outByteNow (s : State) : Byte :=
  if s.outBits % 8 = 0 then 0
  else (Memory.read s.outMem (s.outBits / 8)).getD (Config.staleByte (s.outBits / 8))

/-- The output with bit `b` appended, where there is room for it (41_bitstream R112). -/
def appendBit (b : Bool) (s : State) : State :=
  setOutput (Memory.write s.outMem (s.outBits / 8) (putBit (outByteNow s) (7 - s.outBits % 8) b)) (s.outBits + 1) s

/-- `OutPut(s)`: bit by bit, OUTPUT_CLOSED checked before OUTPUT_OVERFLOW; the bits before an error stay
(41_bitstream R112, 60_exceptions R204). -/
def outPut : List Bool → State → Emit
  | [], s => .ok s
  | b :: bs, s =>
    if s.outClosed then .error (.outputClosed, s)
    else if s.outBits = 8 * s.outCap then .error (.outputOverflow, s)
    else outPut bs (appendBit b s)

/-- `OutField(n, v)`: the low n bits of v, most significant first (41_bitstream R112). -/
def outField (n v : Nat) (s : State) : Emit := outPut (field n v) s

/-- `OutClose()`: pads to a byte boundary and closes; closing twice does nothing (41_bitstream R113). -/
def outClose (s : State) : State :=
  if s.outClosed then s
  else { s with outBits := 8 * ((s.outBits + 7) / 8), outClosed := true }

/-- A fresh output stream: OUT_BITS <- 0, OUT_CLOSED <- 0; OUT_MEM keeps its bytes (41_bitstream R118). -/
def outClear (s : State) : State := { s with outBits := 0, outClosed := false }

/-! ### Trees -/

/-- The number of nodes (10_state R41: 2L - 1 for L leaves). -/
def Tree.size : Tree → Nat
  | .leaf _ _ => 1
  | .node _ l r => l.size + r.size + 1

/-- The number L of leaves. -/
def Tree.leaves : Tree → Nat
  | .leaf _ _ => 1
  | .node _ l r => l.leaves + r.leaves

/-- `weight(n)` (00_scope R11). -/
def Tree.weight : Tree → Nat
  | .leaf _ w => w
  | .node w _ _ => w

/-- The tree is an Internal node (10_state R32: the root always is). -/
def Tree.isNode : Tree → Bool
  | .leaf _ _ => false
  | .node _ _ _ => true

/-- The child a bit leads to: left on 0, right on 1 (40_control R106).  A leaf has no child and stays where it is; the
walk never stands on one (43_decoder R175 (d)). -/
def Tree.child : Tree → Bool → Tree
  | .leaf s w, _ => .leaf s w
  | .node _ l r, b => if b then r else l

/-- The leaf symbols, left to right. -/
def Tree.symbols : Tree → List Symbol
  | .leaf s _ => [s]
  | .node _ l r => l.symbols ++ r.symbols

/-- The leaves with the paths that lead to them, left to right: left = 0, right = 1 (10_state R33). -/
def Tree.paths : Tree → List (Symbol × List Bool)
  | .leaf s _ => [(s, [])]
  | .node _ l r =>
    l.paths.map (fun x => (x.1, false :: x.2)) ++ r.paths.map (fun x => (x.1, true :: x.2))

/-- The tree with every weight 0: what a header keeps of it (42_encoder R142, 43_decoder R173). -/
def Tree.unweighted : Tree → Tree
  | .leaf s _ => .leaf s 0
  | .node _ l r => .node 0 l.unweighted r.unweighted

/-- Header(T): pre-order, 0 for Internal, 1 and the 9-bit symbol for a leaf (42_encoder R142). -/
def header : Tree → List Bool
  | .node _ l r => false :: (header l ++ header r)
  | .leaf s _ => true :: field Config.symbolBits s.val

/-! ### The tree and the code table as stored -/

/-- Every entry "no code", CODES_VALID <- 0 (10_state R28, R33). -/
def dropCodes (s : State) : State := { s with codes := noCodes, codesValid := false }

/-- TREE, NODES and TREE_VALID <- 1 are written (42_encoder R132, 43_decoder R173). -/
def installTree (t : Option Tree) (n : Nat) (s : State) : State := { s with tree := t, nodes := n, treeValid := true }

/-- The code table and CODES_VALID <- 1 are written (42_encoder R140). -/
def installCodes (tbl : Vector (Option (List Bool)) 257) (s : State) : State :=
  { s with codes := tbl, codesValid := true }

/-- FREQ is written (42_encoder R130). -/
def setFreq (f : Vector Word 257) (s : State) : State := { s with freq := f }

/-- TREE <- empty, NODES <- 0, TREE_VALID <- 0, and the code table dropped (40_control R105, 43_decoder R173). -/
def dropTree (s : State) : State := dropCodes { s with tree := none, nodes := 0, treeValid := false }

/-- The tree a command may read: TREE, when TREE_VALID = 1 (10_state R28). -/
def validTree (s : State) : Option Tree := if s.treeValid then s.tree else none

end Sys2Proof.Machine
end

