-- ==== Sys2Proof/Machine/Flags.lean ====
section
/-! DEFINITION. STATUS: the error code numbers (60_exceptions R200) and the word a host reads (10_state R24). -/

namespace Sys2Proof.Machine

/-- The number of an error code (60_exceptions R200). -/
def ErrCode.number : ErrCode → Nat
  | .none => 0
  | .badMagic => 1
  | .malformedHeader => 2
  | .truncatedStream => 3
  | .illegalCommand => 4
  | .sequence => 5
  | .noCode => 6
  | .badSymbol => 7
  | .headerOverflow => 8
  | .outputOverflow => 9
  | .outputClosed => 10

/-- STATUS as one word: BUSY, DONE, ERR, EOS, TREE_VALID, CODES_VALID, OUT_CLOSED, OVR in bits 0 to 7, ERRCODE in
bits 15:8, bits 31:16 read 0 (10_state R24). -/
def State.statusWord (s : State) : Word :=
  Word.ofCount (s.busy.toNat + 2 * s.done.toNat + 4 * s.err.toNat + 8 * s.eos.toNat + 16 * s.treeValid.toNat
    + 32 * s.codesValid.toNat + 64 * s.outClosed.toNat + 128 * s.ovr.toNat + 256 * s.errCode.number)

/-- EOS and RESULT as RDBITS writes them: none is the end of the stream (10_state R27, R31; 41_bitstream R114). -/
def writeResult (v : Option Nat) (s : State) : State :=
  match v with
  | none => { s with result := 0xFFFFFFFF, eos := true }
  | some v => { s with result := Word.ofCount v, eos := false }

/-- OVR <- 1: a host write to CMD, ARG or IN_LEN arrived while BUSY = 1 (40_control R102). -/
def setOverrun (s : State) : State := { s with ovr := true }

end Sys2Proof.Machine
end

