-- ==== Sys2Proof/WellFormed.lean ====
section
/-! DEFINITION. Which commands have a legal word: the count of RDBITS and WRBITS is 1..32 (30_encoding R84). -/

namespace Sys2Proof

/-- The command has a legal word (30_encoding R84). -/
def Instr.wellFormed : Instr → Bool
  | .rdbits n => 1 ≤ n.toNat && n.toNat ≤ 32
  | .wrbits n => 1 ≤ n.toNat && n.toNat ≤ 32
  | .nop | .srst | .rstin | .close | .outclr | .count | .build | .gencodes | .wrhdr | .encode | .compress
  | .chkmagic | .rdhdr | .decode | .decompress => true

end Sys2Proof
end

