-- ==== Sys2Proof/Decode.lean ====
section
/-! DEFINITION. Command words: the decoder, total on every 32-bit word and rejecting by name (30_encoding R81 to R85),
the legality predicate of R84, the encoder, and the assembler notation of R86. -/

namespace Sys2Proof

/-- Why a word is illegal (30_encoding R85): each of them raises ILLEGAL_COMMAND when the word is executed. -/
inductive Reject where
  /-- OPC is not in the opcode map (30_encoding R83, R85). -/
  | reservedOpcode
  /-- A reserved bit is 1, or N is not 0 in a command that does not use it (30_encoding R84, R85). -/
  | reservedBits
  /-- N is 0 or above 32 in RDBITS or WRBITS (30_encoding R84, R85). -/
  | badCount
  deriving DecidableEq, Repr

/-- The OPC field, w[7:0] (30_encoding R81). -/
def opcOf (w : Word) : Byte := w.extractLsb' 0 8

/-- The N field, w[13:8] (30_encoding R81, R82). -/
def countOf (w : Word) : BitVec 6 := w.extractLsb' 8 6

/-- A legal count field: 1 <= N <= 32 (30_encoding R81, R84; 20_memory R68). -/
def legalCount (n : BitVec 6) : Bool := 1 ≤ n.toNat && n.toNat ≤ 32

/-- The RSV field, w[31:14] (30_encoding R81). -/
def rsvOf (w : Word) : BitVec 18 := w.extractLsb' 14 18

/-- The opcode map's rows that use no N (30_encoding R83). -/
def plainRows : List (Byte × Instr) :=
  [(0x00, .nop), (0x01, .srst), (0x12, .rstin), (0x13, .close), (0x14, .outclr),
   (0x20, .count), (0x21, .build), (0x22, .gencodes), (0x23, .wrhdr), (0x24, .encode), (0x2F, .compress),
   (0x30, .chkmagic), (0x31, .rdhdr), (0x32, .decode), (0x3F, .decompress)]

/-- The command of an opcode that uses no N. -/
def plainOf (opc : Byte) : Option Instr := (plainRows.find? fun r => r.1 == opc).map (·.2)

/-- The words of an opcode that uses N: RSV is 0 and N is legal (30_encoding R84). -/
def decodeCounted (make : BitVec 6 → Instr) (w : Word) : Except Reject Instr :=
  if rsvOf w ≠ 0 then .error .reservedBits
  else if legalCount (countOf w) then .ok (make (countOf w))
  else .error .badCount

/-- The decoder: every word selects exactly one command or is illegal (30_encoding R84). -/
def decode (w : Word) : Except Reject Instr :=
  if opcOf w = 0x10 then decodeCounted .rdbits w
  else if opcOf w = 0x11 then decodeCounted .wrbits w
  else match plainOf (opcOf w) with
    | none => .error .reservedOpcode
    | some i => if w.extractLsb' 8 24 = 0 then .ok i else .error .reservedBits

/-- `Legal(w)` as 30_encoding R84 writes it, on numbers: the decoder does not call it. -/
def legal (w : Word) : Bool :=
  let opc := w.toNat % 256
  let n := w.toNat / 256 % 64
  if opc == 0x10 || opc == 0x11 then
    w.toNat / 16384 == 0 && 1 ≤ n && n ≤ 32
  else if [0x00, 0x01, 0x12, 0x13, 0x14, 0x20, 0x21, 0x22, 0x23, 0x24, 0x2F, 0x30, 0x31, 0x32, 0x3F].contains opc then
    w.toNat / 256 == 0
  else false

/-- The word of OPC and N, its reserved bits 0 (30_encoding R81). -/
def wordOf (opc : Byte) (n : BitVec 6) : Word := (0#18 ++ n ++ opc : BitVec 32)

/-- The encoder: the word of a command (30_encoding R83). -/
def encode : Instr → Word
  | .nop => 0x00000000
  | .srst => 0x00000001
  | .rdbits n => wordOf 0x10 n
  | .wrbits n => wordOf 0x11 n
  | .rstin => 0x00000012
  | .close => 0x00000013
  | .outclr => 0x00000014
  | .count => 0x00000020
  | .build => 0x00000021
  | .gencodes => 0x00000022
  | .wrhdr => 0x00000023
  | .encode => 0x00000024
  | .compress => 0x0000002F
  | .chkmagic => 0x00000030
  | .rdhdr => 0x00000031
  | .decode => 0x00000032
  | .decompress => 0x0000003F

/-- What the decoder reads from an instruction whose bits are `w`, numbered as the opcode table numbers them: one
32-bit word, the bits above `nbits` zero (30_encoding R80: one length, one format). -/
def decodeTableWord (nbits w : Nat) : Option Instr :=
  if 32 < nbits then none
  else match decode (BitVec.ofNat 32 (w % 2 ^ nbits)) with
    | .ok i => some i
    | .error _ => none

/-- The mnemonic (30_encoding R83, R86). -/
def Instr.mnemonic : Instr → String
  | .nop => "NOP"
  | .srst => "SRST"
  | .rdbits _ => "RDBITS"
  | .wrbits _ => "WRBITS"
  | .rstin => "RSTIN"
  | .close => "CLOSE"
  | .outclr => "OUTCLR"
  | .count => "COUNT"
  | .build => "BUILD"
  | .gencodes => "GENCODES"
  | .wrhdr => "WRHDR"
  | .encode => "ENCODE"
  | .compress => "COMPRESS"
  | .chkmagic => "CHKMAGIC"
  | .rdhdr => "RDHDR"
  | .decode => "DECODE"
  | .decompress => "DECOMPRESS"

/-- The assembler form: the mnemonic, then for RDBITS and WRBITS one space and N in decimal (30_encoding R86). -/
def Instr.asm : Instr → String
  | .rdbits n => "RDBITS " ++ toString n.toNat
  | .wrbits n => "WRBITS " ++ toString n.toNat
  | i => i.mnemonic

/-- Hexadecimal digit number `k` of a word, from the most significant (k = 0) to the least (k = 7).  DESIGN CHOICE,
safe: the digits a to f are lower case; 30_encoding R86 gives no letter case (log 14). -/
def hexDigitOf (w : Word) (k : Nat) : Char := Nat.digitChar (w.toNat / 16 ^ (7 - k) % 16)

/-- The disassembler: an illegal word prints as `.word 0x` and eight hexadecimal digits (30_encoding R86), in lower
case (log 14). -/
def disassemble (w : Word) : String :=
  match decode w with
  | .ok i => i.asm
  | .error _ => ".word 0x" ++ String.ofList ((List.range 8).map (hexDigitOf w))

/-- Every command with a legal word: 15 without N, and RDBITS and WRBITS with N = 1..32. -/
def legalInstrs : List Instr :=
  plainRows.map (·.2) ++ (List.range 32).map (fun k => .rdbits (BitVec.ofNat 6 (k + 1)))
    ++ (List.range 32).map (fun k => .wrbits (BitVec.ofNat 6 (k + 1)))

/-- The assembler: the word of the command a line writes, none where it writes none (30_encoding R86). -/
def assemble (line : String) : Option Word := (legalInstrs.find? fun i => i.asm == line).map encode

end Sys2Proof
end

