-- ==== Sys2Proof/Machine/Operands.lean ====
section
/-! DEFINITION. The operand forms: the count N of a command word and the value operand ARG[n-1:0] (30_encoding R82),
and the symbol an 8-bit or 9-bit value of the input names (00_scope R6). -/

namespace Sys2Proof.Machine

/-- The count operand: N, unsigned, with no scaling or offset (30_encoding R82). -/
def countOperand (n : BitVec 6) : Nat := n.toNat

/-- The value operand of WRBITS n: ARG[n-1:0], most significant bit first (30_encoding R82, 41_bitstream R115). -/
def argOperand (n : BitVec 6) (s : State) : List Bool := field (countOperand n) s.arg.toNat

/-- The symbol of an 8-bit input value v, 0..255 (00_scope R6). -/
def byteSymbol (v : Nat) : Symbol := Fin.ofNat 257 v

/-- The symbol of a 9-bit header field, none above 256 (43_decoder R174 (d)). -/
def headerSymbol (v : Nat) : Option Symbol := if h : v < 257 then some ⟨v, h⟩ else none

end Sys2Proof.Machine
end

