-- ==== Sys2Proof/Machine/BitStream.lean ====
section
/-! DEFINITION. The bit-stream commands RDBITS, WRBITS, RSTIN, CLOSE and OUTCLR (41_bitstream R114 to R118). -/

namespace Sys2Proof.Machine

/-- RDBITS n (41_bitstream R114).  A count outside 1..32 has no legal word and is the illegal command
(30_encoding R85). -/
def execRdbits (n : BitVec 6) (s : State) : Host.Outcome State Fault Refusal :=
  if legalCount n then finish ((inRead (countOperand n) s).bind fun v s => .ok () (writeResult v s))
  else .next (raise .illegalCommand s)

/-- WRBITS n (41_bitstream R115).  A count outside 1..32 has no legal word and is the illegal command
(30_encoding R85). -/
def execWrbits (n : BitVec 6) (s : State) : Host.Outcome State Fault Refusal :=
  .next (if legalCount n then settle (outPut (argOperand n s) s) else raise .illegalCommand s)

/-- RSTIN: IN_POS <- 0 (41_bitstream R116). -/
def execRstin (s : State) : Host.Outcome State Fault Refusal := .next (complete (rewind s))

/-- CLOSE (41_bitstream R117). -/
def execClose (s : State) : Host.Outcome State Fault Refusal := .next (complete (outClose s))

/-- OUTCLR (41_bitstream R118). -/
def execOutclr (s : State) : Host.Outcome State Fault Refusal := .next (complete (outClear s))

end Sys2Proof.Machine
end

