-- ==== Sys2Proof/Machine/Control.lean ====
section
/-! DEFINITION. The control commands NOP and SRST (40_control R104, R105). -/

namespace Sys2Proof.Machine

/-- SRST's effect: tables, tree, cursors, RESULT and the flags EOS and OVR are cleared; IN_MEM, IN_LEN, ARG, the CMD
readback and OUT_MEM are kept (40_control R105, 70_reset R231). -/
def softReset (s : State) : State :=
  { dropTree (rewind (outClear s)) with freq := noCounts, result := 0, eos := false, ovr := false }

/-- NOP: nothing but completion (40_control R104). -/
def execNop (s : State) : Host.Outcome State Fault Refusal := .next (complete s)

/-- SRST (40_control R105). -/
def execSrst (s : State) : Host.Outcome State Fault Refusal := .next (complete (softReset s))

end Sys2Proof.Machine
end

