-- ==== Sys2Proof/Machine/Decoder.lean ====
section
/-! DEFINITION. The decoder commands CHKMAGIC, RDHDR, DECODE and DECOMPRESS (43_decoder R170 to R179). -/

namespace Sys2Proof.Machine

/-- CHKMAGIC: the next 32 bits are MAGIC, else BAD_MAGIC (43_decoder R170). -/
def chkmagicBody (s : State) : Run Unit :=
  (inRead Config.magicBits s).bind fun v s =>
    if v = some s.magic.toNat then .ok () s else .error .badMagic s

/-- `Rd()`: one subtree of the header and the node count after it (43_decoder R173).  The number bounds the depth: at
depth 514 the count has passed NODE_CAP, so NODE_CAP + 1 is never used up. -/
def rd : Nat → Nat → State → Run (Tree × Nat)
  | 0, _, s => .error .headerOverflow s
  | fuel + 1, count, s => (inRead 1 s).bind fun t s =>
    match t with
    | none => .error .malformedHeader s
    | some t =>
      if Config.nodeCap < count + 1 then .error .headerOverflow s
      else if t = 0 then
        (rd fuel (count + 1) s).bind fun l s =>
          (rd fuel l.2 s).bind fun r s => .ok (.node 0 l.1 r.1, r.2) s
      else (inRead Config.symbolBits s).bind fun v s =>
        match v with
        | none => .error .malformedHeader s
        | some v =>
          match headerSymbol v with
          | none => .error .badSymbol s
          | some y => .ok (.leaf y 0, count + 1) s

/-- RDHDR: the old tree and codes are dropped, the header is read, a lone leaf is refused (43_decoder R173, R174). -/
def rdhdrBody (s : State) : Run Unit :=
  (rd (Config.nodeCap + 1) 0 (dropTree s)).bind fun t s =>
    if t.1.isNode then .ok () (installTree (some t.1) t.2 s)
    else .error .malformedHeader s

/-- DECODE's walk: `root` is TREE, `p` the walk pointer (43_decoder R175).  The number bounds the reads: each moves
IN_POS by 1, so 8 * IN_LEN + 1 reads reach the end of the stream from every state (40_control R103). -/
def decodeLoop : Nat → Tree → Tree → State → Run Unit
  | 0, _, _, s => .error .truncatedStream s
  | k + 1, root, p, s => (inRead 1 s).bind fun b s =>
    match b with
    | none => .error .truncatedStream s
    | some b =>
      match p.child (b != 0) with
      | .leaf y _ =>
        if y = Config.pseudoEof then .ok () s
        else (Run.ofEmit (outField Config.bitsPerWord y.val s)).bind fun _ s => decodeLoop k root root s
      | .node w l r => decodeLoop k root (.node w l r) s

/-- DECODE: SEQUENCE without a tree, else the walk from the root (43_decoder R175). -/
def decodeBody (s : State) : Run Unit :=
  match validTree s with
  | none => .error .sequence s
  | some t => decodeLoop (8 * s.inLen + 1) t t s

/-- DECOMPRESS: OUTCLR, IN_POS <- 0, CHKMAGIC, RDHDR, DECODE, OutClose as one command (43_decoder R177). -/
def decompressBody (s : State) : Run Unit :=
  (chkmagicBody (rewind (outClear s))).bind fun _ s =>
    (rdhdrBody s).bind fun _ s =>
      (decodeBody s).bind fun _ s => .ok () (outClose s)

/-- CHKMAGIC (43_decoder R170). -/
def execChkmagic (s : State) : Host.Outcome State Fault Refusal := finish (chkmagicBody s)

/-- RDHDR (43_decoder R173). -/
def execRdhdr (s : State) : Host.Outcome State Fault Refusal := finish (rdhdrBody s)

/-- DECODE (43_decoder R175). -/
def execDecode (s : State) : Host.Outcome State Fault Refusal := finish (decodeBody s)

/-- DECOMPRESS (43_decoder R177). -/
def execDecompress (s : State) : Host.Outcome State Fault Refusal := finish (decompressBody s)

end Sys2Proof.Machine
end

