-- ==== Sys2Proof/Machine/Encoder.lean ====
section
/-! DEFINITION. The encoder commands COUNT, BUILD, GENCODES, WRHDR, ENCODE and COMPRESS (42_encoder R130 to R147). -/

namespace Sys2Proof.Machine

/-! ### COUNT -/

/-- FREQ[v] <- FREQ[v] + 1 (42_encoder R130). -/
def bump (f : Vector Word 257) (v : Symbol) : Vector Word 257 := f.set v.val (f[v.val] + 1)

/-- COUNT's loop: 8-bit reads until the end of the stream (42_encoder R130).  The number bounds the reads: each moves
IN_POS by 8, so IN_LEN + 1 reads reach the end of the stream from every state (40_control R103). -/
def countLoop : Nat → State → Run Unit
  | 0, s => .ok () s
  | k + 1, s => (inRead Config.bitsPerWord s).bind fun v s =>
    match v with
    | none => .ok () s
    | some v => countLoop k (setFreq (bump s.freq (byteSymbol v)) s)

/-- COUNT: zero the table, count from IN_POS, force the end-marker's count to 1 (42_encoder R130). -/
def countBody (s : State) : Run Unit :=
  (countLoop (s.inLen + 1) (setFreq noCounts s)).bind fun _ s =>
    .ok () (setFreq (s.freq.set Config.pseudoEof.val 1) s)

/-! ### BUILD -/

/-- An entry of BUILD's priority structure: a node with its key (weight, seq) (42_encoder R133). -/
structure Entry where
  node : Tree
  seq : Nat
  deriving DecidableEq, Repr

/-- The key order, lexicographic on (weight, seq) (42_encoder R133). -/
def Entry.before (a b : Entry) : Bool :=
  decide (a.node.weight < b.node.weight) || (a.node.weight == b.node.weight && decide (a.seq < b.seq))

/-- Insertion into the priority structure, kept in increasing key order, so that extractMin takes the first entry
(42_encoder R133: how the structure is stored is not visible). -/
def enqueue (e : Entry) : List Entry → List Entry
  | [] => [e]
  | x :: q => if e.before x then e :: x :: q else x :: enqueue e q

/-- BUILD's leaf entries of the counted bytes: Leaf(s, FREQ[s]) with seq = s for s in 0..255 with FREQ[s] > 0
(42_encoder R132 step 1, R134, R135). -/
def countedLeaves (f : Vector Word 257) : List Entry :=
  ((List.finRange 257).filter fun s => decide (s.val < 256) && decide (0 < f[s.val].toNat)).map fun s =>
    { node := .leaf s f[s.val].toNat, seq := s.val }

/-- BUILD's entries before merging: the counted bytes, the end-marker of weight 1, and the pad leaf Leaf(0, 0) when
the end-marker is alone (42_encoder R132, R134, R137). -/
def buildLeaves (f : Vector Word 257) : List Entry :=
  let eof : Entry := { node := .leaf Config.pseudoEof 1, seq := Config.pseudoEof.val }
  match countedLeaves f with
  | [] => [eof, { node := .leaf 0 0, seq := 0 }]
  | x :: q => x :: q ++ [eof]

/-- The priority structure that holds the entries. -/
def queueOf (es : List Entry) : List Entry := es.foldl (fun q e => enqueue e q) []

/-- One merge: A is extracted first and becomes the right child, B second and becomes the left child
(42_encoder R136, R138). -/
def mergeEntries (a b : Entry) (seq : Nat) : Entry :=
  { node := .node (a.node.weight + b.node.weight) b.node a.node, seq := seq }

/-- BUILD's merge loop: while more than one entry is left, merge the two least (42_encoder R132 step 3, R136).  The
number bounds the merges; `next` is the next seq.  The answer is the structure and the next seq. -/
def mergeLoop : Nat → Nat → List Entry → List Entry × Nat
  | k + 1, next, a :: b :: q => mergeLoop k (next + 1) (enqueue (mergeEntries a b next) q)
  | _, next, q => (q, next)

/-- The structure BUILD ends with and its next seq: internal nodes have seq 257, 258, ... (42_encoder R135). -/
def buildQueue (f : Vector Word 257) : List Entry × Nat :=
  let q := queueOf (buildLeaves f)
  mergeLoop q.length 257 q

/-- The tree BUILD makes of a frequency table: the only node left (42_encoder R132 step 4). -/
def buildTree (f : Vector Word 257) : Option Tree := (buildQueue f).1.head?.map (·.node)

/-- NODES as BUILD writes it: 2 * (next - 257) + 1 (42_encoder R132). -/
def buildNodes (f : Vector Word 257) : Nat := 2 * ((buildQueue f).2 - 257) + 1

/-- BUILD: TREE, NODES and TREE_VALID are written, the code table is dropped (42_encoder R132). -/
def buildBody (s : State) : State :=
  dropCodes (installTree (buildTree s.freq) (buildNodes s.freq) s)

/-! ### GENCODES -/

/-- `Visit(node, p)`: depth-first, left before right; a later leaf of a symbol overwrites (42_encoder R140). -/
def visit : Tree → List Bool → Vector (Option (List Bool)) 257 → Vector (Option (List Bool)) 257
  | .leaf s _, p, c => c.set s.val (some p)
  | .node _ l r, p, c => visit r (p ++ [true]) (visit l (p ++ [false]) c)

/-- The code table GENCODES makes of a tree (42_encoder R140). -/
def codesOf (t : Tree) : Vector (Option (List Bool)) 257 := visit t [] noCodes

/-- GENCODES: SEQUENCE without a tree, else the code table of TREE (42_encoder R140). -/
def gencodesBody (s : State) : Emit :=
  match validTree s with
  | none => .error (.sequence, s)
  | some t => .ok (installCodes (codesOf t) s)

/-! ### WRHDR -/

/-- WRHDR: SEQUENCE without a tree, else Header(TREE) is written (42_encoder R142). -/
def wrhdrBody (s : State) : Emit :=
  match validTree s with
  | none => .error (.sequence, s)
  | some t => outPut (header t) s

/-! ### ENCODE -/

/-- CODE[v] is written, or NO_CODE is raised (42_encoder R144). -/
def emitCode (v : Symbol) (s : State) : Run Unit :=
  match s.codes[v.val] with
  | none => .error .noCode s
  | some c => Run.ofEmit (outPut c s)

/-- ENCODE's loop: each 8-bit value is read and its code written (42_encoder R144).  The number bounds the reads as in
COUNT. -/
def encodeLoop : Nat → State → Run Unit
  | 0, s => .ok () s
  | k + 1, s => (inRead Config.bitsPerWord s).bind fun v s =>
    match v with
    | none => .ok () s
    | some v => (emitCode (byteSymbol v) s).bind fun _ s => encodeLoop k s

/-- The payload of ENCODE: the second pass over the input, then the end-marker's code (42_encoder R144). -/
def encodePayload (s : State) : Run Unit :=
  (encodeLoop (s.inLen + 1) (rewind s)).bind fun _ s => emitCode Config.pseudoEof s

/-- ENCODE: magic number, header, payload, close; SEQUENCE without a tree or a code table (42_encoder R144). -/
def encodeBody (s : State) : Run Unit :=
  match validTree s, s.codesValid with
  | some t, true =>
    (Run.ofEmit (outField Config.magicBits s.magic.toNat s)).bind fun _ s =>
      (Run.ofEmit (outPut (header t) s)).bind fun _ s =>
        (encodePayload s).bind fun _ s => .ok () (outClose s)
  | _, _ => .error .sequence s

/-! ### COMPRESS -/

/-- COMPRESS: OUTCLR, IN_POS <- 0, COUNT, BUILD, GENCODES, ENCODE as one command (42_encoder R146). -/
def compressBody (s : State) : Run Unit :=
  (countBody (rewind (outClear s))).bind fun _ s =>
    (Run.ofEmit (gencodesBody (buildBody s))).bind fun _ s => encodeBody s

/-! ### The meanings -/

/-- COUNT (42_encoder R130). -/
def execCount (s : State) : Host.Outcome State Fault Refusal := finish (countBody s)

/-- BUILD (42_encoder R132). -/
def execBuild (s : State) : Host.Outcome State Fault Refusal := .next (complete (buildBody s))

/-- GENCODES (42_encoder R140). -/
def execGencodes (s : State) : Host.Outcome State Fault Refusal := .next (settle (gencodesBody s))

/-- WRHDR (42_encoder R142). -/
def execWrhdr (s : State) : Host.Outcome State Fault Refusal := .next (settle (wrhdrBody s))

/-- ENCODE (42_encoder R144). -/
def execEncode (s : State) : Host.Outcome State Fault Refusal := finish (encodeBody s)

/-- COMPRESS (42_encoder R146). -/
def execCompress (s : State) : Host.Outcome State Fault Refusal := finish (compressBody s)

end Sys2Proof.Machine
end

