-- ==== Sys2Proof/Machine/Dispatch.lean ====
section
/-! DEFINITION. What each command does (40_control R101): one arm per constructor, each one call of its meaning. -/

namespace Sys2Proof.Machine

def exec (i : Instr) (s : State) : Host.Outcome State Fault Refusal :=
  match i with
  | .nop => Sys2Proof.Machine.execNop s
  | .srst => Sys2Proof.Machine.execSrst s
  | .rdbits n => Sys2Proof.Machine.execRdbits n s
  | .wrbits n => Sys2Proof.Machine.execWrbits n s
  | .rstin => Sys2Proof.Machine.execRstin s
  | .close => Sys2Proof.Machine.execClose s
  | .outclr => Sys2Proof.Machine.execOutclr s
  | .count => Sys2Proof.Machine.execCount s
  | .build => Sys2Proof.Machine.execBuild s
  | .gencodes => Sys2Proof.Machine.execGencodes s
  | .wrhdr => Sys2Proof.Machine.execWrhdr s
  | .encode => Sys2Proof.Machine.execEncode s
  | .compress => Sys2Proof.Machine.execCompress s
  | .chkmagic => Sys2Proof.Machine.execChkmagic s
  | .rdhdr => Sys2Proof.Machine.execRdhdr s
  | .decode => Sys2Proof.Machine.execDecode s
  | .decompress => Sys2Proof.Machine.execDecompress s

end Sys2Proof.Machine
end

