-- ==== Sys2Proof/Machine/HostPort.lean ====
section
/-! DEFINITION. The host's side: the register map (10_state R22), host accesses to registers and buffers (20_memory R60
to R69), command issue and writes while BUSY (40_control R100, R102), hardware reset (70_reset R230), and the host
operations and pseudo-commands of a host program (30_encoding R87, R88). -/

namespace Sys2Proof.Machine

/-! ### The register map -/

/-- The offset of a register (10_state R22). -/
def Reg.offset : Reg → BitVec 16
  | .cmd => 0x000
  | .status => 0x004
  | .arg => 0x008
  | .result => 0x00C
  | .inLen => 0x010
  | .inPos => 0x014
  | .outBits => 0x018
  | .magic => 0x01C
  | .nodes => 0x020
  | .inCap => 0x024
  | .outCap => 0x028
  | .freq s => BitVec.ofNat 16 (0x400 + 4 * s.val)
  | .codeLen s => BitVec.ofNat 16 (0x1000 + 4 * s.val)
  | .codeBits s k => BitVec.ofNat 16 (0x2000 + 32 * s.val + 4 * k.val)

/-- The registers below offset 0x02C, in order of their offsets (10_state R22). -/
def lowRegs : List Reg :=
  [.cmd, .status, .arg, .result, .inLen, .inPos, .outBits, .magic, .nodes, .inCap, .outCap]

/-- The register at a word-aligned offset; none is a reserved offset (10_state R22, 20_memory R63). -/
def regAt (off : BitVec 16) : Option Reg :=
  let o := off.toNat
  if o < 0x400 then lowRegs[o / 4]?
  else if o < 0x1000 then (headerSymbol ((o - 0x400) / 4)).map .freq
  else if o < 0x2000 then (headerSymbol ((o - 0x1000) / 4)).map .codeLen
  else (headerSymbol ((o - 0x2000) / 32)).map fun s => .codeBits s (Fin.ofNat 8 (o / 4))

/-- The access is 32-bit at a multiple of 4 (20_memory R62). -/
def legalAccess (off : BitVec 16) (bytes : Nat) : Bool := bytes == 4 && off.toNat % 4 == 0

/-- CODE_LEN[s]: the length of CODE[s] in bits [8:0], 0 when s has no code (10_state R34). -/
def codeLenWord (c : Option (List Bool)) : Word :=
  match c with
  | none => 0
  | some p => (BitVec.ofNat 9 p.length).setWidth 32

/-- CODE_BITS[s][k]: bit 31 - j is the code bit 32k + j; positions past the code read 0 (10_state R34). -/
def codeBitsWord (c : Option (List Bool)) (k : Nat) : Word :=
  match c with
  | none => 0
  | some p => Word.ofCount (bitsToNat ((List.range 32).map fun j => p.getD (32 * k + j) false))

/-- What a register holds (10_state R22 to R41). -/
def regValue (s : State) : Reg → Word
  | .cmd => s.cmdLast
  | .status => s.statusWord
  | .arg => s.arg
  | .result => s.result
  | .inLen => Word.ofCount s.inLen
  | .inPos => Word.ofCount s.inPos
  | .outBits => Word.ofCount s.outBits
  | .magic => s.magic
  | .nodes => Word.ofCount s.nodes
  | .inCap => Word.ofCount s.inCap
  | .outCap => Word.ofCount s.outCap
  | .freq y => s.freq[y.val]
  | .codeLen y => codeLenWord s.codes[y.val]
  | .codeBits y k => codeBitsWord s.codes[y.val] k.val

/-- The registers whose value a host reads while BUSY = 1 (20_memory R73 (c), 70_reset R234). -/
def Reg.stable : Reg → Bool
  | .status | .cmd | .arg | .inLen | .magic | .inCap | .outCap => true
  | .result | .inPos | .outBits | .nodes | .freq _ | .codeLen _ | .codeBits _ _ => false

/-! ### Reads -/

/-- The host is given a free word (70_reset R234; log 7). -/
def drawWord (s : State) : State := { s with reply := .word (Config.freeWord s.draws), draws := s.draws + 1 }

/-- The host is given a free byte (93 U1, U2, U3; log 7). -/
def drawByte (s : State) : State := { s with reply := .byte (Config.freeByte s.draws), draws := s.draws + 1 }

/-- A 32-bit aligned register read: the register's value; 0 at a reserved offset; a free value for a register that is
not stable while BUSY = 1 (20_memory R63, R64, R73; 70_reset R234). -/
def readReg (off : BitVec 16) (s : State) : State :=
  match regAt off with
  | none => { s with reply := .word 0 }
  | some r => if s.busy && !r.stable then drawWord s else { s with reply := .word (regValue s r) }

/-- A read of IN_MEM[i]: its byte, or a free value where the host has written none (93 U1). -/
def readIn (i : Nat) (s : State) : State :=
  match Memory.read s.inMem i with
  | some b => { s with reply := .byte b }
  | none => drawByte s

/-- A read of OUT_MEM[i]: a valid byte, or a free value while BUSY = 1 and at or past ceil(OUT_BITS / 8)
(10_state R40, 70_reset R234, 93 U2, U3). -/
def readOut (i : Nat) (s : State) : State :=
  match Memory.read s.outMem i with
  | some b => if !s.busy && decide (i < (s.outBits + 7) / 8) then { s with reply := .byte b } else drawByte s
  | none => drawByte s

/-- The word the host has just read; none where it has read nothing. -/
def Reply.asWord : Reply → Option Word
  | .nothing => none
  | .word v => some v
  | .byte b => some (b.setWidth 32)

/-- The byte the host has just read; none where it has read nothing. -/
def Reply.asByte : Reply → Option Byte
  | .nothing => none
  | .word v => some (v.setWidth 8)
  | .byte b => some b

/-! ### Writes -/

/-- A host write of IN_LEN while BUSY = 0: min(v, IN_CAP), and IN_POS <- 0 (10_state R38). -/
def loadLength (v : Word) (s : State) : State := { s with inLen := min v.toNat s.inCap, inPos := 0 }

/-- A 32-bit aligned register write: CMD issues a command, ARG and IN_LEN are written; all three are dropped and set
OVR while BUSY = 1; every other offset ignores the write (20_memory R63, R64; 40_control R100, R102). -/
def writeReg (off : BitVec 16) (v : Word) (s : State) : State :=
  match regAt off with
  | some .cmd => if s.busy then setOverrun s else issue v s
  | some .arg => if s.busy then setOverrun s else { s with arg := v }
  | some .inLen => if s.busy then setOverrun s else loadLength v s
  | _ => s

/-- A host write of IN_MEM[i] (20_memory R69).  While BUSY = 1 the host must not write below IN_LEN (70_reset R235;
log 4); an index at or past IN_CAP does not exist (20_memory R60; log 8). -/
def writeIn (i : Nat) (b : Byte) (s : State) : Host.Outcome State Fault Refusal :=
  if s.inCap ≤ i then .fault .outsideBuffer
  else if s.busy && decide (i < s.inLen) then .refused .inputUnstable
  else .next { s with inMem := Memory.write s.inMem i b }

/-! ### Hardware reset -/

/-- Hardware reset: every component at its reset value, a command in progress abandoned, the parameters kept; the host
goes on with what it was doing (70_reset R230, R231). -/
def hardReset (s : State) : State :=
  { State.resetWith s.magic s.inCap s.outCap with
    program := s.program
    line := s.line
    todo := s.todo
    reply := s.reply
    draws := s.draws }

/-! ### Host programs -/

/-- `<command>`: the CMD write, then WAIT (30_encoding R87). -/
def commandMoves (w : Word) : List HostMove := [.regWrite Reg.cmd.offset 4 w, .wait]

/-- `LOADIN`: the bytes, then IN_LEN (30_encoding R87). -/
def loadinMoves (bytes : List Byte) : List HostMove :=
  bytes.mapIdx (fun i b => .inWrite i b) ++ [.regWrite Reg.inLen.offset 4 (Word.ofCount bytes.length)]

/-- The copies of COPYOUTIN for `k` bytes, then IN_LEN (30_encoding R87). -/
def copyMoves (k : Nat) : List HostMove :=
  (List.range k).flatMap (fun i => [.outRead i, .inWriteReply i]) ++ [.regWrite Reg.inLen.offset 4 (Word.ofCount k)]

/-- The accesses a line of a host program stands for (30_encoding R87, R88). -/
def HostLine.moves : HostLine → List HostMove
  | .loadin bytes => loadinMoves bytes
  | .setarg v => [.regWrite Reg.arg.offset 4 v]
  | .command w => commandMoves w
  | .wait => [.wait]
  | .read r => [.regRead r.offset 4]
  | .copyoutin => [.regRead Reg.outBits.offset 4, .copyPlan]
  | .label _ => []
  | .ifGoto r hi lo v name => [.regRead r.offset 4, .branch hi lo v name]
  | .rdint => commandMoves (encode (.rdbits 32))
  | .wrint v => .regWrite Reg.arg.offset 4 v :: commandMoves (encode (.wrbits 32))
  | .rdbyte => commandMoves (encode (.rdbits 8))
  | .wrbyte v => .regWrite Reg.arg.offset 4 v :: commandMoves (encode (.wrbits 8))
  | .wrmagic =>
    .regRead Reg.magic.offset 4 :: .regWriteReply Reg.arg.offset :: commandMoves (encode (.wrbits 32))

/-- The next line of the host program is begun: its accesses are queued (30_encoding R87). -/
def startLine (l : HostLine) (s : State) : State := { s with line := s.line + 1, todo := l.moves }

/-- Bits hi to lo of a word (00_scope R8). -/
def bitsOf (w : Word) (hi lo : Nat) : Nat := w.toNat / 2 ^ lo % 2 ^ (hi + 1 - lo)

/-- `IF ... GOTO` with the register read: on equality the next line is the one after the label (30_encoding R87). -/
def branchTo (hi lo v : Nat) (target : String) (s : State) : Host.Outcome State Fault Refusal :=
  match s.reply.asWord with
  | none => .next s
  | some x =>
    if bitsOf x hi lo = v then
      match s.program.findIdx? (fun l => l = HostLine.label target) with
      | some i => .next { s with line := i + 1 }
      | none => .refused .noSuchLabel
    else .next s

/-- One access of the host (20_memory R60 to R69, 30_encoding R87, 70_reset R230). -/
def hostMove (m : HostMove) (s : State) : Host.Outcome State Fault Refusal :=
  match m with
  | .regRead off bytes => if legalAccess off bytes then .next (readReg off s) else .refused .accessError
  | .regWrite off bytes v => if legalAccess off bytes then .next (writeReg off v s) else .refused .accessError
  | .regWriteReply off =>
    if legalAccess off 4 then
      match s.reply.asWord with
      | none => .next s
      | some v => .next (writeReg off v s)
    else .refused .accessError
  | .inRead i => if s.inCap ≤ i then .fault .outsideBuffer else .next (readIn i s)
  | .inWrite i b => writeIn i b s
  | .inWriteReply i =>
    match s.reply.asByte with
    | none => .next s
    | some b => writeIn i b s
  | .outRead i => if s.outCap ≤ i then .fault .outsideBuffer else .next (readOut i s)
  | .outWrite i _ => if s.outCap ≤ i then .fault .outsideBuffer else .next s
  | .wait => .next (readReg Reg.status.offset s)
  | .copyPlan =>
    match s.reply.asWord with
    | none => .next s
    | some v => .next { s with todo := copyMoves ((v.toNat + 7) / 8) ++ s.todo }
  | .branch hi lo v target => branchTo hi lo v target s
  | .hardReset => .next (hardReset s)

end Sys2Proof.Machine
end

