-- ==== Sys2Proof/Machine/Fetch.lean ====
section
/-! DEFINITION. Who moves next, and which command the core runs (40_control R100, R101; 70_reset R241). -/

namespace Sys2Proof.Machine

/-- What the next step is. -/
inductive Turn where
  /-- The core executes a command with a legal word. -/
  | run (i : Instr)
  /-- The core executes an illegal word. -/
  | illegal
  /-- The host makes an access; `rest` are those after it. -/
  | host (m : HostMove) (rest : List HostMove)
  /-- The host begins a line of its program. -/
  | line (l : HostLine)
  /-- Nothing is left to do: the block keeps its state (60_exceptions R214). -/
  | idle
  /-- BUSY = 1 with no pending word (log 10). -/
  | stuck
  deriving DecidableEq, Repr

/-- The core's turn: the pending word is decoded (40_control R101, 30_encoding R84). -/
def coreTurn (s : State) : Turn :=
  match s.pending with
  | none => .stuck
  | some w =>
    match decode w with
    | .ok i => .run i
    | .error _ => .illegal

/-- The next step: the host's queued accesses first; at a WAIT, or with the queue empty, the core while BUSY = 1
(40_control R101, 30_encoding R87); then the next line of the host program. -/
def turn (s : State) : Turn :=
  match s.todo with
  | [] =>
    if s.busy then coreTurn s
    else match s.program[s.line]? with
      | some l => .line l
      | none => .idle
  | .wait :: rest => if s.busy then coreTurn s else .host .wait rest
  | m :: rest => .host m rest

/-- The state in which the core's next step runs the command whose word is `w`: the word is accepted as 40_control
R100 says, and the host makes no access before the core's step (log 2). -/
def withPending (w : Word) (s : State) : State := { issue w s with todo := [] }

end Sys2Proof.Machine
end

