-- ==== Sys2Proof/Machine/Step.lean ====
section
/-! DEFINITION. One step of the machine: the core's, or one access of the host (40_control R100, R101; 70_reset R241,
R242). -/

namespace Sys2Proof.Machine

/-- One step.  An illegal word raises ILLEGAL_COMMAND before any other effect (30_encoding R85). -/
def step (s : State) : Host.Outcome State Fault Refusal :=
  match turn s with
  | .run i => exec i s
  | .illegal => .next (raise .illegalCommand s)
  | .host m rest => hostMove m { s with todo := rest }
  | .line l => .next (startLine l s)
  | .idle => .next s
  | .stuck => .fault .noPendingCommand

/-- The state whose very next step runs the instruction whose bits are `w`: the host has written that word to CMD and
makes no access before the core's step (log 2).  HUFFCORE fetches nothing, so the word is stored in the pending latch
(10_state R42 (b), 40_control R100). -/
def State.withFetchWord (s : State) (nbits w : Nat) : State := withPending (BitVec.ofNat 32 (w % 2 ^ nbits)) s

end Sys2Proof.Machine
end

