-- ==== Sys2Proof/Safety.lean ====
section
/-! DEFINITION. The terms claims are stated in: what a stream holds, what a command appends, the state invariants, the
end of a run, and which errors a command may report. -/

namespace Sys2Proof.Machine

/-! ### Streams -/

/-- The buffer holds the bit string `bs` from stream bit `p` on (00_scope R9, 20_memory R65). -/
abbrev Holds (m : Memory) (p : Nat) (bs : List Bool) : Prop :=
  ∀ k, (h : k < bs.length) → Memory.bit m (p + k) = some bs[k]

/-- The input stream is the bytes `bytes`, all of them written (10_state R37, 70_reset R232). -/
abbrev Loaded (bytes : List Byte) (s : State) : Prop :=
  s.inLen = bytes.length ∧ ∀ i, (h : i < bytes.length) → Memory.read s.inMem i = some bytes[i]

/-- Every valid input byte has been written: the host's duty of 70_reset R236. -/
abbrev InputWritten (s : State) : Prop := ∀ i, i < s.inLen → (Memory.read s.inMem i).isSome = true

/-- `m` is OUT_MEM of `s` after the bit string `bs` has been appended: the new bits are there, the bits before them
are kept, and every byte outside the appended bits' bytes is unchanged (41_bitstream R112). -/
structure Appended (bs : List Bool) (s : State) (m : Memory) : Prop where
  holds : Holds m s.outBits bs
  kept : ∀ j b, j < s.outBits → Memory.bit s.outMem j = some b → Memory.bit m j = some b
  frame : ∀ a, a < s.outBits / 8 ∨ (s.outBits + bs.length + 7) / 8 ≤ a → Memory.read m a = Memory.read s.outMem a

/-- The payload of `bytes` under a code table: the bytes' codes in order, then the end-marker's; none where one of
them has no code (42_encoder R144). -/
def payload (codes : Vector (Option (List Bool)) 257) : List Byte → Option (List Bool)
  | [] => codes[Config.pseudoEof.val]
  | b :: bs =>
    match codes[(byteSymbol b.toNat).val], payload codes bs with
    | some c, some p => some (c ++ p)
    | _, _ => none

/-- The 8-bit value of the input stream at bit `p` (42_encoder R130), none where a byte has not been written. -/
def inputValue (s : State) (p : Nat) : Option Nat := (Memory.bits s.inMem p 8).map bitsToNat

/-! ### Trees -/

/-- Every Internal node's weight is the sum of its children's weights (10_state R45). -/
def Tree.summed : Tree → Prop
  | .leaf _ _ => True
  | .node w l r => w = l.weight + r.weight ∧ l.summed ∧ r.summed

/-- No left child weighs less than its right sibling (42_encoder R138). -/
def Tree.heavyLeft : Tree → Prop
  | .leaf _ _ => True
  | .node _ l r => r.weight ≤ l.weight ∧ l.heavyLeft ∧ r.heavyLeft

/-- The leaves with their weights, left to right. -/
def Tree.leafWeights : Tree → List (Symbol × Nat)
  | .leaf s w => [(s, w)]
  | .node _ l r => l.leafWeights ++ r.leafWeights

/-- The key order of BUILD's entries, lexicographic on (weight, seq) (42_encoder R133), written out. -/
abbrev KeyLt (a b : Entry) : Prop :=
  a.node.weight < b.node.weight ∨ (a.node.weight = b.node.weight ∧ a.seq < b.seq)

/-- The entries BUILD starts from, each once: Leaf(y, FREQ[y]) with seq y for each counted byte y, Leaf(256, 1) with seq
256, and the pad leaf Leaf(0, 0) with seq 0 when no byte is counted (42_encoder R134, R135, R137). -/
structure BuildStart (f : Vector Word 257) (q : List Entry) : Prop where
  nodup : q.Nodup
  mem : ∀ e : Entry, e ∈ q ↔
    (∃ y : Symbol, y.val < 256 ∧ 0 < f[y.val].toNat ∧ e = { node := .leaf y f[y.val].toNat, seq := y.val }) ∨
    e = { node := .leaf 256 1, seq := 256 } ∨
    ((∀ y : Symbol, y.val < 256 → f[y.val] = 0) ∧ e = { node := .leaf 0 0, seq := 0 })

/-- BUILD's merge loop as 42_encoder R132, R133 and R136 say it, for entries held in no particular order: from the
entries `q` with next seq `n`, merges of the two entries of least key, first `a`, then `b`, into
Internal(weight(a) + weight(b), b, a) with seq `n`, end with the one entry `e` and next seq `m`. -/
inductive MergesLeast : Nat → List Entry → Entry → Nat → Prop where
  | done (n : Nat) (e : Entry) : MergesLeast n [e] e n
  | merge (n m : Nat) (q rest : List Entry) (a b e : Entry) (split : q.Perm (a :: b :: rest))
      (first : ∀ x ∈ b :: rest, KeyLt a x) (second : ∀ x ∈ rest, KeyLt b x)
      (more : MergesLeast (n + 1)
        ({ node := .node (a.node.weight + b.node.weight) b.node a.node, seq := n } :: rest) e m) :
      MergesLeast n q e m

/-- What a header holds before one of its nodes (42_encoder R142): on the way from the root, `none` is a step to the left
child, `some l` a step to the right child, past the whole left subtree `l`. -/
def headerBefore : List (Option Tree) → List Bool
  | [] => []
  | none :: path => false :: headerBefore path
  | some l :: path => false :: (header l ++ headerBefore path)

/-- The number of node tags in `headerBefore` (43_decoder R173). -/
def tagsBefore : List (Option Tree) → Nat
  | [] => 0
  | none :: path => 1 + tagsBefore path
  | some l :: path => 1 + l.size + tagsBefore path

/-- RDHDR ends with error `e` and IN_POS = `p`: the old tree and code table are dropped, and nothing else changes
(43_decoder R173). -/
abbrev RdhdrFails (s : State) (e : ErrCode) (p : Nat) : Prop :=
  ∃ tbl, exec .rdhdr s = .next { s with
      tree := none, nodes := 0, treeValid := false, codes := tbl, codesValid := false, inPos := p,
      err := true, errCode := e, busy := false, done := true } ∧
    ∀ y : Symbol, tbl[y.val] = none

/-- Σ FREQ[0..255] (42_encoder R131, R136). -/
def countSum (f : Vector Word 257) : Nat := ((f.toList.take 256).map BitVec.toNat).sum

/-! ### Invariants -/

/-- The two streams: capacities in range, buffers in canonical form and within their capacities, cursors in range,
the valid output bytes written, the unwritten bits of a partial last byte 0, a closed output byte-aligned
(00_scope R7, 10_state R37 to R40, 41_bitstream R112, R113). -/
structure StreamsOk (s : State) : Prop where
  inCap_le : s.inCap ≤ Config.maxCap
  outCap_le : s.outCap ≤ Config.maxCap
  inMem_wf : Memory.wf s.inMem
  outMem_wf : Memory.wf s.outMem
  inMem_lt : ∀ c ∈ s.inMem, c.1 < s.inCap
  outMem_lt : ∀ c ∈ s.outMem, c.1 < s.outCap
  inLen_le : s.inLen ≤ s.inCap
  inPos_le : s.inPos ≤ 8 * s.inLen
  outBits_le : s.outBits ≤ 8 * s.outCap
  outWritten : ∀ i, i < (s.outBits + 7) / 8 → (Memory.read s.outMem i).isSome = true
  padZero : ∀ j, s.outBits ≤ j → j < 8 * ((s.outBits + 7) / 8) → Memory.bit s.outMem j = some false
  closedAligned : s.outClosed = true → s.outBits % 8 = 0

/-- The command report: BUSY and DONE exclude each other, a running command has its word latched and no error
reported, ERR and ERRCODE agree, EOS goes with RESULT = 0xFFFFFFFF (10_state R23, R25, R26, R31; 40_control R100). -/
structure ReportOk (s : State) : Prop where
  busy_or_done : ¬(s.busy = true ∧ s.done = true)
  pending_last : s.pending = none ∨ s.pending = some s.cmdLast
  busy_pending : s.busy = true → s.pending.isSome = true
  err_code : s.err = true ↔ s.errCode ≠ .none
  busy_err : s.busy = true → s.err = false
  eos_result : s.eos = true → s.result = 0xFFFFFFFF

/-- The tree and the code table: TREE_VALID says whether TREE holds a tree, which has an Internal root, at most 513
nodes and its size in NODES; the code table is that of TREE or empty (10_state R28, R32, R33, R41). -/
structure TablesOk (s : State) : Prop where
  valid : s.treeValid = s.tree.isSome
  rooted : ∀ t, s.tree = some t → t.isNode = true ∧ t.size ≤ Config.nodeCap ∧ s.nodes = t.size
  empty : s.tree = none → s.nodes = 0
  coded : s.codesValid = true → ∃ t, s.tree = some t ∧ s.codes = codesOf t
  uncoded : s.codesValid = false → s.codes = noCodes

/-- The counters: the byte counts sum to at most IN_CAP, so no counter and no weight can wrap, and the end-marker's
count is at most 1 (10_state R43, 42_encoder R130). -/
structure CountsOk (s : State) : Prop where
  sum_le : countSum s.freq ≤ s.inCap
  eof_le : s.freq[256].toNat ≤ 1

/-- The invariant of the machine. -/
structure State.Inv (s : State) : Prop where
  streams : StreamsOk s
  report : ReportOk s
  tables : TablesOk s
  counts : CountsOk s

/-! ### Errors and runs -/

/-- The errors a legal word of a command can raise (60_exceptions R202). -/
def errorsOf : Instr → List ErrCode
  | .nop | .srst | .rdbits _ | .rstin | .close | .outclr | .count | .build => []
  | .wrbits _ => [.outputClosed, .outputOverflow]
  | .gencodes => [.sequence]
  | .wrhdr => [.sequence, .outputClosed, .outputOverflow]
  | .encode => [.sequence, .outputClosed, .outputOverflow, .noCode]
  | .compress => [.outputOverflow]
  | .chkmagic => [.badMagic]
  | .rdhdr => [.malformedHeader, .headerOverflow, .badSymbol]
  | .decode => [.sequence, .truncatedStream, .outputClosed, .outputOverflow]
  | .decompress => [.badMagic, .malformedHeader, .headerOverflow, .badSymbol, .truncatedStream, .outputOverflow]

/-- Commands executed one after another (70_reset R239), stopping where one does not complete. -/
def execAll : List Instr → State → Host.Outcome State Fault Refusal
  | [], s => .next s
  | i :: is, s =>
    match exec i s with
    | .next t => execAll is t
    | .fault f => .fault f
    | .refused r => .refused r

/-- The core moves next: no host access stands before its step (40_control R101, 30_encoding R87). -/
abbrev CoreNext (s : State) : Prop := s.busy = true ∧ (s.todo = [] ∨ s.todo.head? = some .wait)

/-- The run of the host program is over (70_reset R243). -/
abbrev RunOver (s : State) : Prop := s.busy = false ∧ s.todo = [] ∧ s.program.length ≤ s.line

/-- The valid bytes of OUT_MEM, part of a run's result (10_state R40, 70_reset R243): none where one of them holds
nothing, in states no run reaches. -/
def outBytes (s : State) : Option (List Byte) :=
  (List.range ((s.outBits + 7) / 8)).mapM fun i => Memory.read s.outMem i

/-- The result of a run: every register and the valid bytes of OUT_MEM (70_reset R243). -/
def runResult (s : State) : (Reg → Word) × Option (List Byte) := (regValue s, outBytes s)

end Sys2Proof.Machine
end

