-- ==== Sys2Proof/Certificates/Slice0/Obligations.lean ====
section
/-! DEFINITION. The statements for the provers: what the numbered rules of spec/ say the machine does.  A record update
`{ s with ... }` as the next state says the frame too: every field it does not name is unchanged.  A host access is the
head of the queue `todo`, which is the model's way to hold the host (log 3). -/

open Sys2Proof Sys2Proof.Machine

/-! ### Encoding -/

/-- Decoding the word of any well-formed command gives the command back (30_encoding sections 1 to 4). -/
def Obligations.DecodeOfEncodeIsTheCommand : Prop :=
  ∀ i : Instr, i.wellFormed = true → decode (encode i) = .ok i

/-- A word that decodes is the word of the command it decodes to, and that command is well-formed: no word has a
second reading and no bit of a legal word is ignored (30_encoding sections 1 to 4). -/
def Obligations.EncodeOfDecodeIsTheWord : Prop :=
  ∀ (w : Word) (i : Instr), decode w = .ok i → encode i = w ∧ i.wellFormed = true

/-- R84: the decoder is total; a word selects exactly one command when `Legal(w)` holds, and none otherwise. -/
def Obligations.LegalWordsSelectExactlyOneCommand : Prop :=
  ∀ w : Word, (legal w = true ∧ ∃! i : Instr, decode w = .ok i) ∨ (legal w = false ∧ ∀ i : Instr, decode w ≠ .ok i)

/-- The words of the opcode map (30_encoding section 3), every one of them, RDBITS and WRBITS at some counts. -/
def Obligations.OpcodeMapWordsDecode : Prop :=
  decode 0x00000000 = .ok .nop ∧ decode 0x00000001 = .ok .srst ∧ decode 0x00000110 = .ok (.rdbits 1) ∧
  decode 0x00000810 = .ok (.rdbits 8) ∧ decode 0x00002010 = .ok (.rdbits 32) ∧ decode 0x00000311 = .ok (.wrbits 3) ∧
  decode 0x00002011 = .ok (.wrbits 32) ∧ decode 0x00000012 = .ok .rstin ∧ decode 0x00000013 = .ok .close ∧
  decode 0x00000014 = .ok .outclr ∧ decode 0x00000020 = .ok .count ∧ decode 0x00000021 = .ok .build ∧
  decode 0x00000022 = .ok .gencodes ∧ decode 0x00000023 = .ok .wrhdr ∧ decode 0x00000024 = .ok .encode ∧
  decode 0x0000002F = .ok .compress ∧ decode 0x00000030 = .ok .chkmagic ∧ decode 0x00000031 = .ok .rdhdr ∧
  decode 0x00000032 = .ok .decode ∧ decode 0x0000003F = .ok .decompress

/-- R85: executing a word with a reserved OPC, a nonzero reserved bit, or N = 0 or N >= 33 in RDBITS and WRBITS raises
ILLEGAL_COMMAND before any other effect: only STATUS changes; and these are all the illegal words. -/
def Obligations.IllegalWordOnlyReports : Prop :=
  (∀ w : Word, legal w = false ↔
    let opc := w.toNat % 256
    (2 ≤ opc ∧ opc ≤ 0x0F) ∨ (0x15 ≤ opc ∧ opc ≤ 0x1F) ∨ (0x25 ≤ opc ∧ opc ≤ 0x2E) ∨ (0x33 ≤ opc ∧ opc ≤ 0x3E) ∨
    (0x40 ≤ opc) ∨ (w.toNat / 16384 ≠ 0) ∨
    ((opc = 0x10 ∨ opc = 0x11) ∧ (w.toNat / 256 % 64 = 0 ∨ 33 ≤ w.toNat / 256 % 64)) ∨
    (opc ≠ 0x10 ∧ opc ≠ 0x11 ∧ w.toNat / 256 % 64 ≠ 0)) ∧
  ∀ (s : State) (w : Word), CoreNext s → s.pending = some w → legal w = false →
    step s = .next { s with err := true, errCode := .illegalCommand, busy := false, done := true }

/-! ### Steps, reset and the command protocol -/

/-- A step runs the decoded instruction: when the core moves next and the pending word decodes to `i`, the step is
exec of `i`; nothing is added around it. -/
def Obligations.StepRunsDecodedInstruction : Prop :=
  ∀ (s : State) (w : Word) (i : Instr), CoreNext s → s.pending = some w → decode w = .ok i → step s = exec i s

/-- The model's order of moves (log 3).  Every other step is the host's: the head of its queue is made and taken off, or, with the queue empty and
BUSY = 0, its next line is begun, or nothing is left and the state stays. -/
def Obligations.StepOtherwiseServesTheHost : Prop :=
  ∀ s : State,
    (∀ m rest, s.todo = m :: rest → (m ≠ .wait ∨ s.busy = false) → step s = hostMove m { s with todo := rest }) ∧
    (s.todo = [] → s.busy = false → ∀ l, s.program[s.line]? = some l →
      step s = .next { s with line := s.line + 1, todo := l.moves }) ∧
    (RunOver s → step s = .next s)

/-- After hardware reset every register reads 0 except MAGIC, IN_CAP and OUT_CAP, which read their parameters; TREE is
empty, no command is pending, and no flag is set (10_state section 8). -/
def Obligations.ResetLeavesEveryRegisterClear : Prop :=
  let s := State.reset
  (∀ r : Reg, r ≠ .magic → r ≠ .inCap → r ≠ .outCap → regValue s r = 0) ∧
  regValue s .magic = Config.magic ∧ regValue s .inCap = Config.inCap.setWidth 32 ∧
  regValue s .outCap = Config.outCap.setWidth 32 ∧
  s.tree = none ∧ s.pending = none ∧ (∀ y : Symbol, s.codes[y.val] = none ∧ s.freq[y.val] = 0)

/-- The hardware reset move leaves, from any state, what reset leaves, with the parameters kept (70_reset section 1);
the host's program and the rest of its queue go on (the model's choice, log 11). -/
def Obligations.HardResetClearsTheBlock : Prop :=
  ∀ (s : State) (rest : List HostMove), s.todo = .hardReset :: rest →
    ∃ t, step s = .next t ∧ (∀ r : Reg, r ≠ .magic → r ≠ .inCap → r ≠ .outCap → regValue t r = 0) ∧
      t.magic = s.magic ∧ t.inCap = s.inCap ∧ t.outCap = s.outCap ∧ t.tree = none ∧ t.pending = none ∧
      (∀ y : Symbol, t.codes[y.val] = none ∧ t.freq[y.val] = 0) ∧ t.program = s.program ∧ t.line = s.line ∧
      t.todo = rest

/-- R100: a CMD write while BUSY = 0 latches the word and clears the report; no other state changes.  While BUSY = 1
the write is dropped and sets OVR. -/
def Obligations.CommandIssueLatchesTheWord : Prop :=
  ∀ (s : State) (w : Word) (rest : List HostMove), s.todo = .regWrite Reg.cmd.offset 4 w :: rest →
    (s.busy = false → step s = .next { s with
      todo := rest, pending := some w, cmdLast := w, busy := true, done := false, err := false,
      errCode := .none }) ∧
    (s.busy = true → step s = .next { s with todo := rest, ovr := true })

/-- An ARG write while BUSY = 0 writes ARG and nothing else; while BUSY = 1 it is dropped and sets OVR (10_state
section 3, 40_control section 1). -/
def Obligations.ArgWriteWaitsForBusyToClear : Prop :=
  ∀ (s : State) (v : Word) (rest : List HostMove), s.todo = .regWrite 0x008 4 v :: rest →
    (s.busy = false → step s = .next { s with todo := rest, arg := v }) ∧
    (s.busy = true → step s = .next { s with todo := rest, ovr := true })

/-- R38: an IN_LEN write of v while BUSY = 0 sets IN_LEN to min(v, IN_CAP) and IN_POS to 0; while BUSY = 1 it is
ignored and sets OVR; a read returns IN_LEN. -/
def Obligations.LengthWriteClampsAndRewinds : Prop :=
  ∀ (s : State) (v : Word) (rest : List HostMove),
    (s.todo = .regWrite 0x010 4 v :: rest → s.busy = false →
      step s = .next { s with todo := rest, inLen := min v.toNat s.inCap, inPos := 0 }) ∧
    (s.todo = .regWrite 0x010 4 v :: rest → s.busy = true → step s = .next { s with todo := rest, ovr := true }) ∧
    (s.todo = .regRead 0x010 4 :: rest → s.inLen < 2 ^ 32 →
      ∃ x : Word, step s = .next { s with todo := rest, reply := .word x } ∧ x.toNat = s.inLen)

/-- R63: reserved offsets read 0 and ignore writes, and writes to read-only registers are ignored: of the word-aligned
offsets only CMD, ARG and IN_LEN take a write. -/
def Obligations.ReservedAndReadOnlyOffsetsIgnoreWrites : Prop :=
  ∀ (s : State) (off : BitVec 16) (v : Word) (rest : List HostMove), off.toNat % 4 = 0 →
    (s.todo = .regWrite off 4 v :: rest → off ≠ 0x000 → off ≠ 0x008 → off ≠ 0x010 →
      step s = .next { s with todo := rest }) ∧
    (s.todo = .regRead off 4 :: rest →
      ((0x02C ≤ off.toNat ∧ off.toNat ≤ 0x3FC) ∨ (0x804 ≤ off.toNat ∧ off.toNat ≤ 0xFFC) ∨
        (0x1404 ≤ off.toNat ∧ off.toNat ≤ 0x1FFC) ∨ 0x4020 ≤ off.toNat) →
      step s = .next { s with todo := rest, reply := .word 0 })

/-- R62: a register access that is not 32-bit at a multiple of 4 is refused, and one that is goes through. -/
def Obligations.OnlyAlignedWordAccessesGoThrough : Prop :=
  ∀ (s : State) (off : BitVec 16) (bytes : Nat) (v : Word) (rest : List HostMove),
    (s.todo = .regRead off bytes :: rest ∨ s.todo = .regWrite off bytes v :: rest) →
    ((bytes = 4 ∧ off.toNat % 4 = 0) → ∃ t, step s = .next t) ∧
    (¬(bytes = 4 ∧ off.toNat % 4 = 0) → step s = .refused .accessError)

/-- Host reads.  While BUSY = 0 a read at a register's offset returns that register, for every register, counter and code
word of the map, and changes nothing in the block.  While BUSY = 1, STATUS, CMD, ARG, IN_LEN, MAGIC, IN_CAP and OUT_CAP
read their values, and every other register and OUT_MEM read some value that no rule fixes: the model's draw, of which
nothing is said (10_state section 2, 20_memory section 2, 70_reset section 2; log 7). -/
def Obligations.HostReadsFollowTheMap : Prop :=
  ∀ (s : State) (rest : List HostMove),
    (∀ r : Reg, s.todo = .regRead r.offset 4 :: rest →
      (s.busy = false ∨ r ∈ [Reg.status, .cmd, .arg, .inLen, .magic, .inCap, .outCap]) →
      step s = .next { s with todo := rest, reply := .word (regValue s r) }) ∧
    (∀ r : Reg, s.todo = .regRead r.offset 4 :: rest → s.busy = true →
      r ∉ [Reg.status, .cmd, .arg, .inLen, .magic, .inCap, .outCap] →
      ∃ x : Word, step s = .next { s with todo := rest, reply := .word x, draws := s.draws + 1 }) ∧
    (∀ i : Nat, s.todo = .outRead i :: rest → s.busy = true → i < s.outCap →
      ∃ b : Byte, step s = .next { s with todo := rest, reply := .byte b, draws := s.draws + 1 }) ∧
    (∀ (i : Nat) (b : Byte), s.todo = .outRead i :: rest → s.busy = false → i < s.outCap → 8 * i < s.outBits →
      Memory.read s.outMem i = some b → step s = .next { s with todo := rest, reply := .byte b })

/-- The layout of STATUS (10_state section 3): eight flags, ERRCODE in bits 15:8, bits 31:16 zero; and the eleven error
codes, 0 to 10 (60_exceptions section 1). -/
def Obligations.StatusWordLayout : Prop :=
  ∀ s : State,
    s.statusWord.getLsbD 0 = s.busy ∧ s.statusWord.getLsbD 1 = s.done ∧ s.statusWord.getLsbD 2 = s.err ∧
    s.statusWord.getLsbD 3 = s.eos ∧ s.statusWord.getLsbD 4 = s.treeValid ∧
    s.statusWord.getLsbD 5 = s.codesValid ∧ s.statusWord.getLsbD 6 = s.outClosed ∧
    s.statusWord.getLsbD 7 = s.ovr ∧ (s.statusWord.extractLsb' 8 8).toNat = s.errCode.number ∧
    s.statusWord.extractLsb' 16 16 = 0 ∧
    ErrCode.none.number = 0 ∧ ErrCode.badMagic.number = 1 ∧ ErrCode.malformedHeader.number = 2 ∧
    ErrCode.truncatedStream.number = 3 ∧ ErrCode.illegalCommand.number = 4 ∧ ErrCode.sequence.number = 5 ∧
    ErrCode.noCode.number = 6 ∧ ErrCode.badSymbol.number = 7 ∧ ErrCode.headerOverflow.number = 8 ∧
    ErrCode.outputOverflow.number = 9 ∧ ErrCode.outputClosed.number = 10

/-- The host view of a code (10_state section 4): CODE_LEN is its length, 0 for no code, and bit 31 - j of CODE_BITS[k]
is its bit 32 k + j, 0 past its end. -/
def Obligations.CodeRegistersShowTheCode : Prop :=
  ∀ (s : State) (y : Symbol),
    (∀ p, s.codes[y.val] = some p → p.length < 512 →
      (regValue s (.codeLen y)).toNat = p.length ∧
      ∀ (k : Fin 8) (j : Nat), j < 32 →
        (regValue s (.codeBits y k)).getLsbD (31 - j) = p.getD (32 * k.val + j) false) ∧
    (s.codes[y.val] = none → regValue s (.codeLen y) = 0 ∧ ∀ k : Fin 8, regValue s (.codeBits y k) = 0)

/-- LOADIN of bytes that fit writes them from index 0, sets IN_LEN and puts IN_POS at 0; nothing else of the block
changes (30_encoding section 5; one step per access, log 3). -/
def Obligations.LoadinLoadsTheInput : Prop :=
  ∀ (s : State) (bytes : List Byte), s.todo = [] → s.busy = false → s.program[s.line]? = some (.loadin bytes) →
    bytes.length ≤ s.inCap → s.inCap ≤ Config.maxCap →
    ∃ m, core.run (bytes.length + 2) s =
        .next { s with line := s.line + 1, inMem := m, inLen := bytes.length, inPos := 0 } ∧
      (∀ i, (h : i < bytes.length) → Memory.read m i = some bytes[i]) ∧
      ∀ i, bytes.length ≤ i → Memory.read m i = Memory.read s.inMem i

/-- A `<command>` line issues the word, the core executes it in one atomic step, and the WAIT reads STATUS with
BUSY = 0: four steps in the model's order of moves (log 3) (30_encoding section 5, 40_control section 1). -/
def Obligations.CommandLineRunsTheCommand : Prop :=
  ∀ (s t : State) (w : Word) (i : Instr), s.todo = [] → s.busy = false → s.program[s.line]? = some (.command w) →
    decode w = .ok i →
    exec i { s with
      line := s.line + 1, todo := [.wait], pending := some w, cmdLast := w, busy := true, done := false,
      err := false, errCode := .none } = .next t →
    core.run 4 s = .next { t with todo := [], reply := .word t.statusWord } ∧ t.busy = false

/-! ### Control and bit-stream commands -/

/-- NOP changes nothing but BUSY and DONE; issued by the host it clears the report of an earlier error and leaves every
other state unchanged (40_control section 2). -/
def Obligations.NopAcknowledgesAnError : Prop :=
  decode 0x00000000 = .ok .nop ∧
  (∀ s : State, exec .nop s = .next { s with busy := false, done := true }) ∧
  ∀ (s : State) (rest : List HostMove), s.busy = false → s.todo = .regWrite 0x000 4 0 :: .wait :: rest →
    core.run 2 s = .next { s with
      todo := .wait :: rest, pending := some 0, cmdLast := 0, done := true, err := false, errCode := .none }

/-- SRST clears FREQ, TREE, the codes, both cursors, RESULT, EOS and OVR, and keeps IN_MEM, IN_LEN, ARG, OUT_MEM and the
CMD readback (40_control section 2). -/
def Obligations.SoftResetClearsAllButTheInput : Prop :=
  decode 0x00000001 = .ok .srst ∧
  ∀ s : State, ∃ f tbl, exec .srst s = .next { s with
      freq := f, tree := none, nodes := 0, treeValid := false, codes := tbl, codesValid := false, inPos := 0,
      outBits := 0, outClosed := false, result := 0, eos := false, ovr := false, busy := false, done := true } ∧
    ∀ y : Symbol, f[y.val] = 0 ∧ tbl[y.val] = none

/-- RDBITS n.  With n bits left: RESULT's bit n - 1 - k is the k-th bit read, its bits from n up are 0, EOS is 0 and
IN_POS advances by n.  With fewer left: EOS is 1, RESULT is 0xFFFFFFFF, nothing is consumed and no error is reported.
Nothing else changes (41_bitstream sections 1 and 2). -/
def Obligations.RdbitsReadsTheNextBits : Prop :=
  ∀ (n : BitVec 6) (s : State), 1 ≤ n.toNat → n.toNat ≤ 32 →
    (s.inPos + n.toNat ≤ 8 * s.inLen →
      (∀ k, k < n.toNat → (Memory.bit s.inMem (s.inPos + k)).isSome = true) →
      ∃ v : Word, exec (.rdbits n) s = .next { s with
          result := v, eos := false, inPos := s.inPos + n.toNat, busy := false, done := true } ∧
        (∀ k, k < n.toNat → Memory.bit s.inMem (s.inPos + k) = some (v.getLsbD (n.toNat - 1 - k))) ∧
        ∀ j, n.toNat ≤ j → v.getLsbD j = false) ∧
    (8 * s.inLen < s.inPos + n.toNat →
      exec (.rdbits n) s = .next { s with result := 0xFFFFFFFF, eos := true, busy := false, done := true })

/-- R111: `field(n, v)` is v[n-1], ..., v[0]; read back from the stream position where it stands, it gives v[n-1:0] and
IN_POS moves past it. -/
def Obligations.PackedFieldsReadBack : Prop :=
  ∀ (n v : Nat) (s : State),
    (field n v).length = n ∧ (∀ k, (h : k < (field n v).length) → (field n v)[k] = v.testBit (n - 1 - k)) ∧
    (1 ≤ n → n ≤ 32 → s.inPos + n ≤ 8 * s.inLen →
      (∀ k, k < n → Memory.bit s.inMem (s.inPos + k) = some (v.testBit (n - 1 - k))) →
      inRead n s = .ok (some (v % 2 ^ n)) { s with inPos := s.inPos + n })

/-- WRBITS n on an open output with room appends ARG[n-1:0], most significant bit first; the bits before and every
byte outside the appended bits' bytes are unchanged (41_bitstream sections 1 and 2). -/
def Obligations.WrbitsAppendsTheLowBitsOfArg : Prop :=
  ∀ (n : BitVec 6) (s : State), 1 ≤ n.toNat → n.toNat ≤ 32 → s.outClosed = false →
    s.outBits + n.toNat ≤ 8 * s.outCap →
    ∃ m, exec (.wrbits n) s = .next { s with
        outMem := m, outBits := s.outBits + n.toNat, busy := false, done := true } ∧
      (∀ k, k < n.toNat → Memory.bit m (s.outBits + k) = some (s.arg.getLsbD (n.toNat - 1 - k))) ∧
      (∀ j b, j < s.outBits → Memory.bit s.outMem j = some b → Memory.bit m j = some b) ∧
      ∀ a, a < s.outBits / 8 ∨ (s.outBits + n.toNat + 7) / 8 ≤ a → Memory.read m a = Memory.read s.outMem a

/-- WRBITS on a closed output writes nothing and raises OUTPUT_CLOSED; on an open one without room it writes the bits
that fit, leaves OUT_BITS = 8 OUT_CAP and raises OUTPUT_OVERFLOW (41_bitstream sections 1 and 2). -/
def Obligations.WrbitsErrorsKeepTheBitsThatFit : Prop :=
  ∀ (n : BitVec 6) (s : State), 1 ≤ n.toNat → n.toNat ≤ 32 →
    (s.outClosed = true → exec (.wrbits n) s = .next { s with
      err := true, errCode := .outputClosed, busy := false, done := true }) ∧
    (s.outClosed = false → s.outBits ≤ 8 * s.outCap → 8 * s.outCap < s.outBits + n.toNat →
      ∃ m, exec (.wrbits n) s = .next { s with
          outMem := m, outBits := 8 * s.outCap, err := true, errCode := .outputOverflow,
          busy := false, done := true } ∧
        Appended ((field n.toNat s.arg.toNat).take (8 * s.outCap - s.outBits)) s m)

/-- RSTIN puts IN_POS at 0; CLOSE pads OUT_BITS to a byte boundary and closes, and does nothing on a closed output;
OUTCLR starts a fresh output; none of them touches a byte of either buffer (41_bitstream sections 1 and 2). -/
def Obligations.StreamControlCommands : Prop :=
  ∀ s : State,
    exec .rstin s = .next { s with inPos := 0, busy := false, done := true } ∧
    (s.outClosed = false → ∃ b, exec .close s = .next { s with
        outBits := b, outClosed := true, busy := false, done := true } ∧
      b % 8 = 0 ∧ s.outBits ≤ b ∧ b < s.outBits + 8) ∧
    (s.outClosed = true → exec .close s = .next { s with busy := false, done := true }) ∧
    exec .outclr s = .next { s with outBits := 0, outClosed := false, busy := false, done := true }

/-! ### Encoder -/

/-- COUNT from any IN_POS: FREQ[v] is the number of 8-bit values v from IN_POS on, FREQ[256] is 1, IN_POS ends where
fewer than 8 bits remain, and nothing else changes (42_encoder section 1). -/
def Obligations.CountTalliesFromTheCursor : Prop :=
  ∀ s : State, InputWritten s → s.inLen ≤ Config.maxCap →
    ∃ f, exec .count s = .next { s with
        freq := f, inPos := s.inPos + 8 * ((8 * s.inLen - s.inPos) / 8), busy := false, done := true } ∧
      f[256] = 1 ∧
      ∀ y : Symbol, y.val < 256 →
        f[y.val].toNat =
          ((List.range ((8 * s.inLen - s.inPos) / 8)).filter
            fun k => inputValue s (s.inPos + 8 * k) = some y.val).length

/-- R131: after COUNT from IN_POS = 0 over the input bytes, FREQ[v] is the number of bytes equal to v, the counts sum to
IN_LEN, FREQ[256] = 1 and IN_POS = 8 IN_LEN. -/
def Obligations.CountFromTheStartCountsTheBytes : Prop :=
  ∀ (s : State) (bytes : List Byte), Loaded bytes s → s.inPos = 0 → s.inLen ≤ Config.maxCap →
    ∃ f, exec .count s = .next { s with freq := f, inPos := 8 * s.inLen, busy := false, done := true } ∧
      (∀ b : Byte, f[(byteSymbol b.toNat).val].toNat = bytes.count b) ∧ countSum f = s.inLen ∧ f[256] = 1

/-- BUILD from any FREQ makes a full tree: with L leaves, 2 <= L <= 257, NODES = 2L - 1, distinct leaf symbols, a leaf for
each counted byte with its count, the end-marker with weight 1, the pad leaf exactly when no byte is counted, each
Internal weight the sum of its children's, no left child lighter than its right sibling, the root's weight
Σ FREQ[0..255] + 1; FREQ is kept.  The tree is the one that L - 1 merges make of those leaves, each of the two entries of
least key (weight, seq), the lesser the right child and the greater the left (42_encoder section 2). -/
def Obligations.BuildMakesTheFullTree : Prop :=
  ∀ s : State, ∃ t tbl, exec .build s = .next { s with
      tree := some t, nodes := 2 * t.leaves - 1, treeValid := true, codes := tbl, codesValid := false,
      busy := false, done := true } ∧
    (∀ y : Symbol, tbl[y.val] = none) ∧
    t.isNode = true ∧ t.size = 2 * t.leaves - 1 ∧ 2 ≤ t.leaves ∧ t.leaves ≤ 257 ∧ t.symbols.Nodup ∧ t.summed ∧
    t.heavyLeft ∧ t.weight = countSum s.freq + 1 ∧
    (∃ q, BuildStart s.freq q ∧ q.length = t.leaves ∧
      MergesLeast 257 q { node := t, seq := 255 + q.length } (256 + q.length)) ∧
    ∀ (y : Symbol) (w : Nat), (y, w) ∈ t.leafWeights ↔
      (y.val < 256 ∧ 0 < w ∧ w = s.freq[y.val].toNat) ∨ (y = 256 ∧ w = 1) ∨
      (y = 0 ∧ w = 0 ∧ ∀ z : Symbol, z.val < 256 → s.freq[z.val] = 0)

/-- BUILD's merge loop, from every structure in key order whose seqs are below the next one, takes at each merge the two
entries of least key (weight, seq), first the right child, then the left, gives the new node the sum of their weights and
the next seq, and ends with one entry; BUILD's own structure is such a one, made of the leaves the rules give
(42_encoder section 2).  The rule is written out in KeyLt, BuildStart and MergesLeast, which name no function of BUILD. -/
def Obligations.ExtractMinTakesTheLeastKey : Prop :=
  (∀ (n : Nat) (q : List Entry), q ≠ [] → q.Pairwise KeyLt → (∀ x ∈ q, x.seq < n) →
    ∃ e, mergeLoop q.length n q = ([e], n + (q.length - 1)) ∧ MergesLeast n q e (n + (q.length - 1))) ∧
  ∀ f : Vector Word 257, ∃ q e, BuildStart f q ∧ (queueOf (buildLeaves f)).Perm q ∧
    (queueOf (buildLeaves f)).Pairwise KeyLt ∧ buildQueue f = ([e], 256 + q.length) ∧
    MergesLeast 257 q e (256 + q.length)

/-- GENCODES gives each symbol the path to its last leaf in left-to-right order, and no code to a symbol without a leaf
(42_encoder section 3). -/
def Obligations.GencodesRecordsTheLastPath : Prop :=
  ∀ (s : State) (t : Tree), s.treeValid = true → s.tree = some t →
    ∃ tbl, exec .gencodes s = .next { s with codes := tbl, codesValid := true, busy := false, done := true } ∧
      ∀ y : Symbol, tbl[y.val] = ((t.paths.filter fun x => x.1 = y).getLast?).map (·.2)

/-- The codes of a tree with distinct leaf symbols are prefix-free and fill the code space: the sum of 2^(-length) over
the leaves is 1; with an Internal root of at most 513 nodes each has 1 to 256 bits (42_encoder section 3, 10_state
section 4). -/
def Obligations.CodesArePrefixFreeAndComplete : Prop :=
  ∀ (s u : State) (t : Tree), s.treeValid = true → s.tree = some t → t.symbols.Nodup →
    exec .gencodes s = .next u →
    (∀ (a b : Symbol) (p q : List Bool), u.codes[a.val] = some p → u.codes[b.val] = some q → p <+: q → a = b) ∧
    ((t.symbols.map fun y => (1 / 2 : ℚ) ^ ((u.codes[y.val]).getD []).length).sum = 1) ∧
    (t.isNode = true → t.size ≤ Config.nodeCap →
      ∀ (a : Symbol) (p : List Bool), u.codes[a.val] = some p → 1 ≤ p.length ∧ p.length ≤ Config.maxCodeLen)

/-- R143: a tree with L leaves has a header of 11 L - 1 bits, and the header of a BUILD tree is 21 to 2826 bits long. -/
def Obligations.HeaderLengthIsElevenPerLeaf : Prop :=
  (∀ t : Tree, (header t).length = (t.leaves - 1) + 10 * t.leaves ∧ (header t).length = 11 * t.leaves - 1) ∧
  ∀ s u t, exec .build s = .next u → u.tree = some t → 21 ≤ (header t).length ∧ (header t).length ≤ 2826

/-- WRHDR with a tree, an open output and room appends the tree's header, 11 L - 1 bits, and does not close
(42_encoder section 4). -/
def Obligations.WrhdrAppendsTheHeader : Prop :=
  ∀ (s : State) (t : Tree), s.treeValid = true → s.tree = some t → s.outClosed = false →
    s.outBits + (11 * t.leaves - 1) ≤ 8 * s.outCap →
    ∃ m, exec .wrhdr s = .next { s with
        outMem := m, outBits := s.outBits + (11 * t.leaves - 1), busy := false, done := true } ∧
      Appended (header t) s m

/-- ENCODE of the loaded bytes appends the magic number, the header and the payload, closes at a byte boundary, and leaves
IN_POS at the end of the input (42_encoder section 5). -/
def Obligations.EncodeAppendsTheCompressedStream : Prop :=
  ∀ (s : State) (t : Tree) (bytes : List Byte) (p : List Bool), s.treeValid = true → s.tree = some t →
    s.codesValid = true → s.outClosed = false → Loaded bytes s → payload s.codes bytes = some p →
    s.outBits + (32 + (11 * t.leaves - 1) + p.length) ≤ 8 * s.outCap →
    ∃ m, exec .encode s = .next { s with
        outMem := m, outBits := 8 * ((s.outBits + 32 + (11 * t.leaves - 1) + p.length + 7) / 8),
        outClosed := true, inPos := 8 * s.inLen, busy := false, done := true } ∧
      Appended (field 32 s.magic.toNat ++ header t ++ p) s m

/-- ENCODE meeting a byte with no code raises NO_CODE after reading it and before writing any bit for it: the magic
number, the header and the codes before it stay, and the output is not closed (42_encoder section 5). -/
def Obligations.EncodeStopsAtAByteWithoutACode : Prop :=
  ∀ (s : State) (t : Tree) (xs ys : List Byte) (x : Byte) (cs : List (List Bool)), s.treeValid = true →
    s.tree = some t → s.codesValid = true → s.outClosed = false → Loaded (xs ++ x :: ys) s →
    xs.map (fun b => s.codes[(byteSymbol b.toNat).val]) = cs.map some →
    s.codes[(byteSymbol x.toNat).val] = none →
    s.outBits + (32 + (11 * t.leaves - 1) + cs.flatten.length) ≤ 8 * s.outCap →
    ∃ m, exec .encode s = .next { s with
        outMem := m, outBits := s.outBits + 32 + (11 * t.leaves - 1) + cs.flatten.length,
        inPos := 8 * (xs.length + 1), err := true, errCode := .noCode, busy := false, done := true } ∧
      Appended (field 32 s.magic.toNat ++ header t ++ cs.flatten) s m

/-- COMPRESS of the loaded bytes with room enough writes, from output bit 0, the magic number, the header of BUILD's tree,
the codes of the bytes in order, the end-marker's code and zero padding to a byte boundary (42_encoder section 6). -/
def Obligations.CompressWritesTheStream : Prop :=
  ∀ (s : State) (bytes : List Byte), Loaded bytes s → s.inLen ≤ Config.maxCap →
    ∃ f tbl t p, t.leaves ≤ 257 ∧ payload tbl bytes = some p ∧
      (∀ b : Byte, f[(byteSymbol b.toNat).val].toNat = bytes.count b) ∧ f[256] = 1 ∧
      buildTree f = some t ∧ tbl = codesOf t ∧
      (32 + (11 * t.leaves - 1) + p.length ≤ 8 * s.outCap →
        ∃ m k, k < 8 ∧ exec .compress s = .next { s with
            freq := f, tree := some t, nodes := 2 * t.leaves - 1, treeValid := true, codes := tbl, codesValid := true,
            outMem := m, outBits := 32 + (11 * t.leaves - 1) + p.length + k, outClosed := true,
            inPos := 8 * s.inLen, busy := false, done := true } ∧
          (32 + (11 * t.leaves - 1) + p.length + k) % 8 = 0 ∧
          Holds m 0 (field 32 s.magic.toNat ++ header t ++ p ++ List.replicate k false) ∧
          ∀ a, (32 + (11 * t.leaves - 1) + p.length + k) / 8 ≤ a → Memory.read m a = Memory.read s.outMem a)

/-- COMPRESS of a written input always completes, and its only error is OUTPUT_OVERFLOW, with a full, open output.  Either
way FREQ holds the counts of the input's bytes, TREE is BUILD's tree of them and the code table is that of the tree, the
complete results of the first three steps; where OUT_MEM has room for the magic number, the longest header (2826 bits) and
IN_LEN + 1 codes of the longest length (256 bits) it succeeds (42_encoder sections 3, 4 and 6). -/
def Obligations.CompressFailsOnlyByOverflow : Prop :=
  ∀ s : State, InputWritten s → s.inLen ≤ Config.maxCap →
    ∃ u t, exec .compress s = .next u ∧ u.treeValid = true ∧ u.codesValid = true ∧
      (∀ y : Symbol, y.val < 256 → u.freq[y.val].toNat =
        ((List.range s.inLen).filter fun i => Memory.read s.inMem i = some (BitVec.ofNat 8 y.val)).length) ∧
      u.freq[256] = 1 ∧ buildTree u.freq = some t ∧ u.tree = some t ∧ u.nodes = t.size ∧ u.codes = codesOf t ∧
      ((u.err = s.err ∧ u.errCode = s.errCode ∧ u.outClosed = true ∧ u.outBits % 8 = 0) ∨
        (u.err = true ∧ u.errCode = .outputOverflow ∧ u.outClosed = false ∧ u.outBits = 8 * u.outCap)) ∧
      (32 + 2826 + 256 * (s.inLen + 1) ≤ 8 * s.outCap →
        u.err = s.err ∧ u.errCode = s.errCode ∧ u.outClosed = true)

/-- A full compression or decompression by steps that succeeds leaves exactly the state the composite leaves
(70_reset section 2). -/
def Obligations.CompositesEqualTheirSteps : Prop :=
  ∀ s u : State, s.err = false → u.err = false →
    (execAll [.outclr, .rstin, .count, .build, .gencodes, .encode] s = .next u → exec .compress s = .next u) ∧
    (execAll [.outclr, .rstin, .chkmagic, .rdhdr, .decode, .close] s = .next u → exec .decompress s = .next u)

/-! ### Decoder -/

/-- CHKMAGIC: with fewer than 32 bits left it raises BAD_MAGIC and consumes nothing; else it consumes 32 bits and raises
BAD_MAGIC exactly when they are not MAGIC; it writes no output (43_decoder section 1). -/
def Obligations.ChkmagicAcceptsOnlyMagic : Prop :=
  ∀ s : State,
    (8 * s.inLen < s.inPos + 32 →
      exec .chkmagic s = .next { s with err := true, errCode := .badMagic, busy := false, done := true }) ∧
    (∀ v : Word, s.inPos + 32 ≤ 8 * s.inLen → Holds s.inMem s.inPos (field 32 v.toNat) →
      (v = s.magic → exec .chkmagic s = .next { s with inPos := s.inPos + 32, busy := false, done := true }) ∧
      (v ≠ s.magic → exec .chkmagic s = .next { s with
        inPos := s.inPos + 32, err := true, errCode := .badMagic, busy := false, done := true }))

/-- RDHDR reading the header of a tree with an Internal root and at most 513 nodes rebuilds that tree with every weight 0,
sets NODES and drops the old code table (43_decoder section 2). -/
def Obligations.RdhdrRebuildsTheTree : Prop :=
  ∀ (s : State) (t : Tree), t.isNode = true → t.size ≤ Config.nodeCap →
    s.inPos + (header t).length ≤ 8 * s.inLen → Holds s.inMem s.inPos (header t) →
    ∃ tbl, exec .rdhdr s = .next { s with
        tree := some t.unweighted, nodes := t.size, treeValid := true, codes := tbl, codesValid := false,
        inPos := s.inPos + (header t).length, busy := false, done := true } ∧
      ∀ y : Symbol, tbl[y.val] = none

/-- RDHDR of a written input always completes.  Either it reports no error and TREE is a full tree of at most 513 nodes
with an Internal root and weights 0, or it reports MALFORMED_HEADER, HEADER_OVERFLOW or BAD_SYMBOL and TREE is empty;
the code table is empty and IN_POS stays within the stream (43_decoder section 2, 10_state section 9). -/
def Obligations.RdhdrAcceptsOnlyBoundedFullTrees : Prop :=
  ∀ s : State, InputWritten s → s.inPos ≤ 8 * s.inLen →
    ∃ u : State, ∃ tbl, exec .rdhdr s = .next { s with
        tree := u.tree, nodes := u.nodes, treeValid := u.treeValid, codes := tbl, codesValid := false,
        inPos := u.inPos, err := u.err, errCode := u.errCode, busy := false, done := true } ∧
      (∀ y : Symbol, tbl[y.val] = none) ∧ s.inPos ≤ u.inPos ∧ u.inPos ≤ 8 * s.inLen ∧
      ((u.err = s.err ∧ u.errCode = s.errCode ∧ u.treeValid = true ∧
          ∃ t, u.tree = some t ∧ t.isNode = true ∧ t.size ≤ Config.nodeCap ∧ u.nodes = t.size ∧ t.unweighted = t) ∨
        (u.err = true ∧ u.errCode ∈ [ErrCode.malformedHeader, .headerOverflow, .badSymbol] ∧
          u.tree = none ∧ u.nodes = 0 ∧ u.treeValid = false))

/-- When RDHDR reports which error, and where IN_POS is left.  A header that is one leaf of a symbol 0..256 raises
MALFORMED_HEADER after it has been read.  At any node of a header, with `path` the way to the node: a leaf whose symbol is
257..511 among the first 513 nodes raises BAD_SYMBOL after its 9 bits; the 514th tag raises HEADER_OVERFLOW once read; the
end of the stream where one of the first 514 tags is expected, or inside the 9 bits of a symbol, raises MALFORMED_HEADER
and the failed read moves nothing.  The old tree and code table are gone (43_decoder section 2). -/
def Obligations.RdhdrRefusesLoneLeavesAndBadSymbols : Prop :=
  ∀ s : State,
    (∀ v : Nat, v ≤ 256 → s.inPos + 10 ≤ 8 * s.inLen → Holds s.inMem s.inPos (true :: field 9 v) →
      RdhdrFails s .malformedHeader (s.inPos + 10)) ∧
    ∀ path : List (Option Tree),
      let p := s.inPos + (headerBefore path).length
      (∀ v : Nat, 256 < v → v < 512 → tagsBefore path < 513 → p + 10 ≤ 8 * s.inLen →
        Holds s.inMem s.inPos (headerBefore path ++ true :: field 9 v) → RdhdrFails s .badSymbol (p + 10)) ∧
      (∀ b : Bool, tagsBefore path = 513 → p + 1 ≤ 8 * s.inLen →
        Holds s.inMem s.inPos (headerBefore path ++ [b]) → RdhdrFails s .headerOverflow (p + 1)) ∧
      (tagsBefore path ≤ 513 → p = 8 * s.inLen → Holds s.inMem s.inPos (headerBefore path) →
        RdhdrFails s .malformedHeader p) ∧
      (tagsBefore path < 513 → p + 1 ≤ 8 * s.inLen → 8 * s.inLen < p + 10 →
        Holds s.inMem s.inPos (headerBefore path ++ [true]) → RdhdrFails s .malformedHeader (p + 1))

/-- DECODE of the codes of x1, ..., xk followed by the end-marker's code appends the k bytes and stops just after that
code, whatever follows it (43_decoder section 3).  A code here is a path of the tree, so trees from RDHDR with two
leaves of one symbol are included. -/
def Obligations.DecodeEmitsTheCodedBytes : Prop :=
  ∀ (s : State) (t : Tree) (xs : List (Symbol × List Bool)) (q : List Bool), s.treeValid = true →
    s.tree = some t → t.isNode = true → (∀ x ∈ xs, x ∈ t.paths ∧ x.1 ≠ 256) → (256, q) ∈ t.paths →
    s.inPos + ((xs.map (·.2)).flatten ++ q).length ≤ 8 * s.inLen →
    Holds s.inMem s.inPos ((xs.map (·.2)).flatten ++ q) →
    s.outClosed = false → s.outBits + 8 * xs.length ≤ 8 * s.outCap →
    ∃ m, exec .decode s = .next { s with
        outMem := m, outBits := s.outBits + 8 * xs.length,
        inPos := s.inPos + ((xs.map (·.2)).flatten ++ q).length, busy := false, done := true } ∧
      Appended ((xs.map fun x => field 8 x.1.val).flatten) s m

/-- DECODE of a stream that ends inside a code appends the bytes whose codes are whole and raises TRUNCATED_STREAM, with
IN_POS at the end of the stream (43_decoder section 3). -/
def Obligations.DecodeReportsATruncatedStream : Prop :=
  ∀ (s : State) (t : Tree) (xs : List (Symbol × List Bool)) (q r : List Bool) (y : Symbol), s.treeValid = true →
    s.tree = some t → t.isNode = true → (∀ x ∈ xs, x ∈ t.paths ∧ x.1 ≠ 256) →
    (y, q ++ r) ∈ t.paths → r ≠ [] →
    s.inPos + ((xs.map (·.2)).flatten ++ q).length = 8 * s.inLen →
    Holds s.inMem s.inPos ((xs.map (·.2)).flatten ++ q) →
    s.outClosed = false → s.outBits + 8 * xs.length ≤ 8 * s.outCap →
    ∃ m, exec .decode s = .next { s with
        outMem := m, outBits := s.outBits + 8 * xs.length, inPos := 8 * s.inLen,
        err := true, errCode := .truncatedStream, busy := false, done := true } ∧
      Appended ((xs.map fun x => field 8 x.1.val).flatten) s m

/-- DECOMPRESS of a stream made of MAGIC, the header of a tree with an Internal root and at most 513 nodes, codes of bytes
and the end-marker's code rebuilds the tree, writes the bytes from output bit 0, closes the output, and leaves IN_POS
after the end-marker's code, whatever follows it (43_decoder section 4). -/
def Obligations.DecompressReadsTheStream : Prop :=
  ∀ (s : State) (t : Tree) (xs : List (Symbol × List Bool)) (q : List Bool), t.isNode = true →
    t.size ≤ Config.nodeCap → (∀ x ∈ xs, x ∈ t.paths ∧ x.1 ≠ 256) → (256, q) ∈ t.paths →
    32 + (header t).length + ((xs.map (·.2)).flatten ++ q).length ≤ 8 * s.inLen →
    Holds s.inMem 0 (field 32 s.magic.toNat ++ header t ++ ((xs.map (·.2)).flatten ++ q)) →
    xs.length ≤ s.outCap →
    ∃ m tbl, exec .decompress s = .next { s with
        tree := some t.unweighted, nodes := t.size, treeValid := true, codes := tbl, codesValid := false,
        outMem := m, outBits := 8 * xs.length, outClosed := true,
        inPos := 32 + (header t).length + ((xs.map (·.2)).flatten ++ q).length, busy := false, done := true } ∧
      (∀ y : Symbol, tbl[y.val] = none) ∧
      (∀ i, (h : i < xs.length) → Memory.read m i = some (BitVec.ofNat 8 xs[i].1.val)) ∧
      ∀ a, xs.length ≤ a → Memory.read m a = Memory.read s.outMem a

/-- DECOMPRESS of a stream shorter than 4 bytes, or that does not start with MAGIC, reports BAD_MAGIC and leaves an empty,
open output and the old tree; IN_POS is past the 32 bits where they were there (43_decoder sections 1 and 4). -/
def Obligations.DecompressChecksTheMagicFirst : Prop :=
  ∀ (s : State) (v : Word), s.inLen < 4 ∨ (Holds s.inMem 0 (field 32 v.toNat) ∧ v ≠ s.magic) →
    exec .decompress s = .next { s with
      inPos := if s.inLen < 4 then 0 else 32, outBits := 0, outClosed := false,
      err := true, errCode := .badMagic, busy := false, done := true }

/-- R178, the round trip: when COMPRESS of S succeeds and its output bytes are loaded as input, DECOMPRESS succeeds, its
output is S and its tree is the encoder's tree with weights 0 (the same shape and leaf symbols, so the same code
lengths), for every S, every MAGIC and all capacities that hold them. -/
def Obligations.DecompressInvertsCompress : Prop :=
  ∀ (S : List Byte) (s t u : State), Loaded S s → s.err = false → exec .compress s = .next t → t.err = false →
    u.magic = s.magic → 8 * u.inLen = t.outBits →
    (∀ i, i < u.inLen → Memory.read u.inMem i = Memory.read t.outMem i) → S.length ≤ u.outCap →
    ∃ v, exec .decompress u = .next v ∧ v.err = u.err ∧ v.errCode = u.errCode ∧ v.outClosed = true ∧
      v.tree = t.tree.map Tree.unweighted ∧
      v.outBits = 8 * S.length ∧ ∀ i, (h : i < S.length) → Memory.read v.outMem i = some S[i]

/-- Truncation: DECOMPRESS of the first j of c bytes of a compressed stream fails for every j < c, in the magic number with
BAD_MAGIC and no output, in the header with MALFORMED_HEADER and no output, in the payload with TRUNCATED_STREAM and a
prefix of S (43_decoder section 5). -/
def Obligations.EveryTruncationIsReported : Prop :=
  ∀ (S : List Byte) (s t u : State) (T : Tree), Loaded S s → s.err = false → exec .compress s = .next t →
    t.err = false → t.tree = some T → u.magic = s.magic → 8 * u.inLen < t.outBits →
    (∀ i, i < u.inLen → Memory.read u.inMem i = Memory.read t.outMem i) → S.length ≤ u.outCap →
    ∃ v, exec .decompress u = .next v ∧ v.err = true ∧
      (u.inLen < 4 → v.errCode = .badMagic ∧ v.outBits = 0) ∧
      (4 ≤ u.inLen → 8 * u.inLen < 32 + (11 * T.leaves - 1) → v.errCode = .malformedHeader ∧ v.outBits = 0) ∧
      (32 + (11 * T.leaves - 1) ≤ 8 * u.inLen → v.errCode = .truncatedStream ∧
        ∃ k, k ≤ S.length ∧ v.outBits = 8 * k ∧
          ∀ i, (h : i < S.length) → i < k → Memory.read v.outMem i = some S[i])

/-! ### Errors and completion -/

/-- GENCODES, WRHDR, ENCODE and DECODE without a tree, and ENCODE without a code table, report SEQUENCE before any stream
access: nothing but the report changes (70_reset section 2, 60_exceptions section 2). -/
def Obligations.MissingTreeOrCodesReportsSequence : Prop :=
  ∀ (s : State) (i : Instr),
    ((i = .gencodes ∨ i = .wrhdr ∨ i = .encode ∨ i = .decode) ∧ s.treeValid = false) ∨
      (i = .encode ∧ s.codesValid = false) →
    exec i s = .next { s with err := true, errCode := .sequence, busy := false, done := true }

/-- Every command completes in one step with BUSY = 0 and DONE = 1, or it reads an input byte the host has not written,
which is the one way it can stop: no command is refused (40_control section 1, 60_exceptions section 7). -/
def Obligations.EveryCommandCompletes : Prop :=
  ∀ (i : Instr) (s : State),
    (∃ t, exec i s = .next t ∧ t.busy = false ∧ t.done = true) ∨
      (exec i s = .fault .unwrittenInput ∧ ¬ InputWritten s)

/-- A command reports only the errors the table of its rule gives it, and reports one exactly by ERR = 1 and its code
(60_exceptions section 1). -/
def Obligations.CommandsReportOnlyTheirErrors : Prop :=
  ∀ (i : Instr) (s t : State), i.wellFormed = true → s.inLen ≤ Config.maxCap → s.err = false →
    s.errCode = .none → exec i s = .next t →
    (t.err = false ∧ t.errCode = .none) ∨ (t.err = true ∧ t.errCode ∈ errorsOf i)

/-- What no command writes: ARG, IN_LEN, IN_MEM, the CMD readback, the pending word, the parameters, and the host's side
(10_state sections 3, 5 and 6). -/
def Obligations.CommandsLeaveTheHostsStateAlone : Prop :=
  ∀ (i : Instr) (s t : State), exec i s = .next t →
    t.arg = s.arg ∧ t.inLen = s.inLen ∧ t.inMem = s.inMem ∧ t.cmdLast = s.cmdLast ∧ t.pending = s.pending ∧
    t.magic = s.magic ∧ t.inCap = s.inCap ∧ t.outCap = s.outCap ∧ t.program = s.program ∧ t.line = s.line ∧
    t.todo = s.todo ∧ t.reply = s.reply ∧ t.draws = s.draws

/-- Who writes what: RESULT and EOS only RDBITS and SRST; FREQ only COUNT, COMPRESS and SRST; TREE only BUILD, RDHDR,
the composites and SRST; the code table those and GENCODES; the output only the writing commands; IN_POS only the
reading ones and RSTIN; OVR only SRST (10_state sections 3 to 5). -/
def Obligations.EachRegisterHasItsWriters : Prop :=
  ∀ (i : Instr) (s t : State), exec i s = .next t →
    (i ≠ .srst → (∀ n, i ≠ .rdbits n) → t.result = s.result ∧ t.eos = s.eos) ∧
    (i ∉ [Instr.count, .compress, .srst] → t.freq = s.freq) ∧
    (i ∉ [Instr.build, .rdhdr, .compress, .decompress, .srst] →
      t.tree = s.tree ∧ t.nodes = s.nodes ∧ t.treeValid = s.treeValid) ∧
    (i ∉ [Instr.gencodes, .build, .rdhdr, .compress, .decompress, .srst] →
      t.codes = s.codes ∧ t.codesValid = s.codesValid) ∧
    (i ∉ [Instr.srst, .close, .outclr, .wrhdr, .encode, .compress, .decode, .decompress] → (∀ n, i ≠ .wrbits n) →
      t.outMem = s.outMem ∧ t.outBits = s.outBits ∧ t.outClosed = s.outClosed) ∧
    (i ∉ [Instr.srst, .rstin, .count, .encode, .compress, .chkmagic, .rdhdr, .decode, .decompress] →
      (∀ n, i ≠ .rdbits n) → t.inPos = s.inPos) ∧
    (i ≠ .srst → t.ovr = s.ovr)

/-! ### Invariants -/

/-- The state after reset meets the machine's invariant. -/
def Obligations.ResetMeetsTheMachineInvariant : Prop := State.reset.Inv

/-- Every step keeps the streams in bounds and the buffers in canonical form, from every state that meets this. -/
def Obligations.StepKeepsStreamsInBounds : Prop :=
  ∀ s t : State, StreamsOk s → step s = .next t → StreamsOk t

/-- Every step keeps the command report consistent: BUSY and DONE exclude each other, ERR goes with a code. -/
def Obligations.StepKeepsTheReportConsistent : Prop :=
  ∀ s t : State, ReportOk s → step s = .next t → ReportOk t

/-- Every step keeps the tree and the code table consistent: TREE_VALID, NODES and CODES_VALID say what is held. -/
def Obligations.StepKeepsTheTablesConsistent : Prop :=
  ∀ s t : State, TablesOk s → step s = .next t → TablesOk t

/-- Every step keeps the whole invariant: with the streams in bounds, the counters never wrap either. -/
def Obligations.StepKeepsTheMachineInvariant : Prop :=
  ∀ s t : State, s.Inv → step s = .next t → t.Inv

/-- No step, of the core or of the host, changes MAGIC, IN_CAP or OUT_CAP. -/
def Obligations.StepKeepsTheParameters : Prop :=
  ∀ s t : State, step s = .next t → t.magic = s.magic ∧ t.inCap = s.inCap ∧ t.outCap = s.outCap
end

