-- ==== Sys2Proof/Laws/Build.lean ====
section
/-! SUPPORT. BUILD's priority structure and merge loop: what one insertion and the whole loop can do, said once. -/

namespace Sys2Proof.Machine

@[simp] theorem length_enqueue (e : Entry) (q : List Entry) : (enqueue e q).length = q.length + 1 := by
  induction q with
  | nil => rfl
  | cons x q ih => simp only [enqueue]; split <;> simp [ih]

theorem mem_enqueue (e x : Entry) (q : List Entry) : x ∈ enqueue e q ↔ x = e ∨ x ∈ q := by
  induction q with
  | nil => simp [enqueue]
  | cons y q ih =>
    simp only [enqueue]
    split
    · simp
    · simp only [List.mem_cons, ih]; tauto

/-- Insertion loses no entry. -/
theorem perm_enqueue (e : Entry) (q : List Entry) : (enqueue e q).Perm (e :: q) := by
  induction q with
  | nil => exact List.Perm.refl _
  | cons x q ih =>
    simp only [enqueue]
    split
    · exact List.Perm.refl _
    · exact (ih.cons x).trans (List.Perm.swap e x q)

/-- The order the structure is kept in is the rule's (42_encoder R133). -/
theorem before_iff (a b : Entry) : a.before b = true ↔ KeyLt a b := by
  simp [Entry.before]

theorem KeyLt.trans {a b c : Entry} (h1 : KeyLt a b) (h2 : KeyLt b c) : KeyLt a c := by
  unfold KeyLt at *; omega

theorem KeyLt.of_not_before {a b : Entry} (hs : a.seq ≠ b.seq) (h : ¬ a.before b = true) : KeyLt b a := by
  rw [before_iff] at h
  unfold KeyLt at *; omega

/-- Insertion keeps the key order, where no other entry has the seq (42_encoder R133, R135). -/
theorem pairwise_enqueue {e : Entry} {q : List Entry} (hq : q.Pairwise KeyLt) (hs : ∀ x ∈ q, e.seq ≠ x.seq) :
    (enqueue e q).Pairwise KeyLt := by
  induction q with
  | nil => exact List.pairwise_singleton _ _
  | cons x q ih =>
    obtain ⟨hx, hq'⟩ := List.pairwise_cons.1 hq
    simp only [enqueue]
    split
    · rename_i hb
      have hex := (before_iff _ _).1 hb
      refine List.pairwise_cons.2 ⟨fun y hy => ?_, hq⟩
      rcases List.mem_cons.1 hy with rfl | hy
      · exact hex
      · exact hex.trans (hx y hy)
    · rename_i hb
      refine List.pairwise_cons.2 ⟨fun y hy => ?_, ih hq' fun y hy => hs y (by simp [hy])⟩
      rcases (mem_enqueue e y q).1 hy with rfl | hy
      · exact KeyLt.of_not_before (hs x (by simp)) hb
      · exact hx y hy

theorem enqueue_ne_nil (e : Entry) (q : List Entry) : enqueue e q ≠ [] := by
  intro h
  simpa [h] using length_enqueue e q

/-- Whatever one merge keeps (with the next seq it uses), the merge loop keeps; from a nonempty structure the loop ends
with one entry, and the seq has moved by one per merge (42_encoder R132, R136). -/
theorem mergeLoop_keeps (P : Nat → List Entry → Prop)
    (hstep : ∀ n a b q, P n (a :: b :: q) → P (n + 1) (enqueue (mergeEntries a b n) q))
    (k n : Nat) (q : List Entry) (hq : q ≠ []) (hk : q.length ≤ k + 1) (h : P n q) :
    ∃ e, mergeLoop k n q = ([e], n + (q.length - 1)) ∧ P (n + (q.length - 1)) [e] := by
  induction k generalizing n q with
  | zero =>
    obtain ⟨e, rfl⟩ : ∃ e, q = [e] := List.length_eq_one_iff.1 (by
      have := List.length_pos_of_ne_nil hq
      omega)
    exact ⟨e, rfl, h⟩
  | succ k ih =>
    match q, hq with
    | [e], _ => exact ⟨e, rfl, h⟩
    | a :: b :: q, _ =>
      have := ih (n + 1) (enqueue (mergeEntries a b n) q) (enqueue_ne_nil _ _) (by simp at hk ⊢; omega) (hstep n a b q h)
      simp only [length_enqueue, List.length_cons, Nat.add_sub_cancel] at this ⊢
      rw [show n + (q.length + 1) = n + 1 + q.length by omega]
      exact this

@[simp] theorem length_queueOf (es : List Entry) : (queueOf es).length = es.length := by
  have key : ∀ (es q : List Entry), (es.foldl (fun q e => enqueue e q) q).length = q.length + es.length := by
    intro es
    induction es with
    | nil => simp
    | cons e es ih => intro q; simp [ih]; omega
  exact (key es []).trans (Nat.zero_add _)

theorem two_le_length_buildLeaves (f : Vector Word 257) : 2 ≤ (buildLeaves f).length := by
  unfold buildLeaves
  split <;> simp

end Sys2Proof.Machine
end

