-- ==== Sys2Proof/Laws/Memory.lean ====
section
/-! SUPPORT. The buffers: read after write, the canonical form, and what a buffer holds. -/

namespace Sys2Proof.Machine

/-! ### Read after write -/

@[simp] theorem Memory.read_nil (a : Nat) : Memory.read [] a = none := rfl

theorem Memory.read_write_same (m : Memory) (a : Nat) (b : Byte) :
    Memory.read (Memory.write m a b) a = some b := by
  induction m with
  | nil => simp [Memory.write, Memory.read]
  | cons c m ih =>
    obtain ⟨a', b'⟩ := c
    simp only [Memory.write]
    split
    · simp [Memory.read]
    · split
      · simp [Memory.read]
      · simp [Memory.read, *]

theorem Memory.read_write_other (m : Memory) {a x : Nat} (b : Byte) (h : x ≠ a) :
    Memory.read (Memory.write m a b) x = Memory.read m x := by
  induction m with
  | nil => simp [Memory.write, Memory.read, h]
  | cons c m ih =>
    obtain ⟨a', b'⟩ := c
    simp only [Memory.write]
    split
    · simp [Memory.read, h]
    · split
      · simp_all [Memory.read]
      · simp [Memory.read, ih]

theorem Memory.read_write (m : Memory) (a x : Nat) (b : Byte) :
    Memory.read (Memory.write m a b) x = if x = a then some b else Memory.read m x := by
  split
  · subst x; exact Memory.read_write_same m a b
  · exact Memory.read_write_other m b ‹_›

/-! ### Canonical form -/

theorem Memory.mem_write (m : Memory) (a : Nat) (b : Byte) {c : Host.Cell} (h : c ∈ Memory.write m a b) :
    c = (a, b) ∨ c ∈ m := by
  induction m with
  | nil => simpa [Memory.write] using h
  | cons d m ih =>
    obtain ⟨a', b'⟩ := d
    simp only [Memory.write] at h
    split at h
    · simpa using h
    · split at h
      · simp only [List.mem_cons] at h ⊢; tauto
      · simp only [List.mem_cons] at h ⊢; tauto

/-- Every write keeps the canonical form. -/
theorem Memory.write_wf (m : Memory) (a : Nat) (b : Byte) (h : Memory.wf m) : Memory.wf (Memory.write m a b) := by
  induction m with
  | nil => simp [Memory.write, Memory.wf]
  | cons c m ih =>
    obtain ⟨a', b'⟩ := c
    simp only [Memory.wf, List.pairwise_cons] at h ⊢
    simp only [Memory.write]
    split
    · rename_i hlt
      refine List.pairwise_cons.2 ⟨?_, List.pairwise_cons.2 h⟩
      intro c hc
      rcases List.mem_cons.1 hc with rfl | hc
      · exact hlt
      · exact Nat.lt_trans hlt (h.1 c hc)
    · split
      · rename_i heq
        subst heq
        exact List.pairwise_cons.2 h
      · rename_i h1 h2
        refine List.pairwise_cons.2 ⟨?_, ih h.2⟩
        intro c hc
        rcases Memory.mem_write m a b hc with rfl | hc
        · simp only; omega
        · exact h.1 c hc

theorem State.reset_memories_wf : Memory.wf State.reset.inMem ∧ Memory.wf State.reset.outMem :=
  ⟨List.Pairwise.nil, List.Pairwise.nil⟩

/-- Two buffers in canonical form with the same contents are the same list. -/
theorem Memory.ext_of_wf {m n : Memory} (hm : Memory.wf m) (hn : Memory.wf n)
    (h : ∀ a, Memory.read m a = Memory.read n a) : m = n := by
  have read_none : ∀ (l : Memory) (a : Nat), (∀ c ∈ l, a < c.1) → Memory.read l a = none := by
    intro l
    induction l with
    | nil => simp
    | cons c l ih =>
      intro a hl
      obtain ⟨x, y⟩ := c
      have hx := hl (x, y) (by simp)
      simp only [Memory.read, Nat.ne_of_lt hx, if_false]
      exact ih a fun c hc => hl c (by simp [hc])
  induction m generalizing n with
  | nil =>
    cases n with
    | nil => rfl
    | cons c n => have := h c.1; simp [Memory.read] at this
  | cons c m ih =>
    obtain ⟨a, b⟩ := c
    cases n with
    | nil => have := h a; simp [Memory.read] at this
    | cons d n =>
      obtain ⟨a', b'⟩ := d
      have hm' := List.pairwise_cons.1 hm
      have hn' := List.pairwise_cons.1 hn
      rcases Nat.lt_trichotomy a a' with hlt | rfl | hlt
      · have := h a
        rw [read_none ((a', b') :: n) a] at this
        · simp [Memory.read] at this
        · intro c hc
          rcases List.mem_cons.1 hc with rfl | hc
          · exact hlt
          · exact Nat.lt_trans hlt (hn'.1 c hc)
      · have hb : b = b' := by simpa [Memory.read] using h a
        subst hb
        congr 1
        refine ih hm'.2 hn'.2 fun x => ?_
        by_cases hx : x = a
        · subst hx
          rw [read_none m x hm'.1, read_none n x hn'.1]
        · simpa [Memory.read, hx] using h x
      · have := h a'
        rw [read_none ((a, b) :: m) a'] at this
        · simp [Memory.read] at this
        · intro c hc
          rcases List.mem_cons.1 hc with rfl | hc
          · exact hlt
          · exact Nat.lt_trans hlt (hm'.1 c hc)

/-! ### Bits -/

theorem getLsbD_putBit (x : Byte) (i j : Nat) (b : Bool) (hi : i < 8) :
    (putBit x i b).getLsbD j = if j = i then b else x.getLsbD j := by
  unfold putBit
  by_cases hj : j < 8
  · cases b <;> by_cases h : j = i <;> simp [h, hj, hi]
  · have : j ≠ i := by omega
    have hx : x.getLsbD j = false := BitVec.getLsbD_of_ge _ _ (by omega)
    cases b <;> simp [hj, this, hx, BitVec.getLsbD_twoPow]
    omega

/-- Bit `i` of a buffer after one byte of it has been written. -/
theorem Memory.bit_write (m : Memory) (a i : Nat) (x : Byte) :
    Memory.bit (Memory.write m a x) i = if i / 8 = a then some (x.getLsbD (7 - i % 8)) else Memory.bit m i := by
  unfold Memory.bit
  rw [Memory.read_write]
  split <;> rfl

/-- A buffer's bits from `p` on are `bs` exactly when it holds `bs` there. -/
theorem Memory.bits_eq_some_iff (m : Memory) (p n : Nat) (bs : List Bool) :
    Memory.bits m p n = some bs ↔ bs.length = n ∧ Holds m p bs := by
  induction n generalizing p bs with
  | zero =>
    constructor
    · rintro h
      obtain rfl : [] = bs := by simpa [Memory.bits] using h
      exact ⟨rfl, fun k h => absurd h (by simp)⟩
    · rintro ⟨h, -⟩
      rw [List.length_eq_zero_iff.1 h]
      rfl
  | succ n ih =>
    simp only [Memory.bits]
    constructor
    · intro h
      cases hb : Memory.bit m p with
      | none => simp [hb] at h
      | some b =>
        cases hs : Memory.bits m (p + 1) n with
        | none => simp [hb, hs] at h
        | some cs =>
          obtain rfl : b :: cs = bs := by simpa [hb, hs] using h
          obtain ⟨hl, hh⟩ := (ih _ _).1 hs
          refine ⟨by simp [hl], ?_⟩
          intro k hk
          cases k with
          | zero => simpa using hb
          | succ k =>
            have := hh k (by simpa using hk)
            simpa [Nat.add_assoc, Nat.add_comm 1 k] using this
    · rintro ⟨hl, hh⟩
      cases bs with
      | nil => simp at hl
      | cons b cs =>
        have h0 := hh 0 (by simp)
        have hs : Memory.bits m (p + 1) n = some cs := by
          refine (ih _ _).2 ⟨by simpa using hl, ?_⟩
          intro k hk
          have := hh (k + 1) (by simpa using hk)
          simpa [Nat.add_assoc, Nat.add_comm 1 k] using this
        simp at h0
        simp [h0, hs]

/-- Where every byte touched is written, the buffer holds some bits. -/
theorem Memory.bits_isSome (m : Memory) (p n : Nat)
    (h : ∀ i, p ≤ i → i < p + n → (Memory.read m (i / 8)).isSome = true) : (Memory.bits m p n).isSome = true := by
  induction n generalizing p with
  | zero => rfl
  | succ n ih =>
    have h0 := h p (by omega) (by omega)
    have h1 := ih (p + 1) fun i hi hi' => h i (by omega) (by omega)
    obtain ⟨x, hx⟩ := Option.isSome_iff_exists.1 h0
    obtain ⟨bs, hbs⟩ := Option.isSome_iff_exists.1 h1
    simp [Memory.bits, Memory.bit, hx, hbs]

theorem Holds.nil (m : Memory) (p : Nat) : Holds m p [] := fun k h => absurd h (by simp)

theorem holds_append_iff (m : Memory) (p : Nat) (xs ys : List Bool) :
    Holds m p (xs ++ ys) ↔ Holds m p xs ∧ Holds m (p + xs.length) ys := by
  constructor
  · intro h
    constructor
    · intro k hk
      have := h k (by simp; omega)
      rwa [List.getElem_append_left hk] at this
    · intro k hk
      have := h (xs.length + k) (by simp; omega)
      rw [List.getElem_append_right (by omega)] at this
      simpa [Nat.add_assoc] using this
  · rintro ⟨hx, hy⟩ k hk
    by_cases h : k < xs.length
    · rw [List.getElem_append_left h]; exact hx k h
    · rw [List.getElem_append_right (by omega)]
      have := hy (k - xs.length) (by simp at hk; omega)
      rwa [show p + xs.length + (k - xs.length) = p + k by omega] at this

theorem holds_cons_iff (m : Memory) (p : Nat) (b : Bool) (bs : List Bool) :
    Holds m p (b :: bs) ↔ Memory.bit m p = some b ∧ Holds m (p + 1) bs := by
  have := holds_append_iff m p [b] bs
  simp only [List.singleton_append, List.length_singleton] at this
  rw [this]
  refine and_congr_left fun _ => ⟨fun h => by simpa using h 0 (by simp), fun h k hk => ?_⟩
  obtain rfl : k = 0 := by simpa using hk
  simpa using h

end Sys2Proof.Machine
end

