-- ==== Sys2Proof/Laws/State.lean ====
section
/-! SUPPORT. What each named update of the state leaves in each field: true by rfl, for simp. -/

namespace Sys2Proof.Machine

variable (s : State)


/-! ### complete -/

@[simp] theorem complete_magic : (complete s).magic = s.magic := rfl
@[simp] theorem complete_inCap : (complete s).inCap = s.inCap := rfl
@[simp] theorem complete_outCap : (complete s).outCap = s.outCap := rfl
@[simp] theorem complete_pending : (complete s).pending = s.pending := rfl
@[simp] theorem complete_cmdLast : (complete s).cmdLast = s.cmdLast := rfl
@[simp] theorem complete_arg : (complete s).arg = s.arg := rfl
@[simp] theorem complete_result : (complete s).result = s.result := rfl
@[simp] theorem complete_busy : (complete s).busy = false := rfl
@[simp] theorem complete_done : (complete s).done = true := rfl
@[simp] theorem complete_err : (complete s).err = s.err := rfl
@[simp] theorem complete_eos : (complete s).eos = s.eos := rfl
@[simp] theorem complete_treeValid : (complete s).treeValid = s.treeValid := rfl
@[simp] theorem complete_codesValid : (complete s).codesValid = s.codesValid := rfl
@[simp] theorem complete_outClosed : (complete s).outClosed = s.outClosed := rfl
@[simp] theorem complete_ovr : (complete s).ovr = s.ovr := rfl
@[simp] theorem complete_errCode : (complete s).errCode = s.errCode := rfl
@[simp] theorem complete_inMem : (complete s).inMem = s.inMem := rfl
@[simp] theorem complete_inLen : (complete s).inLen = s.inLen := rfl
@[simp] theorem complete_inPos : (complete s).inPos = s.inPos := rfl
@[simp] theorem complete_outMem : (complete s).outMem = s.outMem := rfl
@[simp] theorem complete_outBits : (complete s).outBits = s.outBits := rfl
@[simp] theorem complete_freq : (complete s).freq = s.freq := rfl
@[simp] theorem complete_tree : (complete s).tree = s.tree := rfl
@[simp] theorem complete_nodes : (complete s).nodes = s.nodes := rfl
@[simp] theorem complete_codes : (complete s).codes = s.codes := rfl
@[simp] theorem complete_program : (complete s).program = s.program := rfl
@[simp] theorem complete_line : (complete s).line = s.line := rfl
@[simp] theorem complete_todo : (complete s).todo = s.todo := rfl
@[simp] theorem complete_reply : (complete s).reply = s.reply := rfl
@[simp] theorem complete_draws : (complete s).draws = s.draws := rfl

/-! ### raise -/

@[simp] theorem raise_magic (e : ErrCode) : (raise e s).magic = s.magic := rfl
@[simp] theorem raise_inCap (e : ErrCode) : (raise e s).inCap = s.inCap := rfl
@[simp] theorem raise_outCap (e : ErrCode) : (raise e s).outCap = s.outCap := rfl
@[simp] theorem raise_pending (e : ErrCode) : (raise e s).pending = s.pending := rfl
@[simp] theorem raise_cmdLast (e : ErrCode) : (raise e s).cmdLast = s.cmdLast := rfl
@[simp] theorem raise_arg (e : ErrCode) : (raise e s).arg = s.arg := rfl
@[simp] theorem raise_result (e : ErrCode) : (raise e s).result = s.result := rfl
@[simp] theorem raise_busy (e : ErrCode) : (raise e s).busy = false := rfl
@[simp] theorem raise_done (e : ErrCode) : (raise e s).done = true := rfl
@[simp] theorem raise_err (e : ErrCode) : (raise e s).err = true := rfl
@[simp] theorem raise_eos (e : ErrCode) : (raise e s).eos = s.eos := rfl
@[simp] theorem raise_treeValid (e : ErrCode) : (raise e s).treeValid = s.treeValid := rfl
@[simp] theorem raise_codesValid (e : ErrCode) : (raise e s).codesValid = s.codesValid := rfl
@[simp] theorem raise_outClosed (e : ErrCode) : (raise e s).outClosed = s.outClosed := rfl
@[simp] theorem raise_ovr (e : ErrCode) : (raise e s).ovr = s.ovr := rfl
@[simp] theorem raise_errCode (e : ErrCode) : (raise e s).errCode = e := rfl
@[simp] theorem raise_inMem (e : ErrCode) : (raise e s).inMem = s.inMem := rfl
@[simp] theorem raise_inLen (e : ErrCode) : (raise e s).inLen = s.inLen := rfl
@[simp] theorem raise_inPos (e : ErrCode) : (raise e s).inPos = s.inPos := rfl
@[simp] theorem raise_outMem (e : ErrCode) : (raise e s).outMem = s.outMem := rfl
@[simp] theorem raise_outBits (e : ErrCode) : (raise e s).outBits = s.outBits := rfl
@[simp] theorem raise_freq (e : ErrCode) : (raise e s).freq = s.freq := rfl
@[simp] theorem raise_tree (e : ErrCode) : (raise e s).tree = s.tree := rfl
@[simp] theorem raise_nodes (e : ErrCode) : (raise e s).nodes = s.nodes := rfl
@[simp] theorem raise_codes (e : ErrCode) : (raise e s).codes = s.codes := rfl
@[simp] theorem raise_program (e : ErrCode) : (raise e s).program = s.program := rfl
@[simp] theorem raise_line (e : ErrCode) : (raise e s).line = s.line := rfl
@[simp] theorem raise_todo (e : ErrCode) : (raise e s).todo = s.todo := rfl
@[simp] theorem raise_reply (e : ErrCode) : (raise e s).reply = s.reply := rfl
@[simp] theorem raise_draws (e : ErrCode) : (raise e s).draws = s.draws := rfl

/-! ### issue -/

@[simp] theorem issue_magic (w : Word) : (issue w s).magic = s.magic := rfl
@[simp] theorem issue_inCap (w : Word) : (issue w s).inCap = s.inCap := rfl
@[simp] theorem issue_outCap (w : Word) : (issue w s).outCap = s.outCap := rfl
@[simp] theorem issue_pending (w : Word) : (issue w s).pending = some w := rfl
@[simp] theorem issue_cmdLast (w : Word) : (issue w s).cmdLast = w := rfl
@[simp] theorem issue_arg (w : Word) : (issue w s).arg = s.arg := rfl
@[simp] theorem issue_result (w : Word) : (issue w s).result = s.result := rfl
@[simp] theorem issue_busy (w : Word) : (issue w s).busy = true := rfl
@[simp] theorem issue_done (w : Word) : (issue w s).done = false := rfl
@[simp] theorem issue_err (w : Word) : (issue w s).err = false := rfl
@[simp] theorem issue_eos (w : Word) : (issue w s).eos = s.eos := rfl
@[simp] theorem issue_treeValid (w : Word) : (issue w s).treeValid = s.treeValid := rfl
@[simp] theorem issue_codesValid (w : Word) : (issue w s).codesValid = s.codesValid := rfl
@[simp] theorem issue_outClosed (w : Word) : (issue w s).outClosed = s.outClosed := rfl
@[simp] theorem issue_ovr (w : Word) : (issue w s).ovr = s.ovr := rfl
@[simp] theorem issue_errCode (w : Word) : (issue w s).errCode = .none := rfl
@[simp] theorem issue_inMem (w : Word) : (issue w s).inMem = s.inMem := rfl
@[simp] theorem issue_inLen (w : Word) : (issue w s).inLen = s.inLen := rfl
@[simp] theorem issue_inPos (w : Word) : (issue w s).inPos = s.inPos := rfl
@[simp] theorem issue_outMem (w : Word) : (issue w s).outMem = s.outMem := rfl
@[simp] theorem issue_outBits (w : Word) : (issue w s).outBits = s.outBits := rfl
@[simp] theorem issue_freq (w : Word) : (issue w s).freq = s.freq := rfl
@[simp] theorem issue_tree (w : Word) : (issue w s).tree = s.tree := rfl
@[simp] theorem issue_nodes (w : Word) : (issue w s).nodes = s.nodes := rfl
@[simp] theorem issue_codes (w : Word) : (issue w s).codes = s.codes := rfl
@[simp] theorem issue_program (w : Word) : (issue w s).program = s.program := rfl
@[simp] theorem issue_line (w : Word) : (issue w s).line = s.line := rfl
@[simp] theorem issue_todo (w : Word) : (issue w s).todo = s.todo := rfl
@[simp] theorem issue_reply (w : Word) : (issue w s).reply = s.reply := rfl
@[simp] theorem issue_draws (w : Word) : (issue w s).draws = s.draws := rfl

/-! ### seek -/

@[simp] theorem seek_magic (p : Nat) : (seek p s).magic = s.magic := rfl
@[simp] theorem seek_inCap (p : Nat) : (seek p s).inCap = s.inCap := rfl
@[simp] theorem seek_outCap (p : Nat) : (seek p s).outCap = s.outCap := rfl
@[simp] theorem seek_pending (p : Nat) : (seek p s).pending = s.pending := rfl
@[simp] theorem seek_cmdLast (p : Nat) : (seek p s).cmdLast = s.cmdLast := rfl
@[simp] theorem seek_arg (p : Nat) : (seek p s).arg = s.arg := rfl
@[simp] theorem seek_result (p : Nat) : (seek p s).result = s.result := rfl
@[simp] theorem seek_busy (p : Nat) : (seek p s).busy = s.busy := rfl
@[simp] theorem seek_done (p : Nat) : (seek p s).done = s.done := rfl
@[simp] theorem seek_err (p : Nat) : (seek p s).err = s.err := rfl
@[simp] theorem seek_eos (p : Nat) : (seek p s).eos = s.eos := rfl
@[simp] theorem seek_treeValid (p : Nat) : (seek p s).treeValid = s.treeValid := rfl
@[simp] theorem seek_codesValid (p : Nat) : (seek p s).codesValid = s.codesValid := rfl
@[simp] theorem seek_outClosed (p : Nat) : (seek p s).outClosed = s.outClosed := rfl
@[simp] theorem seek_ovr (p : Nat) : (seek p s).ovr = s.ovr := rfl
@[simp] theorem seek_errCode (p : Nat) : (seek p s).errCode = s.errCode := rfl
@[simp] theorem seek_inMem (p : Nat) : (seek p s).inMem = s.inMem := rfl
@[simp] theorem seek_inLen (p : Nat) : (seek p s).inLen = s.inLen := rfl
@[simp] theorem seek_inPos (p : Nat) : (seek p s).inPos = p := rfl
@[simp] theorem seek_outMem (p : Nat) : (seek p s).outMem = s.outMem := rfl
@[simp] theorem seek_outBits (p : Nat) : (seek p s).outBits = s.outBits := rfl
@[simp] theorem seek_freq (p : Nat) : (seek p s).freq = s.freq := rfl
@[simp] theorem seek_tree (p : Nat) : (seek p s).tree = s.tree := rfl
@[simp] theorem seek_nodes (p : Nat) : (seek p s).nodes = s.nodes := rfl
@[simp] theorem seek_codes (p : Nat) : (seek p s).codes = s.codes := rfl
@[simp] theorem seek_program (p : Nat) : (seek p s).program = s.program := rfl
@[simp] theorem seek_line (p : Nat) : (seek p s).line = s.line := rfl
@[simp] theorem seek_todo (p : Nat) : (seek p s).todo = s.todo := rfl
@[simp] theorem seek_reply (p : Nat) : (seek p s).reply = s.reply := rfl
@[simp] theorem seek_draws (p : Nat) : (seek p s).draws = s.draws := rfl

/-! ### rewind -/

@[simp] theorem rewind_magic : (rewind s).magic = s.magic := rfl
@[simp] theorem rewind_inCap : (rewind s).inCap = s.inCap := rfl
@[simp] theorem rewind_outCap : (rewind s).outCap = s.outCap := rfl
@[simp] theorem rewind_pending : (rewind s).pending = s.pending := rfl
@[simp] theorem rewind_cmdLast : (rewind s).cmdLast = s.cmdLast := rfl
@[simp] theorem rewind_arg : (rewind s).arg = s.arg := rfl
@[simp] theorem rewind_result : (rewind s).result = s.result := rfl
@[simp] theorem rewind_busy : (rewind s).busy = s.busy := rfl
@[simp] theorem rewind_done : (rewind s).done = s.done := rfl
@[simp] theorem rewind_err : (rewind s).err = s.err := rfl
@[simp] theorem rewind_eos : (rewind s).eos = s.eos := rfl
@[simp] theorem rewind_treeValid : (rewind s).treeValid = s.treeValid := rfl
@[simp] theorem rewind_codesValid : (rewind s).codesValid = s.codesValid := rfl
@[simp] theorem rewind_outClosed : (rewind s).outClosed = s.outClosed := rfl
@[simp] theorem rewind_ovr : (rewind s).ovr = s.ovr := rfl
@[simp] theorem rewind_errCode : (rewind s).errCode = s.errCode := rfl
@[simp] theorem rewind_inMem : (rewind s).inMem = s.inMem := rfl
@[simp] theorem rewind_inLen : (rewind s).inLen = s.inLen := rfl
@[simp] theorem rewind_inPos : (rewind s).inPos = 0 := rfl
@[simp] theorem rewind_outMem : (rewind s).outMem = s.outMem := rfl
@[simp] theorem rewind_outBits : (rewind s).outBits = s.outBits := rfl
@[simp] theorem rewind_freq : (rewind s).freq = s.freq := rfl
@[simp] theorem rewind_tree : (rewind s).tree = s.tree := rfl
@[simp] theorem rewind_nodes : (rewind s).nodes = s.nodes := rfl
@[simp] theorem rewind_codes : (rewind s).codes = s.codes := rfl
@[simp] theorem rewind_program : (rewind s).program = s.program := rfl
@[simp] theorem rewind_line : (rewind s).line = s.line := rfl
@[simp] theorem rewind_todo : (rewind s).todo = s.todo := rfl
@[simp] theorem rewind_reply : (rewind s).reply = s.reply := rfl
@[simp] theorem rewind_draws : (rewind s).draws = s.draws := rfl

/-! ### setOutput -/

@[simp] theorem setOutput_magic (m : Memory) (n : Nat) : (setOutput m n s).magic = s.magic := rfl
@[simp] theorem setOutput_inCap (m : Memory) (n : Nat) : (setOutput m n s).inCap = s.inCap := rfl
@[simp] theorem setOutput_outCap (m : Memory) (n : Nat) : (setOutput m n s).outCap = s.outCap := rfl
@[simp] theorem setOutput_pending (m : Memory) (n : Nat) : (setOutput m n s).pending = s.pending := rfl
@[simp] theorem setOutput_cmdLast (m : Memory) (n : Nat) : (setOutput m n s).cmdLast = s.cmdLast := rfl
@[simp] theorem setOutput_arg (m : Memory) (n : Nat) : (setOutput m n s).arg = s.arg := rfl
@[simp] theorem setOutput_result (m : Memory) (n : Nat) : (setOutput m n s).result = s.result := rfl
@[simp] theorem setOutput_busy (m : Memory) (n : Nat) : (setOutput m n s).busy = s.busy := rfl
@[simp] theorem setOutput_done (m : Memory) (n : Nat) : (setOutput m n s).done = s.done := rfl
@[simp] theorem setOutput_err (m : Memory) (n : Nat) : (setOutput m n s).err = s.err := rfl
@[simp] theorem setOutput_eos (m : Memory) (n : Nat) : (setOutput m n s).eos = s.eos := rfl
@[simp] theorem setOutput_treeValid (m : Memory) (n : Nat) : (setOutput m n s).treeValid = s.treeValid := rfl
@[simp] theorem setOutput_codesValid (m : Memory) (n : Nat) : (setOutput m n s).codesValid = s.codesValid := rfl
@[simp] theorem setOutput_outClosed (m : Memory) (n : Nat) : (setOutput m n s).outClosed = s.outClosed := rfl
@[simp] theorem setOutput_ovr (m : Memory) (n : Nat) : (setOutput m n s).ovr = s.ovr := rfl
@[simp] theorem setOutput_errCode (m : Memory) (n : Nat) : (setOutput m n s).errCode = s.errCode := rfl
@[simp] theorem setOutput_inMem (m : Memory) (n : Nat) : (setOutput m n s).inMem = s.inMem := rfl
@[simp] theorem setOutput_inLen (m : Memory) (n : Nat) : (setOutput m n s).inLen = s.inLen := rfl
@[simp] theorem setOutput_inPos (m : Memory) (n : Nat) : (setOutput m n s).inPos = s.inPos := rfl
@[simp] theorem setOutput_outMem (m : Memory) (n : Nat) : (setOutput m n s).outMem = m := rfl
@[simp] theorem setOutput_outBits (m : Memory) (n : Nat) : (setOutput m n s).outBits = n := rfl
@[simp] theorem setOutput_freq (m : Memory) (n : Nat) : (setOutput m n s).freq = s.freq := rfl
@[simp] theorem setOutput_tree (m : Memory) (n : Nat) : (setOutput m n s).tree = s.tree := rfl
@[simp] theorem setOutput_nodes (m : Memory) (n : Nat) : (setOutput m n s).nodes = s.nodes := rfl
@[simp] theorem setOutput_codes (m : Memory) (n : Nat) : (setOutput m n s).codes = s.codes := rfl
@[simp] theorem setOutput_program (m : Memory) (n : Nat) : (setOutput m n s).program = s.program := rfl
@[simp] theorem setOutput_line (m : Memory) (n : Nat) : (setOutput m n s).line = s.line := rfl
@[simp] theorem setOutput_todo (m : Memory) (n : Nat) : (setOutput m n s).todo = s.todo := rfl
@[simp] theorem setOutput_reply (m : Memory) (n : Nat) : (setOutput m n s).reply = s.reply := rfl
@[simp] theorem setOutput_draws (m : Memory) (n : Nat) : (setOutput m n s).draws = s.draws := rfl

/-! ### appendBit -/

@[simp] theorem appendBit_magic (b : Bool) : (appendBit b s).magic = s.magic := rfl
@[simp] theorem appendBit_inCap (b : Bool) : (appendBit b s).inCap = s.inCap := rfl
@[simp] theorem appendBit_outCap (b : Bool) : (appendBit b s).outCap = s.outCap := rfl
@[simp] theorem appendBit_pending (b : Bool) : (appendBit b s).pending = s.pending := rfl
@[simp] theorem appendBit_cmdLast (b : Bool) : (appendBit b s).cmdLast = s.cmdLast := rfl
@[simp] theorem appendBit_arg (b : Bool) : (appendBit b s).arg = s.arg := rfl
@[simp] theorem appendBit_result (b : Bool) : (appendBit b s).result = s.result := rfl
@[simp] theorem appendBit_busy (b : Bool) : (appendBit b s).busy = s.busy := rfl
@[simp] theorem appendBit_done (b : Bool) : (appendBit b s).done = s.done := rfl
@[simp] theorem appendBit_err (b : Bool) : (appendBit b s).err = s.err := rfl
@[simp] theorem appendBit_eos (b : Bool) : (appendBit b s).eos = s.eos := rfl
@[simp] theorem appendBit_treeValid (b : Bool) : (appendBit b s).treeValid = s.treeValid := rfl
@[simp] theorem appendBit_codesValid (b : Bool) : (appendBit b s).codesValid = s.codesValid := rfl
@[simp] theorem appendBit_outClosed (b : Bool) : (appendBit b s).outClosed = s.outClosed := rfl
@[simp] theorem appendBit_ovr (b : Bool) : (appendBit b s).ovr = s.ovr := rfl
@[simp] theorem appendBit_errCode (b : Bool) : (appendBit b s).errCode = s.errCode := rfl
@[simp] theorem appendBit_inMem (b : Bool) : (appendBit b s).inMem = s.inMem := rfl
@[simp] theorem appendBit_inLen (b : Bool) : (appendBit b s).inLen = s.inLen := rfl
@[simp] theorem appendBit_inPos (b : Bool) : (appendBit b s).inPos = s.inPos := rfl
@[simp] theorem appendBit_outMem (b : Bool) : (appendBit b s).outMem = Memory.write s.outMem (s.outBits / 8) (putBit (outByteNow s) (7 - s.outBits % 8) b) := rfl
@[simp] theorem appendBit_outBits (b : Bool) : (appendBit b s).outBits = s.outBits + 1 := rfl
@[simp] theorem appendBit_freq (b : Bool) : (appendBit b s).freq = s.freq := rfl
@[simp] theorem appendBit_tree (b : Bool) : (appendBit b s).tree = s.tree := rfl
@[simp] theorem appendBit_nodes (b : Bool) : (appendBit b s).nodes = s.nodes := rfl
@[simp] theorem appendBit_codes (b : Bool) : (appendBit b s).codes = s.codes := rfl
@[simp] theorem appendBit_program (b : Bool) : (appendBit b s).program = s.program := rfl
@[simp] theorem appendBit_line (b : Bool) : (appendBit b s).line = s.line := rfl
@[simp] theorem appendBit_todo (b : Bool) : (appendBit b s).todo = s.todo := rfl
@[simp] theorem appendBit_reply (b : Bool) : (appendBit b s).reply = s.reply := rfl
@[simp] theorem appendBit_draws (b : Bool) : (appendBit b s).draws = s.draws := rfl

/-! ### outClear -/

@[simp] theorem outClear_magic : (outClear s).magic = s.magic := rfl
@[simp] theorem outClear_inCap : (outClear s).inCap = s.inCap := rfl
@[simp] theorem outClear_outCap : (outClear s).outCap = s.outCap := rfl
@[simp] theorem outClear_pending : (outClear s).pending = s.pending := rfl
@[simp] theorem outClear_cmdLast : (outClear s).cmdLast = s.cmdLast := rfl
@[simp] theorem outClear_arg : (outClear s).arg = s.arg := rfl
@[simp] theorem outClear_result : (outClear s).result = s.result := rfl
@[simp] theorem outClear_busy : (outClear s).busy = s.busy := rfl
@[simp] theorem outClear_done : (outClear s).done = s.done := rfl
@[simp] theorem outClear_err : (outClear s).err = s.err := rfl
@[simp] theorem outClear_eos : (outClear s).eos = s.eos := rfl
@[simp] theorem outClear_treeValid : (outClear s).treeValid = s.treeValid := rfl
@[simp] theorem outClear_codesValid : (outClear s).codesValid = s.codesValid := rfl
@[simp] theorem outClear_outClosed : (outClear s).outClosed = false := rfl
@[simp] theorem outClear_ovr : (outClear s).ovr = s.ovr := rfl
@[simp] theorem outClear_errCode : (outClear s).errCode = s.errCode := rfl
@[simp] theorem outClear_inMem : (outClear s).inMem = s.inMem := rfl
@[simp] theorem outClear_inLen : (outClear s).inLen = s.inLen := rfl
@[simp] theorem outClear_inPos : (outClear s).inPos = s.inPos := rfl
@[simp] theorem outClear_outMem : (outClear s).outMem = s.outMem := rfl
@[simp] theorem outClear_outBits : (outClear s).outBits = 0 := rfl
@[simp] theorem outClear_freq : (outClear s).freq = s.freq := rfl
@[simp] theorem outClear_tree : (outClear s).tree = s.tree := rfl
@[simp] theorem outClear_nodes : (outClear s).nodes = s.nodes := rfl
@[simp] theorem outClear_codes : (outClear s).codes = s.codes := rfl
@[simp] theorem outClear_program : (outClear s).program = s.program := rfl
@[simp] theorem outClear_line : (outClear s).line = s.line := rfl
@[simp] theorem outClear_todo : (outClear s).todo = s.todo := rfl
@[simp] theorem outClear_reply : (outClear s).reply = s.reply := rfl
@[simp] theorem outClear_draws : (outClear s).draws = s.draws := rfl

/-! ### setFreq -/

@[simp] theorem setFreq_magic (f : Vector Word 257) : (setFreq f s).magic = s.magic := rfl
@[simp] theorem setFreq_inCap (f : Vector Word 257) : (setFreq f s).inCap = s.inCap := rfl
@[simp] theorem setFreq_outCap (f : Vector Word 257) : (setFreq f s).outCap = s.outCap := rfl
@[simp] theorem setFreq_pending (f : Vector Word 257) : (setFreq f s).pending = s.pending := rfl
@[simp] theorem setFreq_cmdLast (f : Vector Word 257) : (setFreq f s).cmdLast = s.cmdLast := rfl
@[simp] theorem setFreq_arg (f : Vector Word 257) : (setFreq f s).arg = s.arg := rfl
@[simp] theorem setFreq_result (f : Vector Word 257) : (setFreq f s).result = s.result := rfl
@[simp] theorem setFreq_busy (f : Vector Word 257) : (setFreq f s).busy = s.busy := rfl
@[simp] theorem setFreq_done (f : Vector Word 257) : (setFreq f s).done = s.done := rfl
@[simp] theorem setFreq_err (f : Vector Word 257) : (setFreq f s).err = s.err := rfl
@[simp] theorem setFreq_eos (f : Vector Word 257) : (setFreq f s).eos = s.eos := rfl
@[simp] theorem setFreq_treeValid (f : Vector Word 257) : (setFreq f s).treeValid = s.treeValid := rfl
@[simp] theorem setFreq_codesValid (f : Vector Word 257) : (setFreq f s).codesValid = s.codesValid := rfl
@[simp] theorem setFreq_outClosed (f : Vector Word 257) : (setFreq f s).outClosed = s.outClosed := rfl
@[simp] theorem setFreq_ovr (f : Vector Word 257) : (setFreq f s).ovr = s.ovr := rfl
@[simp] theorem setFreq_errCode (f : Vector Word 257) : (setFreq f s).errCode = s.errCode := rfl
@[simp] theorem setFreq_inMem (f : Vector Word 257) : (setFreq f s).inMem = s.inMem := rfl
@[simp] theorem setFreq_inLen (f : Vector Word 257) : (setFreq f s).inLen = s.inLen := rfl
@[simp] theorem setFreq_inPos (f : Vector Word 257) : (setFreq f s).inPos = s.inPos := rfl
@[simp] theorem setFreq_outMem (f : Vector Word 257) : (setFreq f s).outMem = s.outMem := rfl
@[simp] theorem setFreq_outBits (f : Vector Word 257) : (setFreq f s).outBits = s.outBits := rfl
@[simp] theorem setFreq_freq (f : Vector Word 257) : (setFreq f s).freq = f := rfl
@[simp] theorem setFreq_tree (f : Vector Word 257) : (setFreq f s).tree = s.tree := rfl
@[simp] theorem setFreq_nodes (f : Vector Word 257) : (setFreq f s).nodes = s.nodes := rfl
@[simp] theorem setFreq_codes (f : Vector Word 257) : (setFreq f s).codes = s.codes := rfl
@[simp] theorem setFreq_program (f : Vector Word 257) : (setFreq f s).program = s.program := rfl
@[simp] theorem setFreq_line (f : Vector Word 257) : (setFreq f s).line = s.line := rfl
@[simp] theorem setFreq_todo (f : Vector Word 257) : (setFreq f s).todo = s.todo := rfl
@[simp] theorem setFreq_reply (f : Vector Word 257) : (setFreq f s).reply = s.reply := rfl
@[simp] theorem setFreq_draws (f : Vector Word 257) : (setFreq f s).draws = s.draws := rfl

/-! ### installTree -/

@[simp] theorem installTree_magic (t : Option Tree) (n : Nat) : (installTree t n s).magic = s.magic := rfl
@[simp] theorem installTree_inCap (t : Option Tree) (n : Nat) : (installTree t n s).inCap = s.inCap := rfl
@[simp] theorem installTree_outCap (t : Option Tree) (n : Nat) : (installTree t n s).outCap = s.outCap := rfl
@[simp] theorem installTree_pending (t : Option Tree) (n : Nat) : (installTree t n s).pending = s.pending := rfl
@[simp] theorem installTree_cmdLast (t : Option Tree) (n : Nat) : (installTree t n s).cmdLast = s.cmdLast := rfl
@[simp] theorem installTree_arg (t : Option Tree) (n : Nat) : (installTree t n s).arg = s.arg := rfl
@[simp] theorem installTree_result (t : Option Tree) (n : Nat) : (installTree t n s).result = s.result := rfl
@[simp] theorem installTree_busy (t : Option Tree) (n : Nat) : (installTree t n s).busy = s.busy := rfl
@[simp] theorem installTree_done (t : Option Tree) (n : Nat) : (installTree t n s).done = s.done := rfl
@[simp] theorem installTree_err (t : Option Tree) (n : Nat) : (installTree t n s).err = s.err := rfl
@[simp] theorem installTree_eos (t : Option Tree) (n : Nat) : (installTree t n s).eos = s.eos := rfl
@[simp] theorem installTree_treeValid (t : Option Tree) (n : Nat) : (installTree t n s).treeValid = true := rfl
@[simp] theorem installTree_codesValid (t : Option Tree) (n : Nat) : (installTree t n s).codesValid = s.codesValid := rfl
@[simp] theorem installTree_outClosed (t : Option Tree) (n : Nat) : (installTree t n s).outClosed = s.outClosed := rfl
@[simp] theorem installTree_ovr (t : Option Tree) (n : Nat) : (installTree t n s).ovr = s.ovr := rfl
@[simp] theorem installTree_errCode (t : Option Tree) (n : Nat) : (installTree t n s).errCode = s.errCode := rfl
@[simp] theorem installTree_inMem (t : Option Tree) (n : Nat) : (installTree t n s).inMem = s.inMem := rfl
@[simp] theorem installTree_inLen (t : Option Tree) (n : Nat) : (installTree t n s).inLen = s.inLen := rfl
@[simp] theorem installTree_inPos (t : Option Tree) (n : Nat) : (installTree t n s).inPos = s.inPos := rfl
@[simp] theorem installTree_outMem (t : Option Tree) (n : Nat) : (installTree t n s).outMem = s.outMem := rfl
@[simp] theorem installTree_outBits (t : Option Tree) (n : Nat) : (installTree t n s).outBits = s.outBits := rfl
@[simp] theorem installTree_freq (t : Option Tree) (n : Nat) : (installTree t n s).freq = s.freq := rfl
@[simp] theorem installTree_tree (t : Option Tree) (n : Nat) : (installTree t n s).tree = t := rfl
@[simp] theorem installTree_nodes (t : Option Tree) (n : Nat) : (installTree t n s).nodes = n := rfl
@[simp] theorem installTree_codes (t : Option Tree) (n : Nat) : (installTree t n s).codes = s.codes := rfl
@[simp] theorem installTree_program (t : Option Tree) (n : Nat) : (installTree t n s).program = s.program := rfl
@[simp] theorem installTree_line (t : Option Tree) (n : Nat) : (installTree t n s).line = s.line := rfl
@[simp] theorem installTree_todo (t : Option Tree) (n : Nat) : (installTree t n s).todo = s.todo := rfl
@[simp] theorem installTree_reply (t : Option Tree) (n : Nat) : (installTree t n s).reply = s.reply := rfl
@[simp] theorem installTree_draws (t : Option Tree) (n : Nat) : (installTree t n s).draws = s.draws := rfl

/-! ### installCodes -/

@[simp] theorem installCodes_magic (tbl : Vector (Option (List Bool)) 257) : (installCodes tbl s).magic = s.magic := rfl
@[simp] theorem installCodes_inCap (tbl : Vector (Option (List Bool)) 257) : (installCodes tbl s).inCap = s.inCap := rfl
@[simp] theorem installCodes_outCap (tbl : Vector (Option (List Bool)) 257) : (installCodes tbl s).outCap = s.outCap := rfl
@[simp] theorem installCodes_pending (tbl : Vector (Option (List Bool)) 257) : (installCodes tbl s).pending = s.pending := rfl
@[simp] theorem installCodes_cmdLast (tbl : Vector (Option (List Bool)) 257) : (installCodes tbl s).cmdLast = s.cmdLast := rfl
@[simp] theorem installCodes_arg (tbl : Vector (Option (List Bool)) 257) : (installCodes tbl s).arg = s.arg := rfl
@[simp] theorem installCodes_result (tbl : Vector (Option (List Bool)) 257) : (installCodes tbl s).result = s.result := rfl
@[simp] theorem installCodes_busy (tbl : Vector (Option (List Bool)) 257) : (installCodes tbl s).busy = s.busy := rfl
@[simp] theorem installCodes_done (tbl : Vector (Option (List Bool)) 257) : (installCodes tbl s).done = s.done := rfl
@[simp] theorem installCodes_err (tbl : Vector (Option (List Bool)) 257) : (installCodes tbl s).err = s.err := rfl
@[simp] theorem installCodes_eos (tbl : Vector (Option (List Bool)) 257) : (installCodes tbl s).eos = s.eos := rfl
@[simp] theorem installCodes_treeValid (tbl : Vector (Option (List Bool)) 257) : (installCodes tbl s).treeValid = s.treeValid := rfl
@[simp] theorem installCodes_codesValid (tbl : Vector (Option (List Bool)) 257) : (installCodes tbl s).codesValid = true := rfl
@[simp] theorem installCodes_outClosed (tbl : Vector (Option (List Bool)) 257) : (installCodes tbl s).outClosed = s.outClosed := rfl
@[simp] theorem installCodes_ovr (tbl : Vector (Option (List Bool)) 257) : (installCodes tbl s).ovr = s.ovr := rfl
@[simp] theorem installCodes_errCode (tbl : Vector (Option (List Bool)) 257) : (installCodes tbl s).errCode = s.errCode := rfl
@[simp] theorem installCodes_inMem (tbl : Vector (Option (List Bool)) 257) : (installCodes tbl s).inMem = s.inMem := rfl
@[simp] theorem installCodes_inLen (tbl : Vector (Option (List Bool)) 257) : (installCodes tbl s).inLen = s.inLen := rfl
@[simp] theorem installCodes_inPos (tbl : Vector (Option (List Bool)) 257) : (installCodes tbl s).inPos = s.inPos := rfl
@[simp] theorem installCodes_outMem (tbl : Vector (Option (List Bool)) 257) : (installCodes tbl s).outMem = s.outMem := rfl
@[simp] theorem installCodes_outBits (tbl : Vector (Option (List Bool)) 257) : (installCodes tbl s).outBits = s.outBits := rfl
@[simp] theorem installCodes_freq (tbl : Vector (Option (List Bool)) 257) : (installCodes tbl s).freq = s.freq := rfl
@[simp] theorem installCodes_tree (tbl : Vector (Option (List Bool)) 257) : (installCodes tbl s).tree = s.tree := rfl
@[simp] theorem installCodes_nodes (tbl : Vector (Option (List Bool)) 257) : (installCodes tbl s).nodes = s.nodes := rfl
@[simp] theorem installCodes_codes (tbl : Vector (Option (List Bool)) 257) : (installCodes tbl s).codes = tbl := rfl
@[simp] theorem installCodes_program (tbl : Vector (Option (List Bool)) 257) : (installCodes tbl s).program = s.program := rfl
@[simp] theorem installCodes_line (tbl : Vector (Option (List Bool)) 257) : (installCodes tbl s).line = s.line := rfl
@[simp] theorem installCodes_todo (tbl : Vector (Option (List Bool)) 257) : (installCodes tbl s).todo = s.todo := rfl
@[simp] theorem installCodes_reply (tbl : Vector (Option (List Bool)) 257) : (installCodes tbl s).reply = s.reply := rfl
@[simp] theorem installCodes_draws (tbl : Vector (Option (List Bool)) 257) : (installCodes tbl s).draws = s.draws := rfl

/-! ### dropCodes -/

@[simp] theorem dropCodes_magic : (dropCodes s).magic = s.magic := rfl
@[simp] theorem dropCodes_inCap : (dropCodes s).inCap = s.inCap := rfl
@[simp] theorem dropCodes_outCap : (dropCodes s).outCap = s.outCap := rfl
@[simp] theorem dropCodes_pending : (dropCodes s).pending = s.pending := rfl
@[simp] theorem dropCodes_cmdLast : (dropCodes s).cmdLast = s.cmdLast := rfl
@[simp] theorem dropCodes_arg : (dropCodes s).arg = s.arg := rfl
@[simp] theorem dropCodes_result : (dropCodes s).result = s.result := rfl
@[simp] theorem dropCodes_busy : (dropCodes s).busy = s.busy := rfl
@[simp] theorem dropCodes_done : (dropCodes s).done = s.done := rfl
@[simp] theorem dropCodes_err : (dropCodes s).err = s.err := rfl
@[simp] theorem dropCodes_eos : (dropCodes s).eos = s.eos := rfl
@[simp] theorem dropCodes_treeValid : (dropCodes s).treeValid = s.treeValid := rfl
@[simp] theorem dropCodes_codesValid : (dropCodes s).codesValid = false := rfl
@[simp] theorem dropCodes_outClosed : (dropCodes s).outClosed = s.outClosed := rfl
@[simp] theorem dropCodes_ovr : (dropCodes s).ovr = s.ovr := rfl
@[simp] theorem dropCodes_errCode : (dropCodes s).errCode = s.errCode := rfl
@[simp] theorem dropCodes_inMem : (dropCodes s).inMem = s.inMem := rfl
@[simp] theorem dropCodes_inLen : (dropCodes s).inLen = s.inLen := rfl
@[simp] theorem dropCodes_inPos : (dropCodes s).inPos = s.inPos := rfl
@[simp] theorem dropCodes_outMem : (dropCodes s).outMem = s.outMem := rfl
@[simp] theorem dropCodes_outBits : (dropCodes s).outBits = s.outBits := rfl
@[simp] theorem dropCodes_freq : (dropCodes s).freq = s.freq := rfl
@[simp] theorem dropCodes_tree : (dropCodes s).tree = s.tree := rfl
@[simp] theorem dropCodes_nodes : (dropCodes s).nodes = s.nodes := rfl
@[simp] theorem dropCodes_codes : (dropCodes s).codes = noCodes := rfl
@[simp] theorem dropCodes_program : (dropCodes s).program = s.program := rfl
@[simp] theorem dropCodes_line : (dropCodes s).line = s.line := rfl
@[simp] theorem dropCodes_todo : (dropCodes s).todo = s.todo := rfl
@[simp] theorem dropCodes_reply : (dropCodes s).reply = s.reply := rfl
@[simp] theorem dropCodes_draws : (dropCodes s).draws = s.draws := rfl

/-! ### dropTree -/

@[simp] theorem dropTree_magic : (dropTree s).magic = s.magic := rfl
@[simp] theorem dropTree_inCap : (dropTree s).inCap = s.inCap := rfl
@[simp] theorem dropTree_outCap : (dropTree s).outCap = s.outCap := rfl
@[simp] theorem dropTree_pending : (dropTree s).pending = s.pending := rfl
@[simp] theorem dropTree_cmdLast : (dropTree s).cmdLast = s.cmdLast := rfl
@[simp] theorem dropTree_arg : (dropTree s).arg = s.arg := rfl
@[simp] theorem dropTree_result : (dropTree s).result = s.result := rfl
@[simp] theorem dropTree_busy : (dropTree s).busy = s.busy := rfl
@[simp] theorem dropTree_done : (dropTree s).done = s.done := rfl
@[simp] theorem dropTree_err : (dropTree s).err = s.err := rfl
@[simp] theorem dropTree_eos : (dropTree s).eos = s.eos := rfl
@[simp] theorem dropTree_treeValid : (dropTree s).treeValid = false := rfl
@[simp] theorem dropTree_codesValid : (dropTree s).codesValid = false := rfl
@[simp] theorem dropTree_outClosed : (dropTree s).outClosed = s.outClosed := rfl
@[simp] theorem dropTree_ovr : (dropTree s).ovr = s.ovr := rfl
@[simp] theorem dropTree_errCode : (dropTree s).errCode = s.errCode := rfl
@[simp] theorem dropTree_inMem : (dropTree s).inMem = s.inMem := rfl
@[simp] theorem dropTree_inLen : (dropTree s).inLen = s.inLen := rfl
@[simp] theorem dropTree_inPos : (dropTree s).inPos = s.inPos := rfl
@[simp] theorem dropTree_outMem : (dropTree s).outMem = s.outMem := rfl
@[simp] theorem dropTree_outBits : (dropTree s).outBits = s.outBits := rfl
@[simp] theorem dropTree_freq : (dropTree s).freq = s.freq := rfl
@[simp] theorem dropTree_tree : (dropTree s).tree = none := rfl
@[simp] theorem dropTree_nodes : (dropTree s).nodes = 0 := rfl
@[simp] theorem dropTree_codes : (dropTree s).codes = noCodes := rfl
@[simp] theorem dropTree_program : (dropTree s).program = s.program := rfl
@[simp] theorem dropTree_line : (dropTree s).line = s.line := rfl
@[simp] theorem dropTree_todo : (dropTree s).todo = s.todo := rfl
@[simp] theorem dropTree_reply : (dropTree s).reply = s.reply := rfl
@[simp] theorem dropTree_draws : (dropTree s).draws = s.draws := rfl

/-! ### setOverrun -/

@[simp] theorem setOverrun_magic : (setOverrun s).magic = s.magic := rfl
@[simp] theorem setOverrun_inCap : (setOverrun s).inCap = s.inCap := rfl
@[simp] theorem setOverrun_outCap : (setOverrun s).outCap = s.outCap := rfl
@[simp] theorem setOverrun_pending : (setOverrun s).pending = s.pending := rfl
@[simp] theorem setOverrun_cmdLast : (setOverrun s).cmdLast = s.cmdLast := rfl
@[simp] theorem setOverrun_arg : (setOverrun s).arg = s.arg := rfl
@[simp] theorem setOverrun_result : (setOverrun s).result = s.result := rfl
@[simp] theorem setOverrun_busy : (setOverrun s).busy = s.busy := rfl
@[simp] theorem setOverrun_done : (setOverrun s).done = s.done := rfl
@[simp] theorem setOverrun_err : (setOverrun s).err = s.err := rfl
@[simp] theorem setOverrun_eos : (setOverrun s).eos = s.eos := rfl
@[simp] theorem setOverrun_treeValid : (setOverrun s).treeValid = s.treeValid := rfl
@[simp] theorem setOverrun_codesValid : (setOverrun s).codesValid = s.codesValid := rfl
@[simp] theorem setOverrun_outClosed : (setOverrun s).outClosed = s.outClosed := rfl
@[simp] theorem setOverrun_ovr : (setOverrun s).ovr = true := rfl
@[simp] theorem setOverrun_errCode : (setOverrun s).errCode = s.errCode := rfl
@[simp] theorem setOverrun_inMem : (setOverrun s).inMem = s.inMem := rfl
@[simp] theorem setOverrun_inLen : (setOverrun s).inLen = s.inLen := rfl
@[simp] theorem setOverrun_inPos : (setOverrun s).inPos = s.inPos := rfl
@[simp] theorem setOverrun_outMem : (setOverrun s).outMem = s.outMem := rfl
@[simp] theorem setOverrun_outBits : (setOverrun s).outBits = s.outBits := rfl
@[simp] theorem setOverrun_freq : (setOverrun s).freq = s.freq := rfl
@[simp] theorem setOverrun_tree : (setOverrun s).tree = s.tree := rfl
@[simp] theorem setOverrun_nodes : (setOverrun s).nodes = s.nodes := rfl
@[simp] theorem setOverrun_codes : (setOverrun s).codes = s.codes := rfl
@[simp] theorem setOverrun_program : (setOverrun s).program = s.program := rfl
@[simp] theorem setOverrun_line : (setOverrun s).line = s.line := rfl
@[simp] theorem setOverrun_todo : (setOverrun s).todo = s.todo := rfl
@[simp] theorem setOverrun_reply : (setOverrun s).reply = s.reply := rfl
@[simp] theorem setOverrun_draws : (setOverrun s).draws = s.draws := rfl

/-! ### Updates over one another -/

@[simp] theorem seek_seek (p q : Nat) : seek p (seek q s) = seek p s := rfl
@[simp] theorem seek_inPos_self : seek s.inPos s = s := rfl
@[simp] theorem setOutput_setOutput (m m' : Memory) (n n' : Nat) :
    setOutput m n (setOutput m' n' s) = setOutput m n s := rfl
@[simp] theorem setOutput_self : setOutput s.outMem s.outBits s = s := rfl
@[simp] theorem setFreq_setFreq (f g : Vector Word 257) : setFreq f (setFreq g s) = setFreq f s := rfl
theorem setOutput_seek (m : Memory) (n p : Nat) : setOutput m n (seek p s) = seek p (setOutput m n s) := rfl
theorem setFreq_seek (f : Vector Word 257) (p : Nat) : setFreq f (seek p s) = seek p (setFreq f s) := rfl

end Sys2Proof.Machine
end

