-- ==== Sys2Proof/Laws/Streams.lean ====
section
/-! SUPPORT. Bit strings and the stream primitives: what each of them can do, said once. -/

namespace Sys2Proof.Machine

/-! ### Bit strings -/

@[simp] theorem length_field (n v : Nat) : (field n v).length = n := by
  induction n <;> simp [field, *]

theorem getElem_field (n v k : Nat) (h : k < (field n v).length) : (field n v)[k] = v.testBit (n - 1 - k) := by
  induction n generalizing k with
  | zero => simp at h
  | succ n ih =>
    cases k with
    | zero => simp [field]
    | succ k => simp only [field, List.getElem_cons_succ, ih]; congr 1; omega

theorem bitsToNat_append (xs ys : List Bool) :
    bitsToNat (xs ++ ys) = 2 ^ ys.length * bitsToNat xs + bitsToNat ys := by
  have key : ∀ (l : List Bool) (a : Nat),
      l.foldl (fun v b => 2 * v + b.toNat) a = 2 ^ l.length * a + l.foldl (fun v b => 2 * v + b.toNat) 0 := by
    intro l
    induction l with
    | nil => simp
    | cons b l ih =>
      intro a
      simp only [List.foldl_cons, List.length_cons]
      rw [ih, ih (2 * 0 + b.toNat)]
      ring
  simp only [bitsToNat, List.foldl_append]
  exact key _ _

theorem bitsToNat_cons (b : Bool) (bs : List Bool) :
    bitsToNat (b :: bs) = 2 ^ bs.length * b.toNat + bitsToNat bs := by
  simpa [bitsToNat] using bitsToNat_append [b] bs

theorem bitsToNat_lt (bs : List Bool) : bitsToNat bs < 2 ^ bs.length := by
  induction bs with
  | nil => simp [bitsToNat]
  | cons b bs ih =>
    rw [bitsToNat_cons, List.length_cons, pow_succ]
    have : b.toNat ≤ 1 := Bool.toNat_le b
    nlinarith

theorem bitsToNat_field (n v : Nat) : bitsToNat (field n v) = v % 2 ^ n := by
  induction n with
  | zero => simp [field, bitsToNat, Nat.mod_one]
  | succ n ih =>
    rw [field, bitsToNat_cons, ih, length_field, Nat.testBit_eq_decide_div_mod_eq, Nat.pow_succ, Nat.mod_mul]
    rcases Nat.mod_two_eq_zero_or_one (v / 2 ^ n) with h | h <;> simp [h]
    omega

theorem field_bitsToNat (bs : List Bool) : field bs.length (bitsToNat bs) = bs := by
  have field_mod : ∀ n v, field n (v % 2 ^ n) = field n v := by
    intro n v
    refine List.ext_getElem (by simp) fun k h _ => ?_
    rw [getElem_field, getElem_field, Nat.testBit_mod_two_pow]
    simp at h
    simp; omega
  induction bs with
  | nil => rfl
  | cons b bs ih =>
    have hlt := bitsToNat_lt bs
    rw [List.length_cons, field, bitsToNat_cons]
    congr 1
    · rw [Nat.testBit_eq_decide_div_mod_eq, Nat.mul_add_div (by positivity), Nat.div_eq_of_lt hlt]
      cases b <;> simp
    · rw [← field_mod, Nat.mul_add_mod, Nat.mod_eq_of_lt hlt, ih]

theorem testBit_bitsToNat (bs : List Bool) (k : Nat) (h : k < bs.length) :
    (bitsToNat bs).testBit (bs.length - 1 - k) = bs[k] := by
  have := getElem_field bs.length (bitsToNat bs) k (by simpa using h)
  rw [← this]
  congr 1
  exact field_bitsToNat bs

/-! ### Runs -/

/-- A bind that goes on went on in both parts. -/
theorem Run.bind_ok {α β : Type} {r : Run α} {f : α → State → Run β} {b : β} {t : State}
    (h : r.bind f = .ok b t) : ∃ a s, r = .ok a s ∧ f a s = .ok b t := by
  cases r with
  | ok a s => exact ⟨a, s, rfl, h⟩
  | error e s => simp [Run.bind] at h
  | fault e => simp [Run.bind] at h

/-- A bind that raised raised in one of its parts. -/
theorem Run.bind_error {α β : Type} {r : Run α} {f : α → State → Run β} {e : ErrCode} {t : State}
    (h : r.bind f = .error e t) : r = .error e t ∨ ∃ a s, r = .ok a s ∧ f a s = .error e t := by
  cases r with
  | ok a s => exact .inr ⟨a, s, rfl, h⟩
  | error e' s => simp [Run.bind] at h; simp [h]
  | fault e' => simp [Run.bind] at h

/-- A bind that faulted faulted in one of its parts. -/
theorem Run.bind_fault {α β : Type} {r : Run α} {f : α → State → Run β} {e : Fault}
    (h : r.bind f = .fault e) : r = .fault e ∨ ∃ a s, r = .ok a s ∧ f a s = .fault e := by
  cases r with
  | ok a s => exact .inr ⟨a, s, rfl, h⟩
  | error e' s => simp [Run.bind] at h
  | fault e' => simp [Run.bind] at h; simp [h]

@[simp] theorem Run.ok_bind {α β : Type} (a : α) (s : State) (f : α → State → Run β) :
    (Run.ok a s).bind f = f a s := rfl
@[simp] theorem Run.error_bind {α β : Type} (e : ErrCode) (s : State) (f : α → State → Run β) :
    (Run.error e s : Run α).bind f = .error e s := rfl
@[simp] theorem Run.fault_bind {α β : Type} (e : Fault) (f : α → State → Run β) :
    (Run.fault e : Run α).bind f = .fault e := rfl
@[simp] theorem Run.ofEmit_ok (s : State) : Run.ofEmit (.ok s) = .ok () s := rfl
@[simp] theorem Run.ofEmit_error (e : ErrCode) (s : State) : Run.ofEmit (.error (e, s)) = .error e s := rfl
@[simp] theorem finish_ok (s : State) : finish (.ok () s) = .next (complete s) := rfl
@[simp] theorem finish_error (e : ErrCode) (s : State) : finish (.error e s) = .next (raise e s) := rfl
@[simp] theorem finish_fault (f : Fault) : finish (.fault f) = .fault f := rfl
@[simp] theorem settle_ok (s : State) : settle (.ok s) = complete s := rfl
@[simp] theorem settle_error (e : ErrCode) (s : State) : settle (.error (e, s)) = raise e s := rfl

/-- What the end of a command can be, said once (40_control R101, 60_exceptions R203). -/
theorem finish_next {r : Run Unit} {t : State} (h : finish r = .next t) :
    (∃ s, r = .ok () s ∧ t = complete s) ∨ ∃ e s, r = .error e s ∧ t = raise e s := by
  cases r with
  | ok a s => exact .inl ⟨s, rfl, by simpa [finish] using h.symm⟩
  | error e s => exact .inr ⟨e, s, rfl, by simpa [finish] using h.symm⟩
  | fault f => simp [finish] at h

/-! ### InRead -/

/-- Everything InRead can do (41_bitstream R110). -/
theorem inRead_cases (n : Nat) (s : State) :
    (8 * s.inLen < s.inPos + n ∧ inRead n s = .ok none s) ∨
    (∃ bs, s.inPos + n ≤ 8 * s.inLen ∧ bs.length = n ∧ Holds s.inMem s.inPos bs ∧
      inRead n s = .ok (some (bitsToNat bs)) (seek (s.inPos + n) s)) ∨
    (s.inPos + n ≤ 8 * s.inLen ∧ Memory.bits s.inMem s.inPos n = none ∧ inRead n s = .fault .unwrittenInput) := by
  by_cases h : 8 * s.inLen < s.inPos + n
  · exact .inl ⟨h, by simp [inRead, h]⟩
  · cases hb : Memory.bits s.inMem s.inPos n with
    | none => exact .inr (.inr ⟨by omega, rfl, by simp [inRead, h, hb]⟩)
    | some bs =>
      obtain ⟨hl, hh⟩ := (Memory.bits_eq_some_iff _ _ _ _).1 hb
      exact .inr (.inl ⟨bs, by omega, hl, hh, by simp [inRead, h, hb]⟩)

theorem inRead_eos {n : Nat} {s : State} (h : 8 * s.inLen < s.inPos + n) : inRead n s = .ok none s := by
  simp [inRead, h]

theorem inRead_holds {s : State} {bs : List Bool} (h : s.inPos + bs.length ≤ 8 * s.inLen)
    (hh : Holds s.inMem s.inPos bs) :
    inRead bs.length s = .ok (some (bitsToNat bs)) (seek (s.inPos + bs.length) s) := by
  have := (Memory.bits_eq_some_iff s.inMem s.inPos bs.length bs).2 ⟨rfl, hh⟩
  simp [inRead, this, Nat.not_lt.2 h]

/-- Reading a field back: unpacking undoes packing (41_bitstream R111). -/
theorem inRead_field {s : State} {n v : Nat} (h : s.inPos + n ≤ 8 * s.inLen)
    (hh : Holds s.inMem s.inPos (field n v)) :
    inRead n s = .ok (some (v % 2 ^ n)) (seek (s.inPos + n) s) := by
  have := inRead_holds (s := s) (bs := field n v) (by simpa using h) hh
  rwa [length_field, bitsToNat_field] at this

/-- A stream whose every valid byte is written never faults. -/
theorem inRead_written {n : Nat} {s : State} (hw : InputWritten s) (hn : inRead n s = .fault .unwrittenInput) :
    False := by
  rcases inRead_cases n s with ⟨_, h⟩ | ⟨bs, _, _, _, h⟩ | ⟨hle, hb, _⟩
  · simp [h] at hn
  · simp [h] at hn
  · have := Memory.bits_isSome s.inMem s.inPos n fun i _ hi => hw _ (by omega)
    simp [hb] at this

/-! ### OutPut -/

theorem read_appendBit (b : Bool) (s : State) {a : Nat} (h : a ≠ s.outBits / 8) :
    Memory.read (appendBit b s).outMem a = Memory.read s.outMem a := by
  simp [Memory.read_write, h]

/-- The bits of the output after one bit has been appended: the new bit, 0 past it in a new byte, the rest kept. -/
theorem bit_appendBit (b : Bool) (s : State) (j : Nat) :
    Memory.bit (appendBit b s).outMem j =
      if j = s.outBits then some b
      else if j / 8 = s.outBits / 8 then some ((outByteNow s).getLsbD (7 - j % 8))
      else Memory.bit s.outMem j := by
  rw [appendBit_outMem, Memory.bit_write]
  by_cases hj : j = s.outBits
  · rw [hj, if_pos rfl, if_pos rfl, getLsbD_putBit _ _ _ _ (by omega), if_pos rfl]
  · rw [if_neg hj]
    split
    · congr 1
      rw [getLsbD_putBit _ _ _ _ (by omega), if_neg (by omega)]
    · rfl

theorem bit_appendBit_kept {b c : Bool} {s : State} {j : Nat} (hj : j < s.outBits)
    (h : Memory.bit s.outMem j = some c) : Memory.bit (appendBit b s).outMem j = some c := by
  rw [bit_appendBit, if_neg (by omega)]
  split
  · rename_i he
    rw [outByteNow, if_neg (by omega)]
    unfold Memory.bit at h
    rw [he] at h
    cases hr : Memory.read s.outMem (s.outBits / 8) with
    | none => simp [hr] at h
    | some x => simpa [hr] using h
  · exact h

theorem Appended.nil (s : State) : Appended [] s s.outMem :=
  ⟨Holds.nil _ _, fun _ _ _ h => h, fun _ _ => rfl⟩

theorem Appended.cons {b : Bool} {bs : List Bool} {s : State} {m : Memory} (h : Appended bs (appendBit b s) m) :
    Appended (b :: bs) s m := by
  refine ⟨(holds_cons_iff _ _ _ _).2 ⟨?_, by simpa using h.holds⟩, ?_, ?_⟩
  · exact h.kept _ _ (by simp) (by rw [bit_appendBit, if_pos rfl])
  · intro j c hj hc
    exact h.kept _ _ (by simp; omega) (bit_appendBit_kept hj hc)
  · intro a ha
    simp only [List.length_cons] at ha
    rw [h.frame a (by simp; omega), read_appendBit]
    omega

theorem Appended.append {xs ys : List Bool} {s : State} {m m' : Memory} (hx : Appended xs s m)
    (hy : Appended ys (setOutput m (s.outBits + xs.length) s) m') : Appended (xs ++ ys) s m' := by
  refine ⟨(holds_append_iff _ _ _ _).2 ⟨?_, hy.holds⟩, ?_, ?_⟩
  · intro k hk
    exact hy.kept _ _ (by simp; omega) (hx.holds k hk)
  · intro j c hj hc
    exact hy.kept _ _ (by simp; omega) (hx.kept j c hj hc)
  · intro a ha
    simp only [List.length_append] at ha
    rw [hy.frame a (by simp; omega), setOutput_outMem, hx.frame a (by omega)]

/-- Everything OutPut can do (41_bitstream R112): it appends the first `k` bits; `k` is all of them, or the stream was
closed and nothing is written, or the buffer is full after them. -/
theorem outPut_spec (bs : List Bool) (s : State) :
    ∃ m k, k ≤ bs.length ∧ Appended (bs.take k) s m ∧
      ((k = bs.length ∧ outPut bs s = .ok (setOutput m (s.outBits + k) s) ∧
          (bs ≠ [] → s.outClosed = false)) ∨
        (k < bs.length ∧ s.outClosed = true ∧ k = 0 ∧ m = s.outMem ∧ outPut bs s = .error (.outputClosed, s)) ∨
        (k < bs.length ∧ s.outClosed = false ∧ s.outBits + k = 8 * s.outCap ∧
          outPut bs s = .error (.outputOverflow, setOutput m (s.outBits + k) s))) := by
  induction bs generalizing s with
  | nil => exact ⟨s.outMem, 0, Nat.le_refl _, Appended.nil s, .inl ⟨rfl, rfl, fun h => absurd rfl h⟩⟩
  | cons b bs ih =>
    by_cases hc : s.outClosed = true
    · exact ⟨s.outMem, 0, Nat.zero_le _, Appended.nil s,
        .inr (.inl ⟨by simp, hc, rfl, rfl, by simp [outPut, hc]⟩)⟩
    · by_cases hf : s.outBits = 8 * s.outCap
      · exact ⟨s.outMem, 0, Nat.zero_le _, Appended.nil s,
          .inr (.inr ⟨by simp, by simpa using hc, by simpa using hf, by rw [outPut, if_neg hc, if_pos hf]; rfl⟩)⟩
      · have hrun : outPut (b :: bs) s = outPut bs (appendBit b s) := by simp [outPut, hc, hf]
        obtain ⟨m, k, hk, ha, h⟩ := ih (appendBit b s)
        refine ⟨m, k + 1, by simp; omega, by simpa using ha.cons, ?_⟩
        rw [hrun]
        have hstate : setOutput m ((appendBit b s).outBits + k) (appendBit b s) =
            setOutput m (s.outBits + (k + 1)) s := by
          simp [appendBit, Nat.add_assoc, Nat.add_comm 1 k]
        rcases h with ⟨rfl, h, -⟩ | ⟨_, h, -⟩ | ⟨h1, -, h3, h⟩
        · exact .inl ⟨rfl, by rw [h, hstate], fun _ => by simpa using hc⟩
        · exact absurd h (by simpa using hc)
        · refine .inr (.inr ⟨by simp; omega, by simpa using hc, ?_, by rw [h, hstate]⟩)
          simp at h3; omega

/-- OutPut on an open stream with room appends the whole bit string. -/
theorem outPut_ok {bs : List Bool} {s : State} (hc : s.outClosed = false)
    (hr : s.outBits + bs.length ≤ 8 * s.outCap) :
    ∃ m, outPut bs s = .ok (setOutput m (s.outBits + bs.length) s) ∧ Appended bs s m := by
  obtain ⟨m, k, hk, ha, h⟩ := outPut_spec bs s
  rcases h with ⟨rfl, h, -⟩ | ⟨_, h, -⟩ | ⟨h1, -, h3, -⟩
  · exact ⟨m, h, by simpa using ha⟩
  · simp [hc] at h
  · omega

theorem outPut_closed {b : Bool} {bs : List Bool} {s : State} (hc : s.outClosed = true) :
    outPut (b :: bs) s = .error (.outputClosed, s) := by
  simp [outPut, hc]

/-- OutPut on an open stream without room fills the buffer and raises OUTPUT_OVERFLOW. -/
theorem outPut_overflow {bs : List Bool} {s : State} (hc : s.outClosed = false) (hb : s.outBits ≤ 8 * s.outCap)
    (hr : 8 * s.outCap < s.outBits + bs.length) :
    ∃ m, outPut bs s = .error (.outputOverflow, setOutput m (8 * s.outCap) s) ∧
      Appended (bs.take (8 * s.outCap - s.outBits)) s m := by
  obtain ⟨m, k, hk, ha, h⟩ := outPut_spec bs s
  rcases h with ⟨rfl, h, -⟩ | ⟨_, h, -⟩ | ⟨h1, -, h3, h⟩
  · exfalso
    have full : ∀ (bs : List Bool) (s t : State), s.outBits ≤ 8 * s.outCap → outPut bs s = .ok t →
        s.outBits + bs.length ≤ 8 * s.outCap := by
      intro bs
      induction bs with
      | nil => intro s t hb _; simpa using hb
      | cons b bs ih =>
        intro s t hb ht
        unfold outPut at ht
        split at ht
        · cases ht
        · split at ht
          · cases ht
          · have := ih (appendBit b s) t (by simp; omega) ht
            simp at this ⊢
            omega
    have := full bs s _ hb h
    omega
  · simp [hc] at h
  · obtain rfl : k = 8 * s.outCap - s.outBits := by omega
    refine ⟨m, ?_, ha⟩
    rw [h, h3]

/-- Appending two bit strings is appending one after the other. -/
theorem outPut_append (xs ys : List Bool) (s : State) :
    Run.ofEmit (outPut (xs ++ ys) s) = (Run.ofEmit (outPut xs s)).bind fun _ s => Run.ofEmit (outPut ys s) := by
  induction xs generalizing s with
  | nil => rfl
  | cons b xs ih =>
    simp only [List.cons_append, outPut]
    split
    · rfl
    · split
      · rfl
      · exact ih _

/-! ### OutClose -/

/-- Everything OutClose does (41_bitstream R113). -/
theorem outClose_eq (s : State) :
    outClose s = { s with
      outBits := if s.outClosed then s.outBits else 8 * ((s.outBits + 7) / 8), outClosed := true } := by
  unfold outClose
  split
  · cases s; simp_all
  · rfl

end Sys2Proof.Machine
end

