-- ==== Sys2Proof/Laws/Trees.lean ====
section
/-! SUPPORT. Trees: sizes, paths and headers; reading a header back; walking a tree. -/

namespace Sys2Proof.Machine

/-! ### Sizes, symbols and paths -/

theorem Tree.leaves_pos (t : Tree) : 1 ≤ t.leaves := by
  induction t with
  | leaf s w => exact Nat.le_refl _
  | node w l r ihl ihr => simp only [Tree.leaves]; omega

theorem Tree.size_eq (t : Tree) : t.size + 1 = 2 * t.leaves := by
  induction t with
  | leaf s w => rfl
  | node w l r ihl ihr => simp only [Tree.size, Tree.leaves]; omega

theorem length_header (t : Tree) : (header t).length + 1 = 11 * t.leaves := by
  induction t with
  | leaf s w => simp [header, Tree.leaves]
  | node w l r ihl ihr =>
    simp only [header, Tree.leaves, List.length_cons, List.length_append]
    omega

@[simp] theorem Tree.size_unweighted (t : Tree) : t.unweighted.size = t.size := by
  induction t <;> simp [Tree.unweighted, Tree.size, *]

@[simp] theorem Tree.paths_unweighted (t : Tree) : t.unweighted.paths = t.paths := by
  induction t <;> simp [Tree.unweighted, Tree.paths, *]

@[simp] theorem Tree.isNode_unweighted (t : Tree) : t.unweighted.isNode = t.isNode := by
  cases t <;> rfl

@[simp] theorem Tree.unweighted_unweighted (t : Tree) : t.unweighted.unweighted = t.unweighted := by
  induction t <;> simp [Tree.unweighted, *]

@[simp] theorem header_unweighted (t : Tree) : header t.unweighted = header t := by
  induction t <;> simp [Tree.unweighted, header, *]

theorem Tree.paths_map_fst (t : Tree) : t.paths.map (·.1) = t.symbols := by
  induction t with
  | leaf s w => rfl
  | node w l r ihl ihr =>
    simp only [Tree.paths, Tree.symbols, List.map_append, List.map_map, ← ihl, ← ihr]
    rfl

theorem Tree.length_symbols (t : Tree) : t.symbols.length = t.leaves := by
  induction t with
  | leaf s w => rfl
  | node w l r ihl ihr => simp [Tree.symbols, Tree.leaves, ihl, ihr]

/-- A path is no longer than the number of leaves beside it. -/
theorem Tree.length_path_lt (t : Tree) : ∀ x ∈ t.paths, x.2.length < t.leaves := by
  induction t with
  | leaf s w => simp [Tree.paths, Tree.leaves]
  | node w l r ihl ihr =>
    have hl := l.leaves_pos
    have hr := r.leaves_pos
    intro x hx
    simp only [Tree.paths, List.mem_append, List.mem_map] at hx
    simp only [Tree.leaves]
    rcases hx with ⟨y, hy, rfl⟩ | ⟨y, hy, rfl⟩
    · have := ihl y hy; simp; omega
    · have := ihr y hy; simp; omega

/-- Every path of an Internal node has at least one bit. -/
theorem Tree.path_ne_nil {t : Tree} (ht : t.isNode = true) {x : Symbol × List Bool} (hx : x ∈ t.paths) :
    x.2 ≠ [] := by
  cases t with
  | leaf s w => simp [Tree.isNode] at ht
  | node w l r =>
    simp only [Tree.paths, List.mem_append, List.mem_map] at hx
    rcases hx with ⟨y, -, rfl⟩ | ⟨y, -, rfl⟩ <;> simp

/-! ### GENCODES -/

/-- `Visit` writes the leaves' paths from left to right, each over what stood there (42_encoder R140). -/
theorem visit_eq_foldl (t : Tree) (p : List Bool) (tbl : Vector (Option (List Bool)) 257) :
    visit t p tbl = t.paths.foldl (fun tbl x => tbl.set x.1.val (some (p ++ x.2))) tbl := by
  induction t generalizing p tbl with
  | leaf s w => simp [visit, Tree.paths]
  | node w l r ihl ihr =>
    simp only [visit, Tree.paths, List.foldl_append, List.foldl_map, ihl, ihr, List.append_assoc,
      List.singleton_append]

/-- One entry after writing pairs one over the other: the last pair of that symbol, else what stood there. -/
theorem getElem_foldl_set (xs : List (Symbol × List Bool)) (tbl : Vector (Option (List Bool)) 257) (y : Symbol) :
    (xs.foldl (fun tbl x => tbl.set x.1.val (some x.2)) tbl)[y.val] =
      (((xs.filter fun x => x.1 = y).getLast?).map fun x => some x.2).getD tbl[y.val] := by
  induction xs generalizing tbl with
  | nil => simp
  | cons x xs ih =>
    rw [List.foldl_cons, ih, List.filter_cons]
    by_cases h : x.1 = y
    · subst h
      cases hf : xs.filter fun z => z.1 = x.1 with
      | nil => simp
      | cons z zs =>
        obtain ⟨l, hl⟩ := Option.isSome_iff_exists.1 (by simp : (z :: zs).getLast?.isSome = true)
        simp [hl]
    · have : x.1.val ≠ y.val := fun h' => h (Fin.ext h')
      simp [h, Vector.getElem_set_ne _ _ this]

/-- The code table of a tree: each symbol has the path to its last leaf (42_encoder R140). -/
theorem getElem_codesOf (t : Tree) (y : Symbol) :
    (codesOf t)[y.val] = ((t.paths.filter fun x => x.1 = y).getLast?).map (·.2) := by
  rw [codesOf, visit_eq_foldl]
  simp only [List.nil_append]
  rw [getElem_foldl_set]
  cases (t.paths.filter fun x => x.1 = y).getLast? <;> simp [noCodes]

/-! ### RDHDR -/

/-- Rd reads back the header of a tree that fits (43_decoder R173). -/
theorem rd_header (t : Tree) (fuel count : Nat) (s : State) (hf : 513 < fuel + count)
    (hc : count + t.size ≤ 513) (hr : s.inPos + (header t).length ≤ 8 * s.inLen)
    (hh : Holds s.inMem s.inPos (header t)) :
    rd fuel count s = .ok (t.unweighted, count + t.size) (seek (s.inPos + (header t).length) s) := by
  induction t generalizing fuel count s with
  | leaf y w =>
    simp only [Tree.size] at hc
    obtain ⟨fuel, rfl⟩ : ∃ k, fuel = k + 1 := ⟨fuel - 1, by omega⟩
    simp only [header, List.length_cons, length_field] at hr
    obtain ⟨h1, h2⟩ := (holds_cons_iff _ _ _ _).1 hh
    have ht : inRead 1 s = .ok (some 1) (seek (s.inPos + 1) s) :=
      inRead_holds (s := s) (bs := [true]) (by simp; omega) ((holds_cons_iff _ _ _ _).2 ⟨h1, Holds.nil _ _⟩)
    have hs : inRead Config.symbolBits (seek (s.inPos + 1) s) =
        .ok (some y.val) (seek (s.inPos + 1 + 9) s) := by
      have := inRead_field (s := seek (s.inPos + 1) s) (n := 9) (v := y.val)
        (by simp at hr ⊢; omega) h2
      rwa [Nat.mod_eq_of_lt (by have := y.isLt; simp; omega)] at this
    have hcount : ¬ Config.nodeCap < count + 1 := by simp; omega
    simp only [rd, ht, Run.ok_bind, hcount, if_false, Nat.one_ne_zero, hs, headerSymbol, y.isLt, dif_pos,
      Tree.unweighted, Tree.size, header, List.length_cons, length_field]
    rfl
  | node w l r ihl ihr =>
    simp only [Tree.size] at hc
    obtain ⟨fuel, rfl⟩ : ∃ k, fuel = k + 1 := ⟨fuel - 1, by omega⟩
    simp only [header, List.length_cons, List.length_append] at hr
    obtain ⟨h1, h2⟩ := (holds_cons_iff _ _ _ _).1 hh
    obtain ⟨h3, h4⟩ := (holds_append_iff _ _ _ _).1 h2
    have ht : inRead 1 s = .ok (some 0) (seek (s.inPos + 1) s) :=
      inRead_holds (s := s) (bs := [false]) (by simp; omega) ((holds_cons_iff _ _ _ _).2 ⟨h1, Holds.nil _ _⟩)
    have hl := ihl fuel (count + 1) (seek (s.inPos + 1) s) (by omega) (by omega) (by simp; omega) h3
    have hr' := ihr fuel (count + 1 + l.size)
      (seek (s.inPos + 1 + (header l).length) s) (by omega) (by omega) (by simp only [seek_inPos, seek_inLen]; omega) h4
    have hcount : ¬ Config.nodeCap < count + 1 := by simp; omega
    simp only [seek_seek, seek_inPos] at hl hr'
    simp only [rd, ht, Run.ok_bind, hcount, if_false, if_true, hl, hr', Tree.unweighted, Tree.size, header,
      List.length_cons, List.length_append]
    congr 2 <;> omega

/-- Rd on the way to a node of a header: it reads what stands before the node, and an error at the node is the whole's
(43_decoder R173). -/
theorem rd_before (path : List (Option Tree)) (fuel count : Nat) (s t : State) (e : ErrCode)
    (hf : 513 < fuel + count) (hc : count + tagsBefore path ≤ 513)
    (hr : s.inPos + (headerBefore path).length ≤ 8 * s.inLen) (hh : Holds s.inMem s.inPos (headerBefore path))
    (h : ∀ fuel', 513 < fuel' + (count + tagsBefore path) → rd fuel' (count + tagsBefore path)
      (seek (s.inPos + (headerBefore path).length) s) = .error e t) :
    rd fuel count s = .error e t := by
  induction path generalizing fuel count s with
  | nil => exact h fuel hf
  | cons step path ih =>
    have h0 : tagsBefore (step :: path) ≠ 0 := by
      cases step <;> simp only [tagsBefore] <;> omega
    obtain ⟨fuel, rfl⟩ : ∃ k, fuel = k + 1 := ⟨fuel - 1, by omega⟩
    have hcount : ¬ Config.nodeCap < count + 1 := by simp; omega
    have tag : Memory.bit s.inMem s.inPos = some false → s.inPos + 1 ≤ 8 * s.inLen →
        inRead 1 s = .ok (some 0) (seek (s.inPos + 1) s) := fun h1 h2 =>
      inRead_holds (s := s) (bs := [false]) h2 ((holds_cons_iff _ _ _ _).2 ⟨h1, Holds.nil _ _⟩)
    cases step with
    | none =>
      simp only [headerBefore, tagsBefore, List.length_cons] at hc hr hh h
      obtain ⟨h1, h2⟩ := (holds_cons_iff _ _ _ _).1 hh
      have hl := ih fuel (count + 1) (seek (s.inPos + 1) s) (by omega) (by omega)
        (by simp only [seek_inPos, seek_inLen]; omega) h2 fun fuel' hf' => by
          have := h fuel' (by omega)
          simpa only [seek_seek, seek_inPos, Nat.add_assoc, Nat.add_comm 1] using this
      simp only [rd, tag h1 (by omega), Run.ok_bind, hcount, if_false, if_true, hl, Run.error_bind]
    | some l =>
      simp only [headerBefore, tagsBefore, List.length_cons, List.length_append] at hc hr hh h
      obtain ⟨h1, h2⟩ := (holds_cons_iff _ _ _ _).1 hh
      obtain ⟨h3, h4⟩ := (holds_append_iff _ _ _ _).1 h2
      have hl := rd_header l fuel (count + 1) (seek (s.inPos + 1) s) (by omega) (by omega)
        (by simp only [seek_inPos, seek_inLen]; omega) h3
      simp only [seek_seek, seek_inPos] at hl
      have hr' := ih fuel (count + 1 + l.size) (seek (s.inPos + 1 + (header l).length) s) (by omega) (by omega)
        (by simp only [seek_inPos, seek_inLen]; omega) h4 fun fuel' hf' => by
          have := h fuel' (by omega)
          rw [seek_inPos, seek_seek, show s.inPos + 1 + (header l).length + (headerBefore path).length =
            s.inPos + ((header l).length + (headerBefore path).length + 1) by omega,
            show count + 1 + l.size + tagsBefore path = count + (1 + l.size + tagsBefore path) by omega]
          exact this
      simp only [rd, tag h1 (by omega), Run.ok_bind, hcount, if_false, if_true, hl, hr', Run.error_bind]

/-- Everything Rd can do, said once (43_decoder R173, R174): it reads the header of a tree with weights 0 that fits, or
it raises one of three errors, or it meets an unwritten byte; only IN_POS moves, and it stays within the stream. -/
theorem rd_cases (fuel count : Nat) (s : State) (hf : 513 < fuel + count) (hp : s.inPos ≤ 8 * s.inLen) :
    (∃ t, t.unweighted = t ∧ count + t.size ≤ 513 ∧ s.inPos + (header t).length ≤ 8 * s.inLen ∧
      Holds s.inMem s.inPos (header t) ∧
      rd fuel count s = .ok (t, count + t.size) (seek (s.inPos + (header t).length) s)) ∨
    (∃ e p, e ∈ [ErrCode.malformedHeader, .headerOverflow, .badSymbol] ∧ s.inPos ≤ p ∧ p ≤ 8 * s.inLen ∧
      rd fuel count s = .error e (seek p s)) ∨
    (rd fuel count s = .fault .unwrittenInput ∧ ¬ InputWritten s) := by
  induction fuel generalizing count s with
  | zero =>
    exact .inr (.inl ⟨.headerOverflow, s.inPos, by simp, Nat.le_refl _, hp, rfl⟩)
  | succ fuel ih =>
    rw [rd]
    rcases inRead_cases 1 s with ⟨-, h⟩ | ⟨bs, hle, hlen, hh, h⟩ | ⟨-, -, h⟩
    · exact .inr (.inl ⟨.malformedHeader, s.inPos, by simp, Nat.le_refl _, hp, by simp [h]⟩)
    · obtain ⟨b, rfl⟩ := List.length_eq_one_iff.1 hlen
      have hb : Memory.bit s.inMem s.inPos = some b := ((holds_cons_iff _ _ _ _).1 hh).1
      simp only [h, Run.ok_bind]
      by_cases hcount : Config.nodeCap < count + 1
      · exact .inr (.inl ⟨.headerOverflow, s.inPos + 1, by simp, by omega, hle, by simp [hcount]⟩)
      · have hc' : count + 1 ≤ 513 := by simpa using hcount
        simp only [hcount, if_false]
        cases b with
        | false =>
          simp only [show bitsToNat [false] = 0 from rfl, if_true]
          rcases ih (count + 1) (seek (s.inPos + 1) s) (by omega) hle with
            ⟨l, hlw, hlc, hlp, hlh, hl⟩ | ⟨e, p, he, h1, h2, hl⟩ | ⟨hl, hw⟩
          · simp only [hl, Run.ok_bind]
            simp only [seek_inPos, seek_inLen, seek_inMem] at hlp hlh
            rcases ih (count + 1 + l.size) (seek (s.inPos + 1 + (header l).length) s) (by omega) hlp with
              ⟨r, hrw, hrc, hrp, hrh, hr⟩ | ⟨e, p, he, h1, h2, hr⟩ | ⟨hr, hw⟩
            all_goals simp only [seek_seek, seek_inPos, seek_inLen, seek_inMem] at *
            · refine .inl ⟨.node 0 l r, by simp [Tree.unweighted, hlw, hrw], by simp [Tree.size]; omega, ?_, ?_, ?_⟩
              · simp only [header, List.length_cons, List.length_append]; omega
              · exact (holds_cons_iff _ _ _ _).2 ⟨hb, (holds_append_iff _ _ _ _).2 ⟨hlh, hrh⟩⟩
              · simp only [hr, Run.ok_bind, Tree.size, header, List.length_cons, List.length_append]
                congr 2 <;> omega
            · exact .inr (.inl ⟨e, p, he, by omega, h2, by simp [hr]⟩)
            · exact .inr (.inr ⟨by simp [hr], hw⟩)
          · exact .inr (.inl ⟨e, p, he, by simp at h1; omega, h2, by simp [hl]⟩)
          · exact .inr (.inr ⟨by simp [hl], hw⟩)
        | true =>
          simp only [show bitsToNat [true] = 1 from rfl, Nat.one_ne_zero, if_false]
          rcases inRead_cases Config.symbolBits (seek (s.inPos + 1) s) with
            ⟨-, h⟩ | ⟨bs, hle', hlen', hh', h⟩ | ⟨hle', hb', h⟩
          · exact .inr (.inl ⟨.malformedHeader, s.inPos + 1, by simp, by omega, hle, by simp [h]⟩)
          · simp only [h, Run.ok_bind]
            simp only [seek_inPos, seek_inLen, seek_inMem, Config.symbolBits] at hle' hh' hlen'
            by_cases hv : bitsToNat bs < 257
            · refine .inl ⟨.leaf ⟨bitsToNat bs, hv⟩ 0, rfl, by simp [Tree.size]; omega, ?_, ?_, ?_⟩
              · simp only [header, List.length_cons, length_field]; omega
              · refine (holds_cons_iff _ _ _ _).2 ⟨hb, ?_⟩
                have := field_bitsToNat bs
                rw [hlen'] at this
                simpa [this] using hh'
              · simp [headerSymbol, hv, Tree.size, header, Nat.add_assoc]
            · exact .inr (.inl ⟨.badSymbol, s.inPos + 1 + 9, by simp, by omega, hle', by simp [headerSymbol, hv]⟩)
          · exact .inr (.inr ⟨by simp [h], fun hw => inRead_written (s := seek (s.inPos + 1) s) hw h⟩)
    · exact .inr (.inr ⟨by simp [h], fun hw => inRead_written hw h⟩)

/-! ### The walk -/

/-- The walk down a path: the bits of a nonempty path from `p` to a leaf are read one by one, and the leaf is acted on
with the pointer back at the root (43_decoder R175). -/
theorem decodeLoop_path (root p : Tree) (y : Symbol) (q : List Bool) (k : Nat) (s : State) (hq : q ≠ [])
    (hp : (y, q) ∈ p.paths) (hr : s.inPos + q.length ≤ 8 * s.inLen) (hh : Holds s.inMem s.inPos q) :
    decodeLoop (k + q.length) root p s =
      if y = Config.pseudoEof then .ok () (seek (s.inPos + q.length) s)
      else (Run.ofEmit (outField Config.bitsPerWord y.val (seek (s.inPos + q.length) s))).bind
        fun _ s => decodeLoop k root root s := by
  induction q generalizing p s with
  | nil => exact absurd rfl hq
  | cons b q ih =>
    obtain ⟨h1, h2⟩ := (holds_cons_iff _ _ _ _).1 hh
    simp only [List.length_cons] at hr
    have ht : inRead 1 s = .ok (some b.toNat) (seek (s.inPos + 1) s) := by
      have := inRead_holds (s := s) (bs := [b]) (by simp; omega) ((holds_cons_iff _ _ _ _).2 ⟨h1, Holds.nil _ _⟩)
      cases b <;> exact this
    have hbit : (b.toNat != 0) = b := by cases b <;> rfl
    cases p with
    | leaf z w => simp [Tree.paths] at hp
    | node w l r =>
      have hchild : (y, q) ∈ (Tree.child (.node w l r) b).paths := by
        simp only [Tree.paths, List.mem_append, List.mem_map] at hp
        rcases hp with ⟨x, hx, he⟩ | ⟨x, hx, he⟩
        all_goals
          obtain ⟨x1, x2⟩ := x
          simp only [Prod.mk.injEq, List.cons.injEq] at he
          obtain ⟨rfl, rfl, rfl⟩ := he
          simpa [Tree.child] using hx
      rw [List.length_cons, ← Nat.add_assoc, decodeLoop, ht]
      simp only [Run.ok_bind, hbit]
      cases hc : Tree.child (.node w l r) b with
      | leaf z v =>
        rw [hc] at hchild
        obtain ⟨rfl, rfl⟩ : y = z ∧ q = [] := by simpa [Tree.paths] using hchild
        simp
      | node v l' r' =>
        rw [hc] at hchild
        have hq' : q ≠ [] := fun h => by
          subst h
          exact Tree.path_ne_nil (t := .node v l' r') rfl hchild rfl
        have := ih (.node v l' r') (seek (s.inPos + 1) s) hq' hchild (by simp; omega) h2
        simpa [Nat.add_assoc, Nat.add_comm 1] using this

end Sys2Proof.Machine
end

