-- ==== Sys2Proof/Laws/Loops.lean ====
section
/-! SUPPORT. The loops over the input: COUNT's, ENCODE's and DECODE's, each with everything it can do said once. -/

namespace Sys2Proof.Machine

/-! ### Bytes of the input -/

/-- The bits of a byte sequence, each byte most significant bit first (20_memory R65). -/
def byteBits (bytes : List Byte) : List Bool := bytes.flatMap fun b => field 8 b.toNat

@[simp] theorem byteBits_nil : byteBits [] = [] := rfl
@[simp] theorem byteBits_cons (b : Byte) (bs : List Byte) : byteBits (b :: bs) = field 8 b.toNat ++ byteBits bs := rfl

@[simp] theorem length_byteBits (bytes : List Byte) : (byteBits bytes).length = 8 * bytes.length := by
  induction bytes with
  | nil => rfl
  | cons b bs ih => simp [ih]; omega

/-- A written byte, as bits of the stream. -/
theorem holds_byte {m : Memory} {a : Nat} {b : Byte} (h : Memory.read m a = some b) :
    Holds m (8 * a) (field 8 b.toNat) := by
  intro k hk
  simp only [length_field] at hk
  rw [getElem_field, Memory.bit, show (8 * a + k) / 8 = a by omega, h, show (8 * a + k) % 8 = k by omega]
  simp [BitVec.getLsbD]

/-- The loaded input, as bits of the stream. -/
theorem holds_loaded {bytes : List Byte} {s : State} (h : Loaded bytes s) : Holds s.inMem 0 (byteBits bytes) := by
  have key : ∀ (bs : List Byte) (a : Nat), (∀ i, (h : i < bs.length) → Memory.read s.inMem (a + i) = some bs[i]) →
      Holds s.inMem (8 * a) (byteBits bs) := by
    intro bs
    induction bs with
    | nil => intro a _; exact Holds.nil _ _
    | cons b bs ih =>
      intro a hb
      refine (holds_append_iff _ _ _ _).2 ⟨holds_byte (hb 0 (by simp)), ?_⟩
      have := ih (a + 1) fun i hi => by
        have := hb (i + 1) (by simpa using hi)
        simpa [Nat.add_assoc, Nat.add_comm 1 i] using this
      rw [length_field]
      exact this
  have := key bytes 0 fun i hi => by simpa using h.2 i hi
  exact this

/-- A written input holds the bits of some bytes from any position on. -/
theorem exists_bytes {s : State} (hw : InputWritten s) (n p : Nat) (hn : p + 8 * n ≤ 8 * s.inLen) :
    ∃ bytes : List Byte, bytes.length = n ∧ Holds s.inMem p (byteBits bytes) := by
  induction n generalizing p with
  | zero => exact ⟨[], rfl, Holds.nil _ _⟩
  | succ n ih =>
    obtain ⟨bs, hl, hh⟩ := ih (p + 8) (by omega)
    have hsome := Memory.bits_isSome s.inMem p 8 fun i _ hi => hw _ (by omega)
    obtain ⟨ds, hds⟩ := Option.isSome_iff_exists.1 hsome
    obtain ⟨hlen, hhold⟩ := (Memory.bits_eq_some_iff _ _ _ _).1 hds
    have hlt := bitsToNat_lt ds
    rw [hlen] at hlt
    refine ⟨BitVec.ofNat 8 (bitsToNat ds) :: bs, by simp [hl], ?_⟩
    have hf : field 8 (BitVec.ofNat 8 (bitsToNat ds)).toNat = ds := by
      rw [BitVec.toNat_ofNat, Nat.mod_eq_of_lt hlt, ← hlen, field_bitsToNat]
    rw [byteBits_cons, hf]
    exact (holds_append_iff _ _ _ _).2 ⟨hhold, by rwa [hlen]⟩

theorem InputWritten.of_loaded {bytes : List Byte} {s : State} (h : Loaded bytes s) : InputWritten s := by
  intro i hi
  rw [h.1] at hi
  simp [h.2 i hi]

/-- Reading one byte of the stream (42_encoder R130). -/
theorem inRead_byte {s : State} {b : Byte} (hr : s.inPos + 8 ≤ 8 * s.inLen)
    (hh : Holds s.inMem s.inPos (field 8 b.toNat)) :
    inRead Config.bitsPerWord s = .ok (some b.toNat) (seek (s.inPos + 8) s) := by
  have := inRead_field (s := s) (n := 8) (v := b.toNat) hr hh
  rwa [Nat.mod_eq_of_lt b.isLt] at this

/-! ### COUNT -/

/-- The table after the bytes have been counted. -/
def tally (f : Vector Word 257) (bytes : List Byte) : Vector Word 257 :=
  bytes.foldl (fun f b => bump f (byteSymbol b.toNat)) f

theorem getElem_bump (f : Vector Word 257) (v y : Symbol) :
    (bump f v)[y.val] = if v = y then f[y.val] + 1 else f[y.val] := by
  unfold bump
  by_cases h : v = y
  · subst h; simp
  · have : v.val ≠ y.val := fun h' => h (Fin.ext h')
    rw [Vector.getElem_set_ne _ _ this, if_neg h]

theorem byteSymbol_val (b : Byte) : (byteSymbol b.toNat).val = b.toNat := by
  have := b.isLt
  simp [byteSymbol, Fin.ofNat]
  omega

theorem byteSymbol_inj {a b : Byte} : byteSymbol a.toNat = byteSymbol b.toNat ↔ a = b := by
  constructor
  · intro h
    apply BitVec.eq_of_toNat_eq
    rw [← byteSymbol_val a, ← byteSymbol_val b, h]
  · rintro rfl; rfl

/-- A counter after the bytes have been counted, as long as it cannot wrap. -/
theorem toNat_tally (f : Vector Word 257) (bytes : List Byte) (y : Symbol)
    (h : f[y.val].toNat + bytes.length < 2 ^ 32) :
    (tally f bytes)[y.val].toNat = f[y.val].toNat + bytes.countP fun b => byteSymbol b.toNat = y := by
  induction bytes generalizing f with
  | nil => simp [tally]
  | cons b bs ih =>
    simp only [List.length_cons] at h
    have hb : (bump f (byteSymbol b.toNat))[y.val].toNat =
        f[y.val].toNat + if byteSymbol b.toNat = y then 1 else 0 := by
      rw [getElem_bump]
      split
      · rw [BitVec.toNat_add, Nat.mod_eq_of_lt] <;> simp; omega
      · rfl
    have := ih (bump f (byteSymbol b.toNat)) (by rw [hb]; split <;> omega)
    rw [show tally f (b :: bs) = tally (bump f (byteSymbol b.toNat)) bs from rfl, this, hb, List.countP_cons]
    simp only [decide_eq_true_eq]
    omega

/-- COUNT's loop over the bytes from IN_POS on, when fewer than 8 bits remain after them (42_encoder R130). -/
theorem countLoop_bytes (bytes : List Byte) (k : Nat) (s : State) (hk : bytes.length < k)
    (hr : s.inPos + 8 * bytes.length ≤ 8 * s.inLen) (he : 8 * s.inLen < s.inPos + 8 * bytes.length + 8)
    (hh : Holds s.inMem s.inPos (byteBits bytes)) :
    countLoop k s = .ok () (seek (s.inPos + 8 * bytes.length) (setFreq (tally s.freq bytes) s)) := by
  induction bytes generalizing k s with
  | nil =>
    obtain ⟨k, rfl⟩ : ∃ j, k = j + 1 := ⟨k - 1, by simp at hk; omega⟩
    rw [countLoop, inRead_eos (by simp at he ⊢; omega)]
    rfl
  | cons b bs ih =>
    obtain ⟨k, rfl⟩ : ∃ j, k = j + 1 := ⟨k - 1, by simp at hk; omega⟩
    simp only [List.length_cons] at hk hr he
    obtain ⟨h1, h2⟩ := (holds_append_iff _ _ _ _).1 hh
    rw [length_field] at h2
    rw [countLoop, inRead_byte (by omega) h1]
    simp only [Run.ok_bind]
    rw [ih]
    · simp only [setFreq_inPos, seek_inPos, setFreq_freq, seek_freq, List.length_cons]
      rw [show s.inPos + 8 + 8 * bs.length = s.inPos + 8 * (bs.length + 1) by omega]
      rfl
    · omega
    · simp; omega
    · simp; omega
    · exact h2

/-- Everything COUNT can do from every state (42_encoder R130): count the bytes from IN_POS on, or meet an unwritten
byte. -/
theorem countBody_cases (s : State) :
    (∃ bytes : List Byte, bytes.length = (8 * s.inLen - s.inPos) / 8 ∧ Holds s.inMem s.inPos (byteBits bytes) ∧
      countBody s = .ok () (seek (s.inPos + 8 * bytes.length)
        (setFreq ((tally noCounts bytes).set Config.pseudoEof.val 1) s))) ∨
    (countBody s = .fault .unwrittenInput ∧ ¬ InputWritten s) := by
  have loop_cases : ∀ (k : Nat) (s : State), countLoop k s = .fault .unwrittenInput ∧ ¬ InputWritten s ∨
      ∃ t, countLoop k s = .ok () t := by
    intro k
    induction k with
    | zero => exact fun s => .inr ⟨s, rfl⟩
    | succ k ih =>
      intro s
      rw [countLoop]
      rcases inRead_cases Config.bitsPerWord s with ⟨-, h⟩ | ⟨bs, -, -, -, h⟩ | ⟨-, -, h⟩
      · exact .inr ⟨s, by simp only [h, Run.ok_bind]⟩
      · simp only [h, Run.ok_bind]
        rcases ih (setFreq (bump (seek (s.inPos + 8) s).freq (byteSymbol (bitsToNat bs))) (seek (s.inPos + 8) s)) with
          ⟨h1, h2⟩ | h1
        · exact .inl ⟨h1, h2⟩
        · exact .inr h1
      · exact .inl ⟨by simp only [h, Run.fault_bind], fun hw => inRead_written hw h⟩
  have holds_of_ok : ∀ (k : Nat) (s t : State), countLoop k s = .ok () t → (8 * s.inLen - s.inPos) / 8 < k →
      ∃ bytes : List Byte, bytes.length = (8 * s.inLen - s.inPos) / 8 ∧ Holds s.inMem s.inPos (byteBits bytes) := by
    intro k
    induction k with
    | zero => intro s t _ h; omega
    | succ k ih =>
      intro s t ht hk
      rw [countLoop] at ht
      rcases inRead_cases Config.bitsPerWord s with ⟨hlt, -⟩ | ⟨bs, hle, hl, hh, h⟩ | ⟨-, -, h⟩
      · exact ⟨[], by simp at hlt ⊢; omega, Holds.nil _ _⟩
      · simp only [h, Run.ok_bind] at ht
        simp only [Config.bitsPerWord] at hle hl
        obtain ⟨rest, hr1, hr2⟩ := ih _ _ ht (by simp; omega)
        have hlt := bitsToNat_lt bs
        rw [hl] at hlt
        have hf : field 8 (BitVec.ofNat 8 (bitsToNat bs)).toNat = bs := by
          rw [BitVec.toNat_ofNat, Nat.mod_eq_of_lt hlt, ← hl, field_bitsToNat]
        refine ⟨BitVec.ofNat 8 (bitsToNat bs) :: rest, by simp at hr1 ⊢; omega, ?_⟩
        rw [byteBits_cons, hf]
        exact (holds_append_iff _ _ _ _).2 ⟨hh, by rw [hl]; exact hr2⟩
      · simp only [h, Run.fault_bind, reduceCtorEq] at ht
  unfold countBody
  rcases loop_cases (s.inLen + 1) (setFreq noCounts s) with ⟨h1, h2⟩ | ⟨t, ht⟩
  · exact .inr ⟨by simp only [h1, Run.fault_bind], h2⟩
  · obtain ⟨bytes, hb1, hb2⟩ := holds_of_ok _ _ _ ht (by simp; omega)
    refine .inl ⟨bytes, hb1, hb2, ?_⟩
    simp only [setFreq_inLen, setFreq_inPos, setFreq_inMem] at hb1 hb2
    have hrun : countLoop (s.inLen + 1) (setFreq noCounts s) =
        .ok () (seek (s.inPos + 8 * bytes.length) (setFreq (tally noCounts bytes) s)) := by
      rcases Nat.lt_or_ge (8 * s.inLen) s.inPos with hlt | hge
      · obtain rfl : bytes = [] := List.length_eq_zero_iff.1 (by omega)
        rw [countLoop, inRead_eos (by simp only [setFreq_inLen, setFreq_inPos, Config.bitsPerWord]; omega)]
        rfl
      · exact countLoop_bytes bytes (s.inLen + 1) (setFreq noCounts s) (by omega)
          (by simp only [setFreq_inLen, setFreq_inPos]; omega) (by simp only [setFreq_inLen, setFreq_inPos]; omega) hb2
    rw [hrun]
    rfl

/-! ### ENCODE -/

/-- ENCODE's loop over bytes that all have codes, on an open output with room, when fewer than 8 bits remain after them
(42_encoder R144). -/
theorem encodeLoop_bytes (bytes : List Byte) (cs : List (List Bool)) (k j : Nat) (s : State)
    (hk : k = bytes.length + j) (hr : s.inPos + 8 * bytes.length ≤ 8 * s.inLen)
    (hh : Holds s.inMem s.inPos (byteBits bytes))
    (hc : bytes.map (fun b => s.codes[(byteSymbol b.toNat).val]) = cs.map some) (ho : s.outClosed = false)
    (hroom : s.outBits + cs.flatten.length ≤ 8 * s.outCap) :
    ∃ m, Appended cs.flatten s m ∧ encodeLoop k s =
      encodeLoop j (setOutput m (s.outBits + cs.flatten.length) (seek (s.inPos + 8 * bytes.length) s)) := by
  induction bytes generalizing cs k s with
  | nil =>
    obtain rfl : cs = [] := by simpa using hc.symm
    subst hk
    exact ⟨s.outMem, Appended.nil s, by rw [List.length_nil, Nat.zero_add]; rfl⟩
  | cons b bs ih =>
    cases cs with
    | nil => simp at hc
    | cons c cs =>
      obtain ⟨k, rfl⟩ : ∃ i, k = i + 1 := ⟨k - 1, by simp at hk; omega⟩
      simp only [List.length_cons] at hk hr
      simp only [List.map_cons, List.cons.injEq] at hc
      simp only [List.flatten_cons, List.length_append] at hroom
      obtain ⟨h1, h2⟩ := (holds_append_iff _ _ _ _).1 hh
      rw [length_field] at h2
      obtain ⟨m, hm, ha⟩ := outPut_ok (bs := c) (s := seek (s.inPos + 8) s) ho (by simp; omega)
      obtain ⟨m', ha', hm'⟩ := ih cs k (setOutput m (s.outBits + c.length) (seek (s.inPos + 8) s)) (by omega)
        (by simp only [setOutput_inPos, seek_inPos, setOutput_inLen, seek_inLen]; omega) h2 hc.2 ho
        (by simp only [setOutput_outBits, setOutput_outCap, seek_outCap]; omega)
      refine ⟨m', ?_, ?_⟩
      · exact Appended.append (xs := c) (ys := cs.flatten) (m := m) ⟨ha.holds, ha.kept, ha.frame⟩
          ⟨ha'.holds, ha'.kept, ha'.frame⟩
      · rw [encodeLoop, inRead_byte (by omega) h1]
        simp only [Run.ok_bind, emitCode, seek_codes, hc.1, hm, Run.ofEmit_ok]
        simp only [seek_outBits] at *
        rw [hm']
        simp only [setOutput_outBits, setOutput_inPos, seek_inPos, List.flatten_cons, List.length_append,
          List.length_cons, Nat.add_assoc, Nat.mul_add, Nat.add_comm 8]
        rfl

/-- Everything ENCODE's loop can do from every state with a fuel that suffices: it appends some bits; it ends at the
end of the input, or at an error of ENCODE, or at an unwritten byte. -/
theorem encodeLoop_cases (k : Nat) (s : State) :
    (∃ xs m p, Appended xs s m ∧ s.inPos ≤ p ∧ (p ≤ 8 * s.inLen ∨ p = s.inPos) ∧
      ((encodeLoop k s = .ok () (setOutput m (s.outBits + xs.length) (seek p s)) ∧ (xs ≠ [] → s.outClosed = false)) ∨
        (encodeLoop k s = .error .noCode (setOutput m (s.outBits + xs.length) (seek p s)) ∧
          (xs ≠ [] → s.outClosed = false)) ∨
        (encodeLoop k s = .error .outputClosed (setOutput m (s.outBits + xs.length) (seek p s)) ∧
          s.outClosed = true ∧ xs = [] ∧ m = s.outMem) ∨
        (encodeLoop k s = .error .outputOverflow (setOutput m (s.outBits + xs.length) (seek p s)) ∧
          s.outClosed = false ∧ s.outBits + xs.length = 8 * s.outCap))) ∨
    (encodeLoop k s = .fault .unwrittenInput ∧ ¬ InputWritten s) := by
  induction k generalizing s with
  | zero => exact .inl ⟨[], s.outMem, s.inPos, Appended.nil s, Nat.le_refl _, .inr rfl, .inl ⟨rfl, fun h => absurd rfl h⟩⟩
  | succ k ih =>
    rw [encodeLoop]
    rcases inRead_cases Config.bitsPerWord s with ⟨-, h⟩ | ⟨bs, hle, -, -, h⟩ | ⟨-, -, h⟩
    · refine .inl ⟨[], s.outMem, s.inPos, Appended.nil s, Nat.le_refl _, .inr rfl, .inl ⟨?_, fun h => absurd rfl h⟩⟩
      simp only [h, Run.ok_bind]; rfl
    · simp only [h, Run.ok_bind, emitCode, seek_codes]
      simp only [Config.bitsPerWord] at hle
      cases hcode : s.codes[(byteSymbol (bitsToNat bs)).val] with
      | none =>
        refine .inl ⟨[], s.outMem, s.inPos + 8, Appended.nil s, by omega, .inl hle, .inr (.inl ⟨?_, fun h => absurd rfl h⟩)⟩
        simp only [Run.error_bind]; rfl
      | some c =>
        obtain ⟨m, j, hj, ha, hout⟩ := outPut_spec c (seek (s.inPos + 8) s)
        rcases hout with ⟨rfl, hout, hopen⟩ | ⟨-, hcl, rfl, rfl, hout⟩ | ⟨-, hcl, hfull, hout⟩
        · rw [List.take_length] at ha
          simp only [hout, Run.ofEmit_ok, Run.ok_bind]
          rcases ih (setOutput m ((seek (s.inPos + 8) s).outBits + c.length) (seek (s.inPos + 8) s)) with
            ⟨xs, m', p, ha', hp1, hp2, hres⟩ | ⟨h1, h2⟩
          · refine .inl ⟨c ++ xs, m', p, Appended.append (m := m) ⟨ha.holds, ha.kept, ha.frame⟩
              ⟨ha'.holds, ha'.kept, ha'.frame⟩, ?_, ?_, ?_⟩
            · simp at hp1; omega
            · simp at hp2; omega
            · have hst : ∀ p, setOutput m' ((setOutput m ((seek (s.inPos + 8) s).outBits + c.length)
                  (seek (s.inPos + 8) s)).outBits + xs.length) (seek p (setOutput m
                  ((seek (s.inPos + 8) s).outBits + c.length) (seek (s.inPos + 8) s))) =
                  setOutput m' (s.outBits + (c ++ xs).length) (seek p s) := by
                intro p
                simp only [setOutput_outBits, seek_outBits, List.length_append, Nat.add_assoc]
                rfl
              simp only [hst] at hres
              simp only [setOutput_outClosed, seek_outClosed, setOutput_outBits, seek_outBits, setOutput_outCap,
                seek_outCap, setOutput_outMem] at hres hopen
              have hne : c ++ xs ≠ [] → s.outClosed = false ∨ (c = [] ∧ xs ≠ []) := by
                intro hn
                by_cases hc : c = []
                · subst hc; exact .inr ⟨rfl, by simpa using hn⟩
                · exact .inl (hopen hc)
              rcases hres with ⟨h, hx⟩ | ⟨h, hx⟩ | ⟨h, hx, rfl, hm⟩ | ⟨h, hx, hf⟩
              · exact .inl ⟨h, fun hn => (hne hn).elim id fun h => hx h.2⟩
              · exact .inr (.inl ⟨h, fun hn => (hne hn).elim id fun h => hx h.2⟩)
              · have hc : c = [] := by
                  by_contra hc
                  simp [hopen hc] at hx
                subst hc
                refine .inr (.inr (.inl ⟨h, hx, rfl, ?_⟩))
                have hout' : outPut [] (seek (s.inPos + 8) s) = .ok (seek (s.inPos + 8) s) := rfl
                rw [hout'] at hout
                have := congrArg State.outMem (Except.ok.inj hout)
                rw [hm]
                simpa using this.symm
              · refine .inr (.inr (.inr ⟨h, hx, ?_⟩))
                simp; omega
          · exact .inr ⟨h1, h2⟩
        · refine .inl ⟨[], s.outMem, s.inPos + 8, Appended.nil s, by omega, .inl hle,
            .inr (.inr (.inl ⟨?_, hcl, rfl, rfl⟩))⟩
          simp only [hout, Run.ofEmit_error, Run.error_bind]; rfl
        · refine .inl ⟨c.take j, m, s.inPos + 8, ⟨ha.holds, ha.kept, ha.frame⟩, by omega, .inl hle,
            .inr (.inr (.inr ⟨?_, hcl, ?_⟩))⟩
          · simp only [hout, Run.ofEmit_error, Run.error_bind, List.length_take, Nat.min_eq_left hj]; rfl
          · simpa [List.length_take, Nat.min_eq_left hj] using hfull
    · exact .inr ⟨by simp only [h, Run.fault_bind], fun hw => inRead_written hw h⟩

/-! ### DECODE -/

/-- DECODE's loop over a sequence of paths to byte leaves, on an open output with room (43_decoder R175, R176). -/
theorem decodeLoop_bytes (t : Tree) (ht : t.isNode = true) (xs : List (Symbol × List Bool)) (k : Nat) (s : State)
    (hx : ∀ x ∈ xs, x ∈ t.paths ∧ x.1 ≠ 256) (hr : s.inPos + (xs.map (·.2)).flatten.length ≤ 8 * s.inLen)
    (hh : Holds s.inMem s.inPos (xs.map (·.2)).flatten) (ho : s.outClosed = false)
    (hroom : s.outBits + 8 * xs.length ≤ 8 * s.outCap) :
    ∃ m, Appended ((xs.map fun x => field 8 x.1.val).flatten) s m ∧
      decodeLoop (k + (xs.map (·.2)).flatten.length) t t s =
        decodeLoop k t t (setOutput m (s.outBits + 8 * xs.length)
          (seek (s.inPos + (xs.map (·.2)).flatten.length) s)) := by
  induction xs generalizing s with
  | nil => exact ⟨s.outMem, Appended.nil s, rfl⟩
  | cons x xs ih =>
    obtain ⟨y, q⟩ := x
    obtain ⟨hp, hy⟩ := hx (y, q) (by simp)
    simp only [List.map_cons, List.flatten_cons, List.length_append, List.length_cons] at hr hroom ⊢
    obtain ⟨h1, h2⟩ := (holds_append_iff _ _ _ _).1 hh
    obtain ⟨m, hm, ha⟩ := outPut_ok (bs := field 8 y.val) (s := seek (s.inPos + q.length) s) ho (by simp; omega)
    simp only [length_field, seek_outBits] at hm
    obtain ⟨m', ha', hm'⟩ := ih (setOutput m (s.outBits + 8) (seek (s.inPos + q.length) s))
      (fun x hx' => hx x (by simp [hx'])) (by simp only [setOutput_inPos, seek_inPos, setOutput_inLen, seek_inLen]; omega) h2 ho
      (by simp only [setOutput_outBits, setOutput_outCap, seek_outCap]; omega)
    refine ⟨m', ?_, ?_⟩
    · refine Appended.append (xs := field 8 y.val) (m := m) ⟨ha.holds, ha.kept, ha.frame⟩
        ⟨?_, ?_, ?_⟩
      · simpa using ha'.holds
      · simpa using ha'.kept
      · simpa using ha'.frame
    · rw [show k + (q.length + (xs.map (·.2)).flatten.length) = k + (xs.map (·.2)).flatten.length + q.length by omega,
        decodeLoop_path t t y q _ s (Tree.path_ne_nil ht hp) hp (by omega) h1, if_neg hy]
      simp only [outField, Config.bitsPerWord, hm, Run.ofEmit_ok, Run.ok_bind]
      rw [hm']
      simp only [setOutput_outBits, setOutput_inPos, seek_inPos, Nat.add_assoc, Nat.mul_add, Nat.add_comm 8]
      rfl

/-- Everything DECODE's loop can do from every state with an Internal root: it appends whole bytes but for the last; it
stops after the end-marker, or at the end of the stream, or at an output error, or at an unwritten byte. -/
theorem decodeLoop_cases (root : Tree) (k : Nat) (p : Tree) (s : State) (hk : 8 * s.inLen < s.inPos + k) :
    (∃ xs m q, Appended xs s m ∧ s.inPos ≤ q ∧ (q ≤ 8 * s.inLen ∨ q = s.inPos) ∧
      ((decodeLoop k root p s = .ok () (setOutput m (s.outBits + xs.length) (seek q s)) ∧
          (xs ≠ [] → s.outClosed = false)) ∨
        (decodeLoop k root p s = .error .truncatedStream (setOutput m (s.outBits + xs.length) (seek q s)) ∧
          (xs ≠ [] → s.outClosed = false)) ∨
        (decodeLoop k root p s = .error .outputClosed (setOutput m (s.outBits + xs.length) (seek q s)) ∧
          s.outClosed = true ∧ xs = [] ∧ m = s.outMem) ∨
        (decodeLoop k root p s = .error .outputOverflow (setOutput m (s.outBits + xs.length) (seek q s)) ∧
          s.outClosed = false ∧ s.outBits + xs.length = 8 * s.outCap))) ∨
    (decodeLoop k root p s = .fault .unwrittenInput ∧ ¬ InputWritten s) := by
  induction k generalizing p s with
  | zero =>
    exact .inl ⟨[], s.outMem, s.inPos, Appended.nil s, Nat.le_refl _, .inr rfl,
      .inr (.inl ⟨rfl, fun h => absurd rfl h⟩)⟩
  | succ k ih =>
    rw [decodeLoop]
    rcases inRead_cases 1 s with ⟨-, h⟩ | ⟨bs, hle, -, -, h⟩ | ⟨-, -, h⟩
    · refine .inl ⟨[], s.outMem, s.inPos, Appended.nil s, Nat.le_refl _, .inr rfl,
        .inr (.inl ⟨?_, fun h => absurd rfl h⟩)⟩
      simp only [h, Run.ok_bind]; rfl
    · simp only [h, Run.ok_bind]
      cases hchild : p.child (bitsToNat bs != 0) with
      | leaf y w =>
        simp only
        by_cases hy : y = Config.pseudoEof
        · simp only [hy, if_true]
          exact .inl ⟨[], s.outMem, s.inPos + 1, Appended.nil s, by omega, .inl hle, .inl ⟨rfl, fun h => absurd rfl h⟩⟩
        · simp only [hy, if_false]
          obtain ⟨m, j, hj, ha, hout⟩ := outPut_spec (field Config.bitsPerWord y.val) (seek (s.inPos + 1) s)
          rcases hout with ⟨rfl, hout, hopen⟩ | ⟨-, hcl, rfl, rfl, hout⟩ | ⟨-, hcl, hfull, hout⟩
          · rw [List.take_length] at ha
            have hopen' : s.outClosed = false := hopen (by simp [field])
            simp only [outField, hout, Run.ofEmit_ok, Run.ok_bind]
            rcases ih root (setOutput m ((seek (s.inPos + 1) s).outBits + (field Config.bitsPerWord y.val).length)
              (seek (s.inPos + 1) s)) (by simp; omega) with ⟨xs, m', q, ha', hq1, hq2, hres⟩ | ⟨h1, h2⟩
            · refine .inl ⟨field 8 y.val ++ xs, m', q, Appended.append (m := m) ⟨ha.holds, ha.kept, ha.frame⟩
                ⟨ha'.holds, ha'.kept, ha'.frame⟩, ?_, ?_, ?_⟩
              · simp at hq1; omega
              · simp at hq2; omega
              · have hst : setOutput m' ((setOutput m ((seek (s.inPos + 1) s).outBits +
                    (field Config.bitsPerWord y.val).length) (seek (s.inPos + 1) s)).outBits + xs.length)
                    (seek q (setOutput m ((seek (s.inPos + 1) s).outBits +
                    (field Config.bitsPerWord y.val).length) (seek (s.inPos + 1) s))) =
                    setOutput m' (s.outBits + (field 8 y.val ++ xs).length) (seek q s) := by
                  simp only [setOutput_outBits, seek_outBits, List.length_append, Nat.add_assoc]
                  rfl
                simp only [hst] at hres
                simp only [setOutput_outClosed, seek_outClosed, setOutput_outBits, seek_outBits, setOutput_outCap,
                  seek_outCap] at hres
                rcases hres with ⟨h, -⟩ | ⟨h, -⟩ | ⟨-, hx, -⟩ | ⟨h, -, hf⟩
                · exact .inl ⟨h, fun _ => hopen'⟩
                · exact .inr (.inl ⟨h, fun _ => hopen'⟩)
                · simp [hopen'] at hx
                · refine .inr (.inr (.inr ⟨h, hopen', ?_⟩))
                  simp at hf ⊢; omega
            · exact .inr ⟨h1, h2⟩
          · refine .inl ⟨[], s.outMem, s.inPos + 1, Appended.nil s, by omega, .inl hle,
              .inr (.inr (.inl ⟨?_, hcl, rfl, rfl⟩))⟩
            simp only [outField, hout, Run.ofEmit_error, Run.error_bind]; rfl
          · refine .inl ⟨(field 8 y.val).take j, m, s.inPos + 1, ⟨ha.holds, ha.kept, ha.frame⟩, by omega, .inl hle,
              .inr (.inr (.inr ⟨?_, hcl, ?_⟩))⟩
            · simp only [outField, hout, Run.ofEmit_error, Run.error_bind, List.length_take, Nat.min_eq_left hj]; rfl
            · rw [List.length_take, Nat.min_eq_left hj]
              simpa using hfull
      | node w l r =>
        simp only
        rcases ih (.node w l r) (seek (s.inPos + 1) s) (by simp; omega) with ⟨xs, m', q, ha', hq1, hq2, hres⟩ | ⟨h1, h2⟩
        · refine .inl ⟨xs, m', q, ⟨ha'.holds, ha'.kept, ha'.frame⟩, ?_, ?_, hres⟩
          · simp at hq1; omega
          · simp at hq2; omega
        · exact .inr ⟨h1, h2⟩
    · exact .inr ⟨by simp only [h, Run.fault_bind], fun hw => inRead_written hw h⟩

end Sys2Proof.Machine
end

