-- ==== Sys2Proof/Laws/PerInstr.lean ====
section
/-! SUPPORT. The family of statements made per command: the word of a well-formed command is legal
(30_encoding R84). -/

/-- The word of the command is legal whenever the command is well-formed (30_encoding R84). -/
def Sys2Proof.Laws.EncodesLegal.Statement (i : Sys2Proof.Instr) : Prop :=
  i.wellFormed = true → Sys2Proof.legal (Sys2Proof.encode i) = true

namespace Sys2Proof.Laws

theorem EncodesLegal.nop : EncodesLegal.Statement .nop := fun _ => by decide
theorem EncodesLegal.srst : EncodesLegal.Statement .srst := fun _ => by decide
theorem EncodesLegal.rdbits (n : BitVec 6) : EncodesLegal.Statement (.rdbits n) := by
  unfold EncodesLegal.Statement; revert n; decide +kernel
theorem EncodesLegal.wrbits (n : BitVec 6) : EncodesLegal.Statement (.wrbits n) := by
  unfold EncodesLegal.Statement; revert n; decide +kernel
theorem EncodesLegal.rstin : EncodesLegal.Statement .rstin := fun _ => by decide
theorem EncodesLegal.close : EncodesLegal.Statement .close := fun _ => by decide
theorem EncodesLegal.outclr : EncodesLegal.Statement .outclr := fun _ => by decide
theorem EncodesLegal.count : EncodesLegal.Statement .count := fun _ => by decide
theorem EncodesLegal.build : EncodesLegal.Statement .build := fun _ => by decide
theorem EncodesLegal.gencodes : EncodesLegal.Statement .gencodes := fun _ => by decide
theorem EncodesLegal.wrhdr : EncodesLegal.Statement .wrhdr := fun _ => by decide
theorem EncodesLegal.encode : EncodesLegal.Statement .encode := fun _ => by decide
theorem EncodesLegal.compress : EncodesLegal.Statement .compress := fun _ => by decide
theorem EncodesLegal.chkmagic : EncodesLegal.Statement .chkmagic := fun _ => by decide
theorem EncodesLegal.rdhdr : EncodesLegal.Statement .rdhdr := fun _ => by decide
theorem EncodesLegal.decode : EncodesLegal.Statement .decode := fun _ => by decide
theorem EncodesLegal.decompress : EncodesLegal.Statement .decompress := fun _ => by decide

end Sys2Proof.Laws
end

