-- ==== Sys2Proof/Laws/Step.lean ====
section
/-! SUPPORT. One step, and one access of the host: everything each of them can do, said once. -/

namespace Sys2Proof.Machine

/-- Everything a step that answers a next state can be. -/
theorem step_next_cases {s t : State} (h : step s = .next t) :
    (∃ w i, s.busy = true ∧ s.pending = some w ∧ decode w = .ok i ∧ exec i s = .next t) ∨
    (∃ w e, s.busy = true ∧ s.pending = some w ∧ decode w = .error e ∧ t = raise .illegalCommand s) ∨
    (∃ m rest, s.todo = m :: rest ∧ hostMove m { s with todo := rest } = .next t) ∨
    (∃ l, s.todo = [] ∧ s.busy = false ∧ s.program[s.line]? = some l ∧ t = startLine l s) ∨
    t = s := by
  have core : s.busy = true → turn s = coreTurn s →
      (∃ w i, s.busy = true ∧ s.pending = some w ∧ decode w = .ok i ∧ exec i s = .next t) ∨
      (∃ w e, s.busy = true ∧ s.pending = some w ∧ decode w = .error e ∧ t = raise .illegalCommand s) := by
    intro hb hc
    unfold step at h
    rw [hc] at h
    cases hp : s.pending with
    | none => simp [coreTurn, hp] at h
    | some w =>
      cases hd : decode w with
      | ok i =>
        simp only [coreTurn, hp, hd] at h
        exact Or.inl ⟨w, i, hb, rfl, hd, h⟩
      | error e =>
        simp only [coreTurn, hp, hd, Host.Outcome.next.injEq] at h
        exact Or.inr ⟨w, e, hb, rfl, hd, h.symm⟩
  cases ht : s.todo with
  | nil =>
    by_cases hb : s.busy = true
    · rcases core hb (by simp [turn, ht, hb]) with h | h
      · exact .inl h
      · exact .inr (.inl h)
    · unfold step turn at h
      simp only [ht, hb, if_false, Bool.false_eq_true] at h
      cases hl : s.program[s.line]? with
      | none =>
        simp only [hl, Host.Outcome.next.injEq] at h
        exact .inr (.inr (.inr (.inr h.symm)))
      | some l =>
        simp only [hl, Host.Outcome.next.injEq] at h
        exact .inr (.inr (.inr (.inl ⟨l, rfl, by simpa using hb, rfl, h.symm⟩)))
  | cons m rest =>
    by_cases hw : m = .wait ∧ s.busy = true
    · obtain ⟨rfl, hb⟩ := hw
      rcases core hb (by simp [turn, ht, hb]) with h | h
      · exact .inl h
      · exact .inr (.inl h)
    · refine .inr (.inr (.inl ⟨m, rest, rfl, ?_⟩))
      have : turn s = .host m rest := by
        unfold turn
        rw [ht]
        cases m with
        | wait => simp at hw; simp [hw]
        | _ => rfl
      rw [← h, step, this]

/-- Everything a register write can do (20_memory R63, 40_control R100, R102). -/
theorem writeReg_cases (off : BitVec 16) (v : Word) (s : State) :
    (s.busy = false ∧ (writeReg off v s = issue v s ∨ writeReg off v s = { s with arg := v } ∨
      writeReg off v s = loadLength v s)) ∨
    (s.busy = true ∧ writeReg off v s = setOverrun s) ∨ writeReg off v s = s := by
  unfold writeReg
  split
  all_goals first
    | exact .inr (.inr rfl)
    | (split <;> simp_all)

/-- Everything a register read can do: it changes the host's side only (20_memory R64). -/
theorem readReg_cases (off : BitVec 16) (s : State) :
    ∃ r d, readReg off s = { s with reply := r, draws := d } := by
  unfold readReg drawWord
  split
  · exact ⟨_, _, rfl⟩
  · split <;> exact ⟨_, _, rfl⟩

/-- Everything a buffer read can do: it changes the host's side only. -/
theorem readIn_cases (i : Nat) (s : State) : ∃ r d, readIn i s = { s with reply := r, draws := d } := by
  unfold readIn drawByte
  split <;> exact ⟨_, _, rfl⟩

theorem readOut_cases (i : Nat) (s : State) : ∃ r d, readOut i s = { s with reply := r, draws := d } := by
  unfold readOut drawByte
  split
  · split <;> exact ⟨_, _, rfl⟩
  · exact ⟨_, _, rfl⟩

theorem writeIn_next {i : Nat} {b : Byte} {s t : State} (h : writeIn i b s = .next t) :
    i < s.inCap ∧ (s.busy = false ∨ s.inLen ≤ i) ∧ t = { s with inMem := Memory.write s.inMem i b } := by
  unfold writeIn at h
  split at h
  · cases h
  · split at h
    · cases h
    · rename_i h1 h2
      refine ⟨by omega, ?_, by simpa using h.symm⟩
      cases hb : s.busy
      · exact .inl rfl
      · exact .inr (by simpa [hb] using h2)

/-- Everything an access of the host that answers a next state can do. -/
theorem hostMove_next {m : HostMove} {s t : State} (h : hostMove m s = .next t) :
    (∃ l td r d, t = { s with line := l, todo := td, reply := r, draws := d }) ∨
    (∃ off v, t = writeReg off v s) ∨
    (∃ i b, i < s.inCap ∧ (s.busy = false ∨ s.inLen ≤ i) ∧ t = { s with inMem := Memory.write s.inMem i b }) ∨
    t = hardReset s := by
  have read : ∀ {u : State}, (∃ r d, u = { s with reply := r, draws := d }) → t = u →
      ∃ l td r d, t = { s with line := l, todo := td, reply := r, draws := d } := by
    rintro u ⟨r, d, rfl⟩ rfl
    exact ⟨_, _, _, _, rfl⟩
  have here : ∃ l td r d, s = { s with line := l, todo := td, reply := r, draws := d } := ⟨_, _, _, _, rfl⟩
  cases m with
  | regRead off bytes =>
    simp only [hostMove] at h
    split at h
    · exact .inl (read (readReg_cases off s) (by simpa using h.symm))
    · cases h
  | regWrite off bytes v =>
    simp only [hostMove] at h
    split at h
    · exact .inr (.inl ⟨off, v, by simpa using h.symm⟩)
    · cases h
  | regWriteReply off =>
    simp only [hostMove] at h
    split at h
    · split at h
      · cases h; exact .inl here
      · exact .inr (.inl ⟨off, _, by simpa using h.symm⟩)
    · cases h
  | inRead i =>
    simp only [hostMove] at h
    split at h
    · cases h
    · exact .inl (read (readIn_cases i s) (by simpa using h.symm))
  | inWrite i b => exact .inr (.inr (.inl ⟨i, b, writeIn_next h⟩))
  | inWriteReply i =>
    simp only [hostMove] at h
    split at h
    · cases h; exact .inl here
    · exact .inr (.inr (.inl ⟨i, _, writeIn_next h⟩))
  | outRead i =>
    simp only [hostMove] at h
    split at h
    · cases h
    · exact .inl (read (readOut_cases i s) (by simpa using h.symm))
  | outWrite i b =>
    simp only [hostMove] at h
    split at h
    · cases h
    · cases h; exact .inl here
  | wait =>
    simp only [hostMove] at h
    exact .inl (read (readReg_cases _ s) (by simpa using h.symm))
  | copyPlan =>
    simp only [hostMove] at h
    split at h
    · cases h; exact .inl here
    · cases h; exact .inl ⟨_, _, _, _, rfl⟩
  | branch hi lo v target =>
    simp only [hostMove, branchTo] at h
    split at h
    · cases h; exact .inl here
    · split at h
      · split at h
        · cases h; exact .inl ⟨_, _, _, _, rfl⟩
        · cases h
      · cases h; exact .inl here
  | hardReset => exact .inr (.inr (.inr (by simpa [hostMove] using h.symm)))

end Sys2Proof.Machine
end

