-- ==== Sys2Proof/Tests/Slice0.lean ====
section
/-! SUPPORT. Own tests: ill-formed commands, words of the encoding, one step per command with the results of
95_test_vectors, and for each statement with hypotheses a witness that meets them. -/

namespace Sys2Proof.Tests

open Sys2Proof Sys2Proof.Machine

set_option Elab.async false

/-! ### Helpers -/

/-- The state after reset for MAGIC = 0x12345678 and given capacities (95_test_vectors, conventions). -/
def caps (inCap outCap : Nat) : State := State.resetWith 0x12345678 inCap outCap

/-- A small machine: 64-byte buffers. -/
def base : State := caps 64 64

/-- The bytes as a buffer from index 0. -/
def buffer (bytes : List Byte) : Memory := bytes.mapIdx fun i b => (i, b)

/-- A state with its input loaded. -/
def load (bytes : List Byte) (s : State) : State := { s with inMem := buffer bytes, inLen := bytes.length, inPos := 0 }

/-- "aaab". -/
def aaab : List Byte := [0x61, 0x61, 0x61, 0x62]

/-- C("aaab") (95_test_vectors section 2.4). -/
def packed : List Byte := [0x12, 0x34, 0x56, 0x78, 0x4C, 0x2C, 0x02, 0x62, 0x1C]

/-- The tree of "aaab" (95_test_vectors section 2.3). -/
def tree : Tree := .node 5 (.leaf 97 3) (.node 2 (.leaf 256 1) (.leaf 98 1))

/-- A state that holds the tree of "aaab" and its codes. -/
def trained (s : State) : State := installCodes (codesOf tree) (installTree (some tree) 5 s)

/-- The answer is a next state. -/
def goesOn (o : Host.Outcome State Fault Refusal) : Bool :=
  match o with
  | .next _ => true
  | _ => false

/-- The next state an answer holds. -/
def stateOf (o : Host.Outcome State Fault Refusal) : State :=
  match o with
  | .next s => s
  | _ => base

theorem eq_next {o : Host.Outcome State Fault Refusal} (h : goesOn o = true) : o = .next (stateOf o) := by
  cases o <;> first | rfl | cases h

/-- The state after a command. -/
def after (i : Instr) (s : State) : State := stateOf (exec i s)

theorem exec_after {i : Instr} {s : State} (h : goesOn (exec i s) = true) : exec i s = .next (after i s) := eq_next h

/-! ### Well-formedness and decoding -/

theorem test_ill_formed_counts :
    (Instr.rdbits 0).wellFormed = false ∧ (Instr.rdbits 33).wellFormed = false ∧
    (Instr.wrbits 0).wellFormed = false ∧ (Instr.wrbits 33).wellFormed = false ∧
    (Instr.rdbits 1).wellFormed = true ∧ (Instr.wrbits 32).wellFormed = true := by decide

/-- 30_encoding R83 and 95_test_vectors section 2.1. -/
theorem test_words :
    decode 0b00000000000000000000000000000000 = .ok .nop ∧ decode 0b00000000000000000000000000000001 = .ok .srst ∧
    decode 0b00000000000000000010000000010000 = .ok (.rdbits 32) ∧
    decode 0b00000000000000000000001100010001 = .ok (.wrbits 3) ∧
    decode 0b00000000000000000000000000101111 = .ok .compress ∧
    decode 0b00000000000000000000000000111111 = .ok .decompress := by decide

theorem test_illegal_words :
    decode 0x00000010 = .error .badCount ∧ decode 0x00002110 = .error .badCount ∧
    decode 0x00003F11 = .error .badCount ∧ decode 0x00004810 = .error .reservedBits ∧
    decode 0x00000120 = .error .reservedBits ∧ decode 0x80000000 = .error .reservedBits ∧
    decode 0x00000002 = .error .reservedOpcode ∧ decode 0x00000015 = .error .reservedOpcode ∧
    decode 0x00000025 = .error .reservedOpcode ∧ decode 0x00000033 = .error .reservedOpcode ∧
    decode 0x0000003E = .error .reservedOpcode ∧ decode 0x00000040 = .error .reservedOpcode ∧
    decode 0x000000FF = .error .reservedOpcode := by decide

theorem test_table_words :
    decodeTableWord 32 0x2010 = some (.rdbits 32) ∧ decodeTableWord 32 0x110 = some (.rdbits 1) ∧
    decodeTableWord 32 0x10 = none ∧ decodeTableWord 8 0x20 = some .count := by decide

theorem test_assembler :
    assemble "RDBITS 32" = some 0x2010 ∧ assemble "COMPRESS" = some 0x2F ∧ assemble "RDBITS 33" = none ∧
    disassemble 0x2110 = ".word 0x00002110" ∧ disassemble 0x311 = "WRBITS 3" := by decide +kernel

theorem test_fetch_word : step (base.withFetchWord 32 0x24) = exec .encode (withPending 0x24 base) := by rfl

/-! ### One step per command -/

theorem test_nop : (after .nop base).statusWord = 0x2 := by decide +kernel
theorem test_srst :
    (after .srst (trained (load aaab base))).statusWord = 0x2 ∧ (after .srst (load aaab base)).inLen = 4 := by
  decide +kernel

/-- IN = DE AD BE EF 01: RDBITS 32. -/
theorem test_rdbits_32 :
    (after (.rdbits 32) (load [0xDE, 0xAD, 0xBE, 0xEF, 0x01] base)).result = 0xDEADBEEF ∧
    (after (.rdbits 32) (load [0xDE, 0xAD, 0xBE, 0xEF, 0x01] base)).inPos = 32 := by decide +kernel
theorem test_rdbits_end : (after (.rdbits 1) base).statusWord = 0xA ∧ (after (.rdbits 1) base).result = 0xFFFFFFFF := by
  decide +kernel

/-- OUT_CAP = 1, ARG 0xABC, WRBITS 12. -/
theorem test_wrbits_overflow :
    (after (.wrbits 12) { caps 1 1 with arg := 0xABC }).outMem = [(0, 0xAB)] ∧
    (after (.wrbits 12) { caps 1 1 with arg := 0xABC }).statusWord = 0x906 := by decide +kernel
theorem test_wrbits_low_bits :
    (after (.wrbits 4) { base with arg := 0xFF3, outMem := [(0, 0xA0)], outBits := 3 }).outMem = [(0, 0xA6)] := by
  decide +kernel

theorem test_rstin : (after .rstin { load aaab base with inPos := 32 }).inPos = 0 := by decide +kernel
theorem test_close :
    (after .close { base with outMem := [(0, 0xA7), (1, 0x84)], outBits := 15 }).outBits = 16 ∧
    (after .close { base with outMem := [(0, 0xA7), (1, 0x84)], outBits := 15 }).statusWord = 0x42 := by decide +kernel
theorem test_outclr : (after .outclr { base with outBits := 16, outClosed := true }).statusWord = 0x2 := by
  decide +kernel

/-- 61 62 from bit 4 on. -/
theorem test_count_unaligned :
    (after .count { load [0x61, 0x62] base with inPos := 4 }).freq[0x16] = 1 ∧
    (after .count { load [0x61, 0x62] base with inPos := 4 }).inPos = 12 := by decide +kernel
theorem test_count_unwritten_input : exec .count { base with inLen := 1 } = .fault .unwrittenInput := by rfl

theorem test_build :
    (after .build (after .count (load aaab base))).tree = some tree ∧
    (after .build (after .count (load aaab base))).nodes = 5 := by decide +kernel
theorem test_build_empty : (after .build base).tree = some (.node 1 (.leaf 256 1) (.leaf 0 0)) := by decide +kernel

theorem test_gencodes :
    (after .gencodes (installTree (some tree) 5 base)).codes[0x61] = some [false] ∧
    (after .gencodes (installTree (some tree) 5 base)).codes[0x62] = some [true, true] ∧
    (after .gencodes (installTree (some tree) 5 base)).codes[256] = some [true, false] := by decide +kernel
theorem test_gencodes_duplicate :
    (after .gencodes (installTree (some (.node 0 (.leaf 97 0) (.leaf 97 0))) 3 base)).codes[97] = some [true] := by
  decide +kernel

theorem test_wrhdr :
    (after .wrhdr (installTree (some tree) 5 base)).outMem = buffer [0x4C, 0x2C, 0x02, 0x62] ∧
    (after .wrhdr (installTree (some tree) 5 base)).outClosed = false := by decide +kernel

theorem test_encode :
    (after .encode (trained (load aaab base))).outMem = buffer packed ∧
    (after .encode (trained (load aaab base))).statusWord = 0x72 := by decide +kernel
theorem test_encode_no_code :
    (after .encode (trained (load [0x61, 0x61, 0x63] base))).outBits = 66 ∧
    (after .encode (trained (load [0x61, 0x61, 0x63] base))).statusWord = 0x636 := by decide +kernel

theorem test_compress :
    (after .compress (load aaab base)).outMem = buffer packed ∧
    (after .compress (load aaab base)).statusWord = 0x72 := by decide +kernel
theorem test_compress_empty :
    (after .compress base).outMem = buffer [0x12, 0x34, 0x56, 0x78, 0x60, 0x10, 0x00] := by decide +kernel

theorem test_chkmagic_short : (after .chkmagic (load [0x12, 0x34, 0x56] base)).statusWord = 0x106 := by decide +kernel

theorem test_rdhdr :
    (after .rdhdr (load [0x4C, 0x2C, 0x02, 0x62] base)).tree = some tree.unweighted ∧
    (after .rdhdr (load [0x4C, 0x2C, 0x02, 0x62] base)).inPos = 32 := by decide +kernel

/-- 0 1 [300]: BAD_SYMBOL with IN_POS 43 after the magic number, 11 without it. -/
theorem test_rdhdr_bad_symbol :
    (after .rdhdr (load [0x65, 0x80] base)).statusWord = 0x706 ∧ (after .rdhdr (load [0x65, 0x80] base)).inPos = 11 := by
  decide +kernel

theorem test_decode_no_tree : (after .decode base).statusWord = 0x506 := by decide +kernel
theorem test_decode_payload :
    (after .decode (trained (load [0x1C] base))).outMem = buffer aaab ∧
    (after .decode (trained (load [0x1C] base))).inPos = 7 := by decide +kernel

theorem test_decompress :
    (after .decompress (load packed base)).outMem = buffer aaab ∧
    (after .decompress (load packed base)).statusWord = 0x52 := by decide +kernel
theorem test_decompress_truncated :
    (after .decompress (load (packed.take 6) base)).inPos = 45 ∧
    (after .decompress (load (packed.take 8) base)).statusWord = 0x316 := by decide +kernel

/-! ### Witnesses: states and operands that meet the hypotheses of each statement, clause by clause -/

theorem wit_DecodeOfEncodeIsTheCommand :
    (Instr.rdbits 1).wellFormed = true ∧ (Instr.rdbits 32).wellFormed = true ∧ (Instr.wrbits 1).wellFormed = true ∧
    (Instr.wrbits 32).wellFormed = true ∧ Instr.compress.wellFormed = true := by decide

theorem wit_EncodeOfDecodeIsTheWord :
    decode 0x2010 = .ok (.rdbits 32) ∧ decode 0x111 = .ok (.wrbits 1) ∧ decode 0x3F = .ok .decompress := by decide

theorem wit_LegalWordsSelectExactlyOneCommand :
    legal 0x2010 = true ∧ legal 0x110 = true ∧ legal 0x2F = true ∧ legal 0x2110 = false ∧ legal 0x10 = false := by
  decide

theorem wit_IllegalWordOnlyReports :
    CoreNext (withPending 0x2110 base) ∧ (withPending 0x2110 base).pending = some 0x2110 ∧
    [0x2, 0xF, 0x15, 0x1F, 0x25, 0x2E, 0x33, 0x3E, 0x40, 0xFF, 0x4000, 0x4810, 0x10, 0x11, 0x2110, 0x120].all
      (fun w => legal (BitVec.ofNat 32 w) = false) = true := by decide +kernel

theorem wit_StepRunsDecodedInstruction :
    CoreNext (withPending 0x2F base) ∧ CoreNext { withPending 0x2F base with todo := [.wait, .inRead 0] } ∧
    (withPending 0x2F base).pending = some 0x2F ∧ decode 0x2F = .ok .compress := by decide +kernel

/-- A machine with a program of one line. -/
def oneLine (l : HostLine) : State := { base with program := [l] }

theorem wit_StepOtherwiseServesTheHost :
    ({ withPending 0x2F base with todo := [.inRead 0] }).todo = .inRead 0 :: [] ∧ HostMove.inRead 0 ≠ .wait ∧
    ({ base with todo := [.wait] }).todo = .wait :: [] ∧ base.busy = false ∧
    (oneLine .wait).todo = [] ∧ (oneLine .wait).busy = false ∧
    (oneLine .wait).program[(oneLine .wait).line]? = some .wait ∧ RunOver base := by decide +kernel

theorem wit_HardResetClearsTheBlock :
    ({ trained base with todo := [.hardReset, .wait] }).todo = .hardReset :: [.wait] := by rfl

/-- A machine whose host makes the moves, with BUSY as given. -/
def moving (busy : Bool) (ms : List HostMove) : State := { base with busy := busy, todo := ms }

theorem wit_CommandIssueLatchesTheWord :
    (moving false [.regWrite Reg.cmd.offset 4 0x2F, .wait]).busy = false ∧
    (moving true [.regWrite Reg.cmd.offset 4 0x2F, .wait]).busy = true ∧
    (moving true [.regWrite Reg.cmd.offset 4 0x2F, .wait]).todo = .regWrite Reg.cmd.offset 4 0x2F :: [.wait] := by
  decide +kernel

theorem wit_ArgWriteWaitsForBusyToClear :
    (moving false [.regWrite 0x008 4 7]).busy = false ∧ (moving true [.regWrite 0x008 4 7]).busy = true ∧
    (moving true [.regWrite 0x008 4 7]).todo = .regWrite 0x008 4 7 :: [] := by decide +kernel

/-- IN_LEN writes of IN_CAP and of IN_CAP + 1. -/
theorem wit_LengthWriteClampsAndRewinds :
    (moving false [.regWrite 0x010 4 64]).todo = .regWrite 0x010 4 64 :: [] ∧
    (moving false [.regWrite 0x010 4 65]).busy = false ∧ (moving true [.regWrite 0x010 4 65]).busy = true ∧
    (moving true [.regRead 0x010 4]).todo = .regRead 0x010 4 :: [] ∧ base.inLen < 2 ^ 32 := by decide +kernel

/-- The read-only offset 0x004 and the ends of the reserved ranges. -/
theorem wit_ReservedAndReadOnlyOffsetsIgnoreWrites :
    ((0x004 : BitVec 16) ≠ 0x000 ∧ (0x004 : BitVec 16) ≠ 0x008 ∧ (0x004 : BitVec 16) ≠ 0x010) ∧
    (moving false [.regWrite 0x004 4 1]).todo = .regWrite 0x004 4 1 :: [] ∧
    [0x02C, 0x3FC, 0x804, 0xFFC, 0x1404, 0x1FFC, 0x4020, 0xFFFC].all (fun o : BitVec 16 => o.toNat % 4 = 0 ∧
      ((0x02C ≤ o.toNat ∧ o.toNat ≤ 0x3FC) ∨ (0x804 ≤ o.toNat ∧ o.toNat ≤ 0xFFC) ∨
        (0x1404 ≤ o.toNat ∧ o.toNat ≤ 0x1FFC) ∨ 0x4020 ≤ o.toNat)) = true ∧
    (moving true [.regRead 0xFFFC 4]).todo = .regRead 0xFFFC 4 :: [] := by decide +kernel

theorem wit_OnlyAlignedWordAccessesGoThrough :
    (moving true [.regRead 0xFFFC 4]).todo = .regRead 0xFFFC 4 :: [] ∧ (0xFFFC : BitVec 16).toNat % 4 = 0 ∧
    (moving true [.regWrite 0x002 4 0]).todo = .regWrite 0x002 4 0 :: [] ∧ ¬ (0x002 : BitVec 16).toNat % 4 = 0 ∧
    (moving true [.regRead 0x000 2]).todo = .regRead 0x000 2 :: [] ∧ ¬ (2 = 4) := by decide +kernel

theorem wit_HostReadsFollowTheMap :
    (moving false [.regRead (Reg.codeBits 256 7).offset 4]).busy = false ∧
    (moving true [.regRead Reg.inLen.offset 4]).busy = true ∧
    Reg.inLen ∈ [Reg.status, .cmd, .arg, .inLen, .magic, .inCap, .outCap] ∧
    Reg.freq 0 ∉ [Reg.status, .cmd, .arg, .inLen, .magic, .inCap, .outCap] ∧
    (moving true [.outRead 63]).todo = .outRead 63 :: [] ∧ 63 < (moving true [.outRead 63]).outCap ∧
    (let s := { moving false [.outRead 63] with outMem := [(63, 0x80)], outBits := 505 }
     s.busy = false ∧ 63 < s.outCap ∧ 8 * 63 < s.outBits ∧ Memory.read s.outMem 63 = some 0x80) := by decide +kernel

theorem wit_CodeRegistersShowTheCode :
    (trained base).codes[98] = some [true, true] ∧ [true, true].length < 512 ∧ (trained base).codes[0] = none := by
  decide +kernel

theorem wit_LoadinLoadsTheInput :
    let s := oneLine (.loadin aaab)
    s.todo = [] ∧ s.busy = false ∧ s.program[s.line]? = some (.loadin aaab) ∧ aaab.length ≤ s.inCap ∧
      s.inCap ≤ Config.maxCap := by decide +kernel

theorem wit_CommandLineRunsTheCommand :
    let s := oneLine (.command 0x2F)
    s.todo = [] ∧ s.busy = false ∧ s.program[s.line]? = some (.command 0x2F) ∧ decode 0x2F = .ok .compress ∧
      goesOn (exec .compress { s with
        line := s.line + 1, todo := [.wait], pending := some 0x2F, cmdLast := 0x2F, busy := true, done := false,
        err := false, errCode := .none }) = true := by decide +kernel

theorem wit_NopAcknowledgesAnError :
    let s := { moving false [.regWrite 0x000 4 0, .wait] with err := true, errCode := .truncatedStream }
    s.busy = false ∧ s.todo = .regWrite 0x000 4 0 :: .wait :: [] := by decide +kernel

/-- 32 bits of 4 bytes, and the last 31 bits. -/
theorem wit_RdbitsReadsTheNextBits :
    let s := load [0xDE, 0xAD, 0xBE, 0xEF] base
    1 ≤ (32 : BitVec 6).toNat ∧ (32 : BitVec 6).toNat ≤ 32 ∧ s.inPos + (32 : BitVec 6).toNat ≤ 8 * s.inLen ∧
    (∀ k, k < (32 : BitVec 6).toNat → (Memory.bit s.inMem (s.inPos + k)).isSome = true) ∧
    8 * s.inLen < ({ s with inPos := 1 } : State).inPos + (32 : BitVec 6).toNat := by decide +kernel

theorem wit_PackedFieldsReadBack :
    let s := load [0xDE, 0xAD, 0xBE, 0xEF] base
    1 ≤ 32 ∧ s.inPos + 32 ≤ 8 * s.inLen ∧
    (∀ k, k < 32 → Memory.bit s.inMem (s.inPos + k) = some (Nat.testBit 0xDEADBEEF (32 - 1 - k))) := by decide +kernel

theorem wit_WrbitsAppendsTheLowBitsOfArg :
    1 ≤ (32 : BitVec 6).toNat ∧ (32 : BitVec 6).toNat ≤ 32 ∧ (caps 4 4).outClosed = false ∧
    (caps 4 4).outBits + (32 : BitVec 6).toNat ≤ 8 * (caps 4 4).outCap := by decide +kernel

theorem wit_WrbitsErrorsKeepTheBitsThatFit :
    ({ base with outClosed := true } : State).outClosed = true ∧ (caps 0 0).outClosed = false ∧
    (caps 0 0).outBits ≤ 8 * (caps 0 0).outCap ∧
    8 * (caps 0 0).outCap < (caps 0 0).outBits + (1 : BitVec 6).toNat := by decide +kernel

theorem wit_StreamControlCommands :
    base.outClosed = false ∧ ({ base with outClosed := true } : State).outClosed = true := by decide +kernel

theorem wit_CountTalliesFromTheCursor :
    InputWritten (load aaab base) ∧ (load aaab base).inLen ≤ Config.maxCap ∧ InputWritten base := by decide +kernel

theorem wit_CountFromTheStartCountsTheBytes :
    Loaded aaab (load aaab base) ∧ (load aaab base).inPos = 0 ∧ (load aaab base).inLen ≤ Config.maxCap ∧
    Loaded [] base := by decide +kernel

/-- A structure with a tie of weights, and BUILD's entries for "aaab". -/
theorem wit_ExtractMinTakesTheLeastKey :
    let q : List Entry := [⟨.leaf 98 1, 98⟩, ⟨.leaf 256 1, 256⟩, ⟨.leaf 97 3, 97⟩]
    q ≠ [] ∧ q.Pairwise KeyLt ∧ ∀ x ∈ q, x.seq < 257 := by decide +kernel

/-- The order tells a swap: at equal weight the smaller seq is less, and not the greater. -/
theorem test_key_order_breaks_ties :
    KeyLt ⟨.leaf 98 1, 98⟩ ⟨.leaf 256 1, 256⟩ ∧ ¬ KeyLt ⟨.leaf 256 1, 256⟩ ⟨.leaf 98 1, 98⟩ := by decide +kernel

theorem wit_GencodesRecordsTheLastPath :
    (trained base).treeValid = true ∧ (trained base).tree = some tree := by decide +kernel

theorem wit_CodesArePrefixFreeAndComplete :
    (trained base).treeValid = true ∧ (trained base).tree = some tree ∧ tree.symbols.Nodup ∧
    exec .gencodes (trained base) = .next (after .gencodes (trained base)) ∧ tree.isNode = true ∧
    tree.size ≤ Config.nodeCap ∧
    (after .gencodes (trained base)).codes[97] = some [false] := by
  refine ⟨?_, ?_, ?_, exec_after ?_, ?_, ?_, ?_⟩ <;> decide +kernel

theorem wit_HeaderLengthIsElevenPerLeaf :
    exec .build base = .next (after .build base) ∧
    (after .build base).tree = some (.node 1 (.leaf 256 1) (.leaf 0 0)) :=
  ⟨exec_after (by decide +kernel), by decide +kernel⟩

/-- The header of "aaab", 32 bits, in 4 bytes. -/
theorem wit_WrhdrAppendsTheHeader :
    let s := trained (caps 4 4)
    s.treeValid = true ∧ s.tree = some tree ∧ s.outClosed = false ∧
    s.outBits + (11 * tree.leaves - 1) ≤ 8 * s.outCap := by decide +kernel

/-- C("aaab"), 71 bits, in 9 bytes. -/
theorem wit_EncodeAppendsTheCompressedStream :
    let s := trained (load aaab (caps 4 9))
    let p := [false, false, false, true, true, true, false]
    s.treeValid = true ∧ s.tree = some tree ∧ s.codesValid = true ∧ s.outClosed = false ∧ Loaded aaab s ∧
    payload s.codes aaab = some p ∧ s.outBits + (32 + (11 * tree.leaves - 1) + p.length) ≤ 8 * s.outCap := by
  decide +kernel

/-- "aac" under the codes of "aaab". -/
theorem wit_EncodeStopsAtAByteWithoutACode :
    let s := trained (load [0x61, 0x61, 0x63] base)
    s.treeValid = true ∧ s.tree = some tree ∧ s.codesValid = true ∧ s.outClosed = false ∧
    Loaded ([0x61, 0x61] ++ 0x63 :: []) s ∧
    [0x61, 0x61].map (fun b : Byte => s.codes[(byteSymbol b.toNat).val]) = [[false], [false]].map some ∧
    s.codes[(byteSymbol (0x63 : Byte).toNat).val] = none ∧
    s.outBits + (32 + (11 * tree.leaves - 1) + [[false], [false]].flatten.length) ≤ 8 * s.outCap := by decide +kernel

/-- "aaab" with room for exactly 9 bytes, and the empty input. -/
theorem wit_CompressWritesTheStream :
    Loaded aaab (load aaab (caps 4 9)) ∧ (load aaab (caps 4 9)).inLen ≤ Config.maxCap ∧
    32 + (11 * tree.leaves - 1) + 7 ≤ 8 * (load aaab (caps 4 9)).outCap ∧ Loaded [] base := by decide +kernel

theorem wit_CompressFailsOnlyByOverflow :
    InputWritten (load aaab (caps 4 5)) ∧ (load aaab (caps 4 5)).inLen ≤ Config.maxCap ∧
    InputWritten (load aaab (caps 4 518)) ∧
    32 + 2826 + 256 * ((load aaab (caps 4 518)).inLen + 1) ≤ 8 * (load aaab (caps 4 518)).outCap := by decide +kernel

/-- The six steps of a run of steps. -/
def steps (is : List Instr) (s : State) : State := stateOf (execAll is s)

theorem wit_CompositesEqualTheirSteps :
    (load aaab base).err = false ∧
    execAll [.outclr, .rstin, .count, .build, .gencodes, .encode] (load aaab base) =
      .next (steps [.outclr, .rstin, .count, .build, .gencodes, .encode] (load aaab base)) ∧
    (steps [.outclr, .rstin, .count, .build, .gencodes, .encode] (load aaab base)).err = false ∧
    execAll [.outclr, .rstin, .chkmagic, .rdhdr, .decode, .close] (load packed base) =
      .next (steps [.outclr, .rstin, .chkmagic, .rdhdr, .decode, .close] (load packed base)) ∧
    (steps [.outclr, .rstin, .chkmagic, .rdhdr, .decode, .close] (load packed base)).err = false := by
  refine ⟨?_, eq_next ?_, ?_, eq_next ?_, ?_⟩ <;> decide +kernel

theorem wit_ChkmagicAcceptsOnlyMagic :
    8 * (load [0x12, 0x34, 0x56] base).inLen < (load [0x12, 0x34, 0x56] base).inPos + 32 ∧
    (let s := load [0x12, 0x34, 0x56, 0x78] base
     s.inPos + 32 ≤ 8 * s.inLen ∧ Holds s.inMem s.inPos (field 32 (0x12345678 : Word).toNat) ∧
       (0x12345678 : Word) = s.magic) ∧
    (let s := load [0x92, 0x34, 0x56, 0x78] base
     s.inPos + 32 ≤ 8 * s.inLen ∧ Holds s.inMem s.inPos (field 32 (0x92345678 : Word).toNat) ∧
       (0x92345678 : Word) ≠ s.magic) := by decide +kernel

theorem wit_RdhdrRebuildsTheTree :
    let s := load [0x4C, 0x2C, 0x02, 0x62] base
    tree.isNode = true ∧ tree.size ≤ Config.nodeCap ∧ s.inPos + (header tree).length ≤ 8 * s.inLen ∧
    Holds s.inMem s.inPos (header tree) := by decide +kernel

theorem wit_RdhdrAcceptsOnlyBoundedFullTrees :
    InputWritten (load [0x4C, 0x2C, 0x02, 0x62] base) ∧
    (load [0x4C, 0x2C, 0x02, 0x62] base).inPos ≤ 8 * (load [0x4C, 0x2C, 0x02, 0x62] base).inLen := by decide +kernel

/-- The lone leaf of 256; the bad symbols 257 at the root, and 300 and 511 below an Internal node; an empty stream; a symbol field of 6 bits (95_test_vectors section 2.4). -/
theorem wit_RdhdrRefusesLoneLeavesAndBadSymbols :
    ((load [0xC0, 0x00] base).inPos + 10 ≤ 8 * (load [0xC0, 0x00] base).inLen ∧
      Holds (load [0xC0, 0x00] base).inMem 0 (true :: field 9 256)) ∧
    (tagsBefore [] < 513 ∧ 0 + (headerBefore []).length + 10 ≤ 8 * (load [0xC0, 0x40] base).inLen ∧
      Holds (load [0xC0, 0x40] base).inMem 0 (headerBefore [] ++ true :: field 9 257)) ∧
    (tagsBefore [none] < 513 ∧ 0 + (headerBefore [none]).length + 10 ≤ 8 * (load [0x65, 0x80] base).inLen ∧
      Holds (load [0x65, 0x80] base).inMem 0 (headerBefore [none] ++ true :: field 9 300)) ∧
    (tagsBefore [some (.leaf 97 0)] < 513 ∧
      0 + (headerBefore [some (.leaf 97 0)]).length + 10 ≤ 8 * (load [0x4C, 0x3F, 0xF8] base).inLen ∧
      Holds (load [0x4C, 0x3F, 0xF8] base).inMem 0 (headerBefore [some (.leaf 97 0)] ++ true :: field 9 511)) ∧
    (tagsBefore [] ≤ 513 ∧ base.inPos + (headerBefore []).length = 8 * base.inLen ∧
      Holds base.inMem base.inPos (headerBefore [])) ∧
    (let s := load [0x4C] base
     tagsBefore [none] < 513 ∧ s.inPos + (headerBefore [none]).length + 1 ≤ 8 * s.inLen ∧
       8 * s.inLen < s.inPos + (headerBefore [none]).length + 10 ∧
       Holds s.inMem s.inPos (headerBefore [none] ++ [true])) := by decide +kernel

theorem headerBefore_lefts (n : Nat) : headerBefore (List.replicate n none) = List.replicate n false := by
  induction n with
  | zero => rfl
  | succ n ih => simp [List.replicate_succ, headerBefore, ih]

/-- 514 tags of Internal nodes, in 65 zero bytes. -/
theorem wit_header_overflow :
    let path : List (Option Tree) := List.replicate 513 none
    let s := load (List.replicate 65 0x00) base
    tagsBefore path = 513 ∧ s.inPos + (headerBefore path).length + 1 ≤ 8 * s.inLen ∧
      Holds s.inMem s.inPos (headerBefore path ++ [false]) := by
  refine ⟨by decide +kernel, by rw [headerBefore_lefts]; decide +kernel, fun k hk => ?_⟩
  have zero : ∀ k, k < 514 → Memory.bit (load (List.replicate 65 0x00) base).inMem (0 + k) = some false := by
    decide +kernel
  have happ : List.replicate 513 false ++ [false] = List.replicate 514 false := List.replicate_succ'.symm
  simp only [headerBefore_lefts, happ, List.length_replicate, List.getElem_replicate] at hk ⊢
  exact zero k hk

/-- The paths of the bytes of "aaab". -/
def aaabPaths : List (Symbol × List Bool) :=
  [(97, [false]), (97, [false]), (97, [false]), (98, [true, true])]

theorem wit_DecodeEmitsTheCodedBytes :
    let s := trained (load [0x1C] (caps 1 4))
    s.treeValid = true ∧ s.tree = some tree ∧ tree.isNode = true ∧ (∀ x ∈ aaabPaths, x ∈ tree.paths ∧ x.1 ≠ 256) ∧
    (256, [true, false]) ∈ tree.paths ∧
    s.inPos + ((aaabPaths.map (·.2)).flatten ++ [true, false]).length ≤ 8 * s.inLen ∧
    Holds s.inMem s.inPos ((aaabPaths.map (·.2)).flatten ++ [true, false]) ∧ s.outClosed = false ∧
    s.outBits + 8 * aaabPaths.length ≤ 8 * s.outCap := by decide +kernel

/-- Seven a's and the first bit of the end-marker's code. -/
theorem wit_DecodeReportsATruncatedStream :
    let s := trained (load [0x01] base)
    let xs := List.replicate 7 ((97, [false]) : Symbol × List Bool)
    s.treeValid = true ∧ s.tree = some tree ∧ tree.isNode = true ∧ (∀ x ∈ xs, x ∈ tree.paths ∧ x.1 ≠ 256) ∧
    (256, [true] ++ [false]) ∈ tree.paths ∧ [false] ≠ [] ∧
    s.inPos + ((xs.map (·.2)).flatten ++ [true]).length = 8 * s.inLen ∧
    Holds s.inMem s.inPos ((xs.map (·.2)).flatten ++ [true]) ∧ s.outClosed = false ∧
    s.outBits + 8 * xs.length ≤ 8 * s.outCap := by decide +kernel

theorem wit_DecompressReadsTheStream :
    let s := load packed (caps 9 4)
    tree.isNode = true ∧ tree.size ≤ Config.nodeCap ∧ (∀ x ∈ aaabPaths, x ∈ tree.paths ∧ x.1 ≠ 256) ∧
    (256, [true, false]) ∈ tree.paths ∧
    32 + (header tree).length + ((aaabPaths.map (·.2)).flatten ++ [true, false]).length ≤ 8 * s.inLen ∧
    Holds s.inMem 0 (field 32 s.magic.toNat ++ header tree ++ ((aaabPaths.map (·.2)).flatten ++ [true, false])) ∧
    aaabPaths.length ≤ s.outCap := by decide +kernel

theorem wit_DecompressChecksTheMagicFirst :
    (load [0x12, 0x34, 0x56] base).inLen < 4 ∧
    Holds (load [0x92, 0x34, 0x56, 0x78] base).inMem 0 (field 32 (0x92345678 : Word).toNat) ∧
    (0x92345678 : Word) ≠ (load [0x92, 0x34, 0x56, 0x78] base).magic := by decide +kernel

theorem wit_DecompressInvertsCompress :
    let s := load aaab base
    let t := after .compress s
    let u := load packed (caps 9 4)
    Loaded aaab s ∧ s.err = false ∧ exec .compress s = .next t ∧ t.err = false ∧ u.magic = s.magic ∧
    8 * u.inLen = t.outBits ∧ (∀ i, i < u.inLen → Memory.read u.inMem i = Memory.read t.outMem i) ∧
    aaab.length ≤ u.outCap := by
  refine ⟨?_, ?_, exec_after ?_, ?_, ?_, ?_, ?_, ?_⟩ <;> decide +kernel

/-- "aaab" cut after 3, 4, 7 and 8 bytes. -/
theorem wit_EveryTruncationIsReported :
    let s := load aaab base
    let t := after .compress s
    Loaded aaab s ∧ s.err = false ∧ exec .compress s = .next t ∧ t.err = false ∧ t.tree = some tree ∧
    (∀ j ∈ [3, 4, 7, 8], let u := load (packed.take j) base
      u.magic = s.magic ∧ 8 * u.inLen < t.outBits ∧
      (∀ i, i < u.inLen → Memory.read u.inMem i = Memory.read t.outMem i) ∧ aaab.length ≤ u.outCap) ∧
    (load (packed.take 3) base).inLen < 4 ∧ 4 ≤ (load (packed.take 4) base).inLen ∧
    8 * (load (packed.take 7) base).inLen < 32 + (11 * tree.leaves - 1) ∧
    32 + (11 * tree.leaves - 1) ≤ 8 * (load (packed.take 8) base).inLen := by
  refine ⟨?_, ?_, exec_after ?_, ?_, ?_, ?_, ?_, ?_, ?_, ?_⟩ <;> decide +kernel

theorem wit_MissingTreeOrCodesReportsSequence :
    base.treeValid = false ∧ (installTree (some tree) 5 base).treeValid = true ∧
    (installTree (some tree) 5 base).codesValid = false := by decide +kernel

theorem wit_EveryCommandCompletes :
    goesOn (exec .count (load aaab base)) = true ∧ goesOn (exec .count { base with inLen := 1 }) = false := by
  decide +kernel

theorem wit_CommandsReportOnlyTheirErrors :
    let s := load [0x12, 0x34, 0x56] base
    Instr.chkmagic.wellFormed = true ∧ s.inLen ≤ Config.maxCap ∧ s.err = false ∧ s.errCode = .none ∧
    exec .chkmagic s = .next (after .chkmagic s) ∧ (after .chkmagic s).err = true ∧
    exec .rstin s = .next (after .rstin s) ∧ (after .rstin s).err = false := by
  refine ⟨?_, ?_, ?_, ?_, exec_after ?_, ?_, exec_after ?_, ?_⟩ <;> decide +kernel

theorem wit_CommandsLeaveTheHostsStateAlone :
    exec .compress (load aaab base) = .next (after .compress (load aaab base)) := exec_after (by decide +kernel)

theorem wit_EachRegisterHasItsWriters :
    exec .close base = .next (after .close base) ∧ Instr.close ≠ .srst ∧ (∀ n, Instr.close ≠ .rdbits n) ∧
    Instr.close ∉ [Instr.count, .compress, .srst] ∧
    Instr.close ∉ [Instr.build, .rdhdr, .compress, .decompress, .srst] ∧
    Instr.close ∉ [Instr.gencodes, .build, .rdhdr, .compress, .decompress, .srst] ∧
    Instr.rstin ∉ [Instr.srst, .close, .outclr, .wrhdr, .encode, .compress, .decode, .decompress] ∧
    (∀ n, Instr.rstin ≠ .wrbits n) ∧
    Instr.close ∉ [Instr.srst, .rstin, .count, .encode, .compress, .chkmagic, .rdhdr, .decode, .decompress] :=
  ⟨exec_after (by decide +kernel), by decide, by simp, by decide, by decide, by decide, by decide, by simp, by decide⟩

/-! ### The invariants hold somewhere, with a step from there -/

theorem base_streams : StreamsOk base := by constructor <;> decide +kernel

theorem base_report : ReportOk base := by constructor <;> decide +kernel

theorem base_tables : TablesOk base :=
  ⟨rfl, fun _ h => (by cases h), fun _ => rfl, fun h => (by cases h), fun _ => rfl⟩

theorem base_counts : CountsOk base := by constructor <;> decide +kernel

/-- Premises of StepKeepsStreamsInBounds, StepKeepsTheReportConsistent, StepKeepsTheTablesConsistent,
StepKeepsTheMachineInvariant and StepKeepsTheParameters. -/
theorem wit_StepKeepsTheMachineInvariant : base.Inv ∧ step base = .next base :=
  ⟨⟨base_streams, base_report, base_tables, base_counts⟩, rfl⟩

/-- The reset memories are in canonical form. -/
theorem test_reset_memories : Memory.wf State.reset.inMem ∧ Memory.wf State.reset.outMem :=
  ⟨List.Pairwise.nil, List.Pairwise.nil⟩

end Sys2Proof.Tests
end

section
/-! SUPPORT. Register accesses of the host as steps, and the registers right after hardware reset. -/

namespace Sys2Proof.Machine

/-! ### One access of the host as a step -/

/-- A queued access is the next step, but for a WAIT while the core is busy (log 3). -/
theorem step_of_todo {s : State} {m : HostMove} {rest : List HostMove} (h : s.todo = m :: rest)
    (hm : m ≠ .wait ∨ s.busy = false) : step s = hostMove m { s with todo := rest } := by
  have ht : turn s = .host m rest := by
    unfold turn
    rw [h]
    cases m with
    | wait => exact if_neg (by simpa using hm)
    | _ => rfl
  rw [step, ht]

theorem legalAccess_four {off : BitVec 16} (ha : off.toNat % 4 = 0) : legalAccess off 4 = true := by
  simp [legalAccess, ha]

/-- An aligned 32-bit register write goes through (20_memory R62). -/
theorem step_of_regWrite {s : State} {off : BitVec 16} {v : Word} {rest : List HostMove}
    (h : s.todo = .regWrite off 4 v :: rest) (ha : off.toNat % 4 = 0) :
    step s = .next (writeReg off v { s with todo := rest }) := by
  rw [step_of_todo h (.inl (by simp)), hostMove, if_pos (legalAccess_four ha)]

/-- An aligned 32-bit register read goes through (20_memory R62). -/
theorem step_of_regRead {s : State} {off : BitVec 16} {rest : List HostMove}
    (h : s.todo = .regRead off 4 :: rest) (ha : off.toNat % 4 = 0) :
    step s = .next (readReg off { s with todo := rest }) := by
  rw [step_of_todo h (.inl (by simp)), hostMove, if_pos (legalAccess_four ha)]

/-- A stable register reads its value, and any register does while BUSY = 0 (20_memory R73). -/
theorem readReg_of_regAt {off : BitVec 16} {r : Reg} {s : State} (hr : regAt off = some r)
    (hs : s.busy = false ∨ r.stable = true) : readReg off s = { s with reply := .word (regValue s r) } := by
  have hread : ¬ (s.busy && !r.stable) = true := by
    rcases hs with hs | hs <;> simp [hs]
  simp only [readReg, hr, if_neg hread]

/-! ### IN_LEN (10_state R38) -/

theorem regAt_inLen : regAt 0x010 = some .inLen := rfl

theorem writeReg_inLen (v : Word) (s : State) :
    writeReg 0x010 v s = if s.busy then setOverrun s else loadLength v s := by
  rw [writeReg, regAt_inLen]

theorem toNat_ofCount {n : Nat} (h : n < 2 ^ 32) : (Word.ofCount n).toNat = n :=
  Nat.mod_eq_of_lt h

/-- Settles O12: the write is `loadLength` or `setOverrun` by BUSY, and IN_LEN is a stable register. -/
theorem lengthWriteClampsAndRewinds : Obligations.LengthWriteClampsAndRewinds := by
  intro s v rest
  refine ⟨fun ht hb => ?_, fun ht hb => ?_, fun ht hlen => ?_⟩
  · rw [step_of_regWrite ht (by decide), writeReg_inLen, if_neg (by simp [hb]), loadLength]
  · rw [step_of_regWrite ht (by decide), writeReg_inLen, if_pos hb, setOverrun]
  · refine ⟨Word.ofCount s.inLen, ?_, toNat_ofCount hlen⟩
    rw [step_of_regRead ht (by decide), readReg_of_regAt regAt_inLen (.inr rfl), regValue]

/-! ### Hardware reset (10_state R44) -/

@[simp] theorem getElem_noCounts {i : Nat} (h : i < 257) : noCounts[i] = 0 := by
  simp [noCounts]

@[simp] theorem getElem_noCodes {i : Nat} (h : i < 257) : noCodes[i] = none := by
  simp [noCodes]

/-- Every register but the three parameters reads 0 after hardware reset, for any parameters. -/
theorem regValue_resetWith (magic : Word) (inCap outCap : Nat) {r : Reg}
    (hm : r ≠ .magic) (hi : r ≠ .inCap) (ho : r ≠ .outCap) :
    regValue (State.resetWith magic inCap outCap) r = 0 := by
  cases r with
  | magic => exact absurd rfl hm
  | inCap => exact absurd rfl hi
  | outCap => exact absurd rfl ho
  | freq y => exact getElem_noCounts y.isLt
  | codeLen y => exact congrArg codeLenWord (getElem_noCodes y.isLt)
  | codeBits y k => exact congrArg (codeBitsWord · k.val) (getElem_noCodes y.isLt)
  | _ => rfl

/-- A capacity's register image is the capacity: its 29 bits fit (10_state R41). -/
theorem ofCount_capacity (c : BitVec 29) : Word.ofCount c.toNat = c.setWidth 32 := BitVec.ofNat_toNat 32 c

/-- Settles O8: the reset state at the parameters of Config. -/
theorem resetLeavesEveryRegisterClear : Obligations.ResetLeavesEveryRegisterClear :=
  ⟨fun _ => regValue_resetWith _ _ _, rfl, ofCount_capacity _, ofCount_capacity _, rfl, rfl,
    fun y => ⟨getElem_noCodes y.isLt, getElem_noCounts y.isLt⟩⟩

end Sys2Proof.Machine
end

section
/-! SUPPORT. The register map read backwards, and the offsets and accesses it leaves out (20_memory R62, R63). -/

namespace Sys2Proof.Machine

/-! ### The register map -/

theorem val_of_headerSymbol {i : Nat} {y : Symbol} (h : headerSymbol i = some y) : y.val = i := by
  unfold headerSymbol at h
  split at h
  · cases h; rfl
  · cases h

/-- A register of a table that is indexed by symbols is that of the symbol with the index. -/
theorem symbol_of_map_headerSymbol {i : Nat} {f : Symbol → Reg} {r : Reg} (h : (headerSymbol i).map f = some r) :
    ∃ y, y.val = i ∧ f y = r := by
  obtain ⟨y, hy, hr⟩ := Option.map_eq_some_iff.mp h
  exact ⟨y, val_of_headerSymbol hy, hr⟩

theorem headerSymbol_of_le {i : Nat} (h : 257 ≤ i) : headerSymbol i = none :=
  dif_neg (by omega)

theorem regAt_low {off : BitVec 16} (h : off.toNat < 0x400) : regAt off = lowRegs[off.toNat / 4]? :=
  if_pos h

theorem regAt_freq {off : BitVec 16} (h : 0x400 ≤ off.toNat) (h' : off.toNat < 0x1000) :
    regAt off = (headerSymbol ((off.toNat - 0x400) / 4)).map .freq := by
  rw [regAt, if_neg (by omega), if_pos h']

theorem regAt_codeLen {off : BitVec 16} (h : 0x1000 ≤ off.toNat) (h' : off.toNat < 0x2000) :
    regAt off = (headerSymbol ((off.toNat - 0x1000) / 4)).map .codeLen := by
  rw [regAt, if_neg (by omega), if_neg (by omega), if_pos h']

theorem regAt_codeBits {off : BitVec 16} (h : 0x2000 ≤ off.toNat) :
    regAt off = (headerSymbol ((off.toNat - 0x2000) / 32)).map
      fun y => .codeBits y (Fin.ofNat 8 (off.toNat / 4)) := by
  rw [regAt, if_neg (by omega), if_neg (by omega), if_neg (by omega)]

/-- The register below offset 0x02C with index `i` lies at offset 4 i (10_state R22). -/
theorem offset_of_lowRegs {i : Nat} {r : Reg} (h : lowRegs[i]? = some r) : r.offset = BitVec.ofNat 16 (4 * i) := by
  have hi : i < 11 := (List.getElem?_eq_some_iff.mp h).1
  interval_cases i <;> cases h <;> rfl

theorem ofNat_eq_of_eq_toNat {off : BitVec 16} {n : Nat} (h : n = off.toNat) : BitVec.ofNat 16 n = off := by
  rw [h, BitVec.ofNat_toNat, BitVec.setWidth_eq]

/-- A register found at a word-aligned offset is at its own offset of the map (10_state R22). -/
theorem offset_of_regAt {off : BitVec 16} {r : Reg} (ha : off.toNat % 4 = 0) (h : regAt off = some r) :
    r.offset = off := by
  rcases lt_or_ge off.toNat 0x400 with h1 | h1
  · rw [regAt_low h1] at h
    exact (offset_of_lowRegs h).trans (ofNat_eq_of_eq_toNat (by omega))
  rcases lt_or_ge off.toNat 0x1000 with h2 | h2
  · obtain ⟨y, hy, rfl⟩ := symbol_of_map_headerSymbol (regAt_freq h1 h2 ▸ h)
    exact ofNat_eq_of_eq_toNat (by omega)
  rcases lt_or_ge off.toNat 0x2000 with h3 | h3
  · obtain ⟨y, hy, rfl⟩ := symbol_of_map_headerSymbol (regAt_codeLen h2 h3 ▸ h)
    exact ofNat_eq_of_eq_toNat (by omega)
  · obtain ⟨y, hy, rfl⟩ := symbol_of_map_headerSymbol (regAt_codeBits h3 ▸ h)
    exact ofNat_eq_of_eq_toNat (by rw [Fin.val_ofNat]; omega)

/-- The word-aligned offsets marked reserved in the map (10_state R22). -/
def ReservedOffset (off : BitVec 16) : Prop :=
  (0x02C ≤ off.toNat ∧ off.toNat ≤ 0x3FC) ∨ (0x804 ≤ off.toNat ∧ off.toNat ≤ 0xFFC) ∨
    (0x1404 ≤ off.toNat ∧ off.toNat ≤ 0x1FFC) ∨ 0x4020 ≤ off.toNat

/-- No register is at a reserved offset: each range lies past the last entry of its table. -/
theorem regAt_of_reserved {off : BitVec 16} (h : ReservedOffset off) : regAt off = none := by
  rcases h with ⟨hlo, hhi⟩ | ⟨hlo, hhi⟩ | ⟨hlo, hhi⟩ | hlo
  · rw [regAt_low (by omega)]
    exact List.getElem?_eq_none (show 11 ≤ _ by omega)
  · rw [regAt_freq (by omega) (by omega), headerSymbol_of_le (by omega), Option.map_none]
  · rw [regAt_codeLen (by omega) (by omega), headerSymbol_of_le (by omega), Option.map_none]
  · rw [regAt_codeBits (by omega), headerSymbol_of_le (by omega), Option.map_none]

/-! ### Accesses that do nothing -/

theorem readReg_of_regAt_none {off : BitVec 16} (h : regAt off = none) (s : State) :
    readReg off s = { s with reply := .word 0 } := by
  simp only [readReg, h]

/-- Only CMD, ARG and IN_LEN take a write (20_memory R63). -/
theorem writeReg_of_not_writable {off : BitVec 16} (hcmd : regAt off ≠ some .cmd) (harg : regAt off ≠ some .arg)
    (hlen : regAt off ≠ some .inLen) (v : Word) (s : State) : writeReg off v s = s := by
  unfold writeReg
  split
  · exact absurd ‹_› hcmd
  · exact absurd ‹_› harg
  · exact absurd ‹_› hlen
  · rfl

/-- Settles O13: by the map read backwards, only the offsets of CMD, ARG and IN_LEN take a write. -/
theorem reservedAndReadOnlyOffsetsIgnoreWrites : Obligations.ReservedAndReadOnlyOffsetsIgnoreWrites := by
  intro s off v rest ha
  refine ⟨fun ht hcmd harg hlen => ?_, fun ht hres => ?_⟩
  · have elsewhere : ∀ {r : Reg}, off ≠ r.offset → regAt off ≠ some r :=
      fun hne hr => hne (offset_of_regAt ha hr).symm
    rw [step_of_regWrite ht ha,
      writeReg_of_not_writable (elsewhere hcmd) (elsewhere harg) (elsewhere hlen)]
  · rw [step_of_regRead ht ha, readReg_of_regAt_none (regAt_of_reserved hres)]

/-! ### Accesses that are refused -/

theorem legalAccess_iff {off : BitVec 16} {bytes : Nat} :
    legalAccess off bytes = true ↔ bytes = 4 ∧ off.toNat % 4 = 0 := by
  simp [legalAccess]

/-- Settles O14: a legal access goes through, and the guard of `hostMove` refuses any other. -/
theorem onlyAlignedWordAccessesGoThrough : Obligations.OnlyAlignedWordAccessesGoThrough := by
  intro s off bytes v rest ht
  refine ⟨?_, fun hbad => ?_⟩
  · rintro ⟨rfl, ha⟩
    rcases ht with hr | hw
    · exact ⟨_, step_of_regRead hr ha⟩
    · exact ⟨_, step_of_regWrite hw ha⟩
  · have hguard : ¬ legalAccess off bytes = true := mt legalAccess_iff.mp hbad
    rcases ht with hr | hw
    · rw [step_of_todo hr (.inl (by simp)), hostMove, if_neg hguard]
    · rw [step_of_todo hw (.inl (by simp)), hostMove, if_neg hguard]

end Sys2Proof.Machine
end

section
/-! SUPPORT. What the decoder does with each word, field by field, and the core's step on an illegal word
(30_encoding R81, R84, R85). -/

namespace Sys2Proof

/-! ### The fields of a word as numbers (30_encoding R81) -/

theorem opcOf_eq_iff (w : Word) (opc : Byte) : opcOf w = opc ↔ w.toNat % 256 = opc.toNat := by
  simp [← BitVec.toNat_inj, opcOf]

/-- The field of every bit from `k` up is 0 exactly when the word is below 2 ^ k. -/
theorem topField_eq_zero_iff (w : Word) {k len : Nat} (hlen : k + len = 32) :
    w.extractLsb' k len = 0#len ↔ w.toNat / 2 ^ k = 0 := by
  have hlt : w.toNat / 2 ^ k < 2 ^ len :=
    Nat.div_lt_of_lt_mul (by rw [← Nat.pow_add, hlen]; exact w.isLt)
  rw [← BitVec.toNat_inj, BitVec.extractLsb'_toNat, Nat.shiftRight_eq_div_pow, Nat.mod_eq_of_lt hlt,
    BitVec.toNat_zero]

theorem rsvOf_eq_zero_iff (w : Word) : rsvOf w = 0 ↔ w.toNat / 16384 = 0 :=
  topField_eq_zero_iff w rfl

/-- The bits above OPC, all 0 in a command that uses no N (30_encoding R84). -/
theorem aboveOpc_eq_zero_iff (w : Word) : w.extractLsb' 8 24 = 0 ↔ w.toNat / 256 = 0 :=
  topField_eq_zero_iff w rfl

theorem legalCount_countOf_iff (w : Word) :
    legalCount (countOf w) = true ↔ 1 ≤ w.toNat / 256 % 64 ∧ w.toNat / 256 % 64 ≤ 32 := by
  simp [legalCount, countOf, Nat.shiftRight_eq_div_pow]

/-! ### The opcode map (30_encoding R83) -/

/-- The opcodes of the map's rows without N. -/
def plainOpcodes : List Nat := plainRows.map (·.1.toNat)

theorem plainOpcodes_eq : plainOpcodes =
    [0x00, 0x01, 0x12, 0x13, 0x14, 0x20, 0x21, 0x22, 0x23, 0x24, 0x2F, 0x30, 0x31, 0x32, 0x3F] := rfl

theorem isSome_plainOf_iff (opc : Byte) : (plainOf opc).isSome = true ↔ opc.toNat ∈ plainOpcodes := by
  simp [plainOf, plainOpcodes, BitVec.toNat_inj]

/-- The opcodes without N lie between the opcodes of RDBITS and WRBITS and the reserved ranges of 30_encoding R85. -/
theorem mem_plainOpcodes_iff {opc : Nat} :
    opc ∈ plainOpcodes ↔ opc ≤ 0x01 ∨ (0x12 ≤ opc ∧ opc ≤ 0x14) ∨ (0x20 ≤ opc ∧ opc ≤ 0x24) ∨
      (0x2F ≤ opc ∧ opc ≤ 0x32) ∨ opc = 0x3F := by
  simp only [plainOpcodes_eq, List.mem_cons, List.not_mem_nil, or_false]
  omega

/-- `Legal(w)` in two clauses: the words that use N, and the words that use none (30_encoding R84). -/
theorem legal_iff (w : Word) :
    legal w = true ↔
      ((w.toNat % 256 = 0x10 ∨ w.toNat % 256 = 0x11) ∧
        w.toNat / 16384 = 0 ∧ 1 ≤ w.toNat / 256 % 64 ∧ w.toNat / 256 % 64 ≤ 32) ∨
      (w.toNat % 256 ∈ plainOpcodes ∧ w.toNat / 256 = 0) := by
  have hdisjoint : w.toNat % 256 = 0x10 ∨ w.toNat % 256 = 0x11 → w.toNat % 256 ∉ plainOpcodes := by
    rw [mem_plainOpcodes_iff]; omega
  unfold legal
  rw [← plainOpcodes_eq]
  by_cases hn : w.toNat % 256 = 0x10 ∨ w.toNat % 256 = 0x11
  · simp [hn, hdisjoint hn, and_assoc]
  · simp [hn]

/-- `Legal(w)` in the decoder's own fields. -/
theorem legal_iff_fields (w : Word) :
    legal w = true ↔
      ((opcOf w = 0x10 ∨ opcOf w = 0x11) ∧ rsvOf w = 0 ∧ legalCount (countOf w) = true) ∨
      ((plainOf (opcOf w)).isSome = true ∧ w.extractLsb' 8 24 = 0) := by
  rw [legal_iff, opcOf_eq_iff, opcOf_eq_iff, rsvOf_eq_zero_iff, legalCount_countOf_iff, isSome_plainOf_iff,
    (opcOf_eq_iff w _).mp rfl, aboveOpc_eq_zero_iff]
  rfl

/-! ### The decoder, case by case (30_encoding R84) -/

theorem exists_decodeCounted_iff (make : BitVec 6 → Instr) (w : Word) :
    (∃ i, decodeCounted make w = .ok i) ↔ rsvOf w = 0 ∧ legalCount (countOf w) = true := by
  unfold decodeCounted
  by_cases hrsv : rsvOf w = 0
  · by_cases hn : legalCount (countOf w) = true <;> simp [hrsv, hn]
  · simp only [if_pos hrsv, hrsv, false_and, reduceCtorEq, exists_false]

theorem plainOf_of_counted {opc : Byte} (h : opc = 0x10 ∨ opc = 0x11) : plainOf opc = none := by
  rcases h with rfl | rfl <;> rfl

/-- A word that uses N is read by `decodeCounted`. -/
theorem decode_of_counted {w : Word} (h : opcOf w = 0x10 ∨ opcOf w = 0x11) :
    ∃ make, decode w = decodeCounted make w := by
  unfold decode
  rcases h with h | h
  · exact ⟨_, if_pos h⟩
  · exact ⟨_, (if_neg (by rw [h]; decide)).trans (if_pos h)⟩

/-- A word of no opcode with N is accepted when its opcode is in the map and every other bit is 0. -/
theorem exists_decode_iff_of_not_counted {w : Word} (h : ¬ (opcOf w = 0x10 ∨ opcOf w = 0x11)) :
    (∃ i, decode w = .ok i) ↔ (plainOf (opcOf w)).isSome = true ∧ w.extractLsb' 8 24 = 0 := by
  obtain ⟨hrd, hwr⟩ := not_or.mp h
  unfold decode
  rw [if_neg hrd, if_neg hwr]
  cases plainOf (opcOf w) with
  | none => simp
  | some i =>
    by_cases hz : w.extractLsb' 8 24 = 0
    · simp [hz]
    · simp only [hz, if_false, and_false, reduceCtorEq, exists_false]

/-- The decoder accepts the legal words and no other (30_encoding R84). -/
theorem exists_decode_iff (w : Word) : (∃ i, decode w = .ok i) ↔ legal w = true := by
  rw [legal_iff_fields]
  by_cases h : opcOf w = 0x10 ∨ opcOf w = 0x11
  · obtain ⟨make, hmake⟩ := decode_of_counted h
    simp only [hmake, exists_decodeCounted_iff, plainOf_of_counted h, h, true_and, Option.isSome_none,
      Bool.false_eq_true, false_and, or_false]
  · simp only [exists_decode_iff_of_not_counted h, h, false_and, false_or]

/-- An illegal word is rejected (30_encoding R85). -/
theorem decode_of_not_legal {w : Word} (h : legal w = false) : ∃ e, decode w = .error e := by
  cases hd : decode w with
  | ok i => exact absurd ((exists_decode_iff w).mp ⟨i, hd⟩) (by simp [h])
  | error e => exact ⟨e, rfl⟩

/-- Settles O3: the decoder accepts exactly the legal words, and its answer is one command. -/
theorem legalWordsSelectExactlyOneCommand : Obligations.LegalWordsSelectExactlyOneCommand := by
  intro w
  cases hl : legal w with
  | true =>
    obtain ⟨i, hi⟩ := (exists_decode_iff w).mpr hl
    exact .inl ⟨rfl, i, hi, fun j hj => Except.ok.inj (hj.symm.trans hi)⟩
  | false =>
    obtain ⟨e, he⟩ := decode_of_not_legal hl
    exact .inr ⟨rfl, fun i => by simp [he]⟩

end Sys2Proof

namespace Sys2Proof.Machine

/-! ### The core's turn -/

theorem turn_of_coreNext {s : State} (h : CoreNext s) : turn s = coreTurn s := by
  obtain ⟨hbusy, htodo⟩ := h
  unfold turn
  cases ht : s.todo with
  | nil => exact if_pos hbusy
  | cons m rest =>
    obtain rfl : m = .wait := by simpa [ht] using htodo
    exact if_pos hbusy

/-- The core's step on a word the decoder rejects (30_encoding R85). -/
theorem step_of_decode_error {s : State} {w : Word} {e : Reject} (hcore : CoreNext s) (hp : s.pending = some w)
    (hd : decode w = .error e) : step s = .next (raise .illegalCommand s) := by
  have hturn : turn s = .illegal := by
    rw [turn_of_coreNext hcore, coreTurn, hp]
    simp only [hd]
  rw [step, hturn]

/-- Settles O5: the illegal words are those outside both clauses of `Legal(w)`, and the decoder rejects each of them,
so that the core's step is `raise` alone. -/
theorem illegalWordOnlyReports : Obligations.IllegalWordOnlyReports := by
  refine ⟨fun w => ?_, fun s w hcore hp hl => ?_⟩
  · rw [← Bool.not_eq_true, legal_iff, mem_plainOpcodes_iff]
    omega
  · obtain ⟨e, hd⟩ := decode_of_not_legal hl
    exact step_of_decode_error hcore hp hd

end Sys2Proof.Machine
end

section
/-! SUPPORT. Writes of CMD as steps (40_control R100, R102). -/

namespace Sys2Proof.Machine

theorem regAt_cmd : regAt Reg.cmd.offset = some .cmd := rfl

theorem writeReg_cmd (w : Word) (s : State) :
    writeReg Reg.cmd.offset w s = if s.busy then setOverrun s else issue w s := by
  rw [writeReg, regAt_cmd]

/-- A CMD write is an issue or an overrun, by BUSY. -/
theorem step_of_cmdWrite {s : State} {w : Word} {rest : List HostMove}
    (h : s.todo = .regWrite Reg.cmd.offset 4 w :: rest) :
    step s = .next (if s.busy then setOverrun { s with todo := rest } else issue w { s with todo := rest }) := by
  rw [step_of_regWrite h (by decide), writeReg_cmd]

/-- Settles O10: the write is `issue` while BUSY = 0 and `setOverrun` while BUSY = 1. -/
theorem commandIssueLatchesTheWord : Obligations.CommandIssueLatchesTheWord := by
  intro s w rest ht
  refine ⟨fun hb => ?_, fun hb => ?_⟩
  · rw [step_of_cmdWrite ht, if_neg (by simp [hb]), issue]
  · rw [step_of_cmdWrite ht, if_pos hb, setOverrun]

end Sys2Proof.Machine
end

section
/-! SUPPORT. A packed field in the input stream (41_bitstream R111). -/

namespace Sys2Proof.Machine

/-- A field stands in the stream when each of its bits does. -/
theorem holds_field_iff (m : Memory) (p n v : Nat) :
    Holds m p (field n v) ↔ ∀ k, k < n → Memory.bit m (p + k) = some (v.testBit (n - 1 - k)) := by
  simp only [Holds, getElem_field, length_field]

/-- Settles O23: the field's bits are `getElem_field`, and InRead undoes the packing by `inRead_field`. -/
theorem packedFieldsReadBack : Obligations.PackedFieldsReadBack := by
  intro n v s
  refine ⟨length_field n v, getElem_field n v, fun _ _ hroom hbits => ?_⟩
  exact inRead_field hroom ((holds_field_iff s.inMem s.inPos n v).mpr hbits)

end Sys2Proof.Machine
end

section
/-! SUPPORT. BUILD's tree has one leaf per entry it starts from, hence 2 to 257 of them (42_encoder R132, R143). -/

namespace Sys2Proof.Machine

/-- The number of leaves under all the entries of a structure. -/
def leafTotal (q : List Entry) : Nat := (q.map fun e => e.node.leaves).sum

@[simp] theorem leafTotal_nil : leafTotal [] = 0 := rfl
@[simp] theorem leafTotal_cons (e : Entry) (q : List Entry) : leafTotal (e :: q) = e.node.leaves + leafTotal q := rfl

theorem leafTotal_enqueue (e : Entry) (q : List Entry) : leafTotal (enqueue e q) = e.node.leaves + leafTotal q :=
  ((perm_enqueue e q).map _).sum_eq

/-- One merge keeps the leaves. -/
theorem leafTotal_merge (n : Nat) (a b : Entry) (q : List Entry) :
    leafTotal (enqueue (mergeEntries a b n) q) = leafTotal (a :: b :: q) := by
  rw [leafTotal_enqueue]
  simp only [mergeEntries, Tree.leaves, leafTotal_cons]
  omega

/-- The priority structure holds the entries it was made of. -/
theorem perm_queueOf (es : List Entry) : (queueOf es).Perm es := by
  have key : ∀ es q : List Entry, (es.foldl (fun q e => enqueue e q) q).Perm (q ++ es) := by
    intro es
    induction es with
    | nil => simp
    | cons e es ih =>
      intro q
      exact (ih _).trans (((perm_enqueue e q).append_right es).trans List.perm_middle.symm)
  exact key es []

/-- Each of BUILD's first entries is a leaf. -/
theorem leaves_of_mem_buildLeaves {f : Vector Word 257} {e : Entry} (he : e ∈ buildLeaves f) : e.node.leaves = 1 := by
  have counted : ∀ x ∈ countedLeaves f, x.node.leaves = 1 := by
    intro x hx
    obtain ⟨y, -, rfl⟩ := List.mem_map.1 hx
    rfl
  unfold buildLeaves at he
  split at he
  · simp only [List.mem_cons, List.not_mem_nil, or_false] at he
    rcases he with rfl | rfl <;> rfl
  · rename_i hc
    rw [← hc, List.mem_append, List.mem_singleton] at he
    rcases he with he | rfl
    · exact counted e he
    · rfl

theorem leafTotal_buildLeaves (f : Vector Word 257) : leafTotal (buildLeaves f) = (buildLeaves f).length := by
  rw [leafTotal, List.map_congr_left fun e he => leaves_of_mem_buildLeaves he]
  simp

/-- At most 256 bytes are counted: the end-marker is never among them. -/
theorem length_countedLeaves_lt (f : Vector Word 257) : (countedLeaves f).length < 257 := by
  rw [countedLeaves, List.length_map]
  calc _ < (List.finRange 257).length :=
        List.length_filter_lt_length_iff_exists.2 ⟨256, List.mem_finRange _, by simp⟩
    _ = 257 := List.length_finRange

theorem length_buildLeaves_le (f : Vector Word 257) : (buildLeaves f).length ≤ 257 := by
  have hlt := length_countedLeaves_lt f
  unfold buildLeaves
  split
  · decide
  · rename_i hc
    rw [hc] at hlt
    simpa using hlt

/-- BUILD's merge loop ends with one tree, which has a leaf for each first entry (42_encoder R132). -/
theorem leaves_buildTree (f : Vector Word 257) : ∃ t, buildTree f = some t ∧ t.leaves = (buildLeaves f).length := by
  have hne : queueOf (buildLeaves f) ≠ [] := by
    have := two_le_length_buildLeaves f
    intro h
    simp [← length_queueOf (buildLeaves f), h] at this
  have hstart : leafTotal (queueOf (buildLeaves f)) = (buildLeaves f).length :=
    ((perm_queueOf _).map _).sum_eq.trans (leafTotal_buildLeaves f)
  obtain ⟨e, hrun, he⟩ := mergeLoop_keeps (fun _ q => leafTotal q = (buildLeaves f).length)
    (fun n a b q h => (leafTotal_merge n a b q).trans h) _ 257 _ hne (Nat.le_succ _) hstart
  exact ⟨e.node, by rw [buildTree, buildQueue, hrun]; rfl, he⟩

/-- BUILD leaves its tree in TREE (42_encoder R132). -/
theorem tree_of_exec_build {s u : State} (h : exec .build s = .next u) : u.tree = buildTree s.freq := by
  cases h
  rfl

/-- Settles O33: the count is `length_header`, and BUILD's tree has one leaf for each of its 2 to 257 first entries. -/
theorem headerLengthIsElevenPerLeaf : Obligations.HeaderLengthIsElevenPerLeaf := by
  refine ⟨fun t => ?_, fun s u t hu ht => ?_⟩
  · have hlen := length_header t
    have hpos := t.leaves_pos
    omega
  · obtain ⟨t', hb, hl⟩ := leaves_buildTree s.freq
    obtain rfl : t' = t := by rw [tree_of_exec_build hu, hb] at ht; exact Option.some.inj ht
    have hlo := two_le_length_buildLeaves s.freq
    have hhi := length_buildLeaves_le s.freq
    have hlen := length_header t'
    omega

end Sys2Proof.Machine
end

section
/-! SUPPORT. The table COUNT leaves: its entries and their sum (42_encoder R130, R131). -/

namespace Sys2Proof.Machine

/-! ### Σ FREQ[0..255] -/

/-- A byte's counter is part of the sum. -/
theorem toNat_le_countSum (f : Vector Word 257) (v : Symbol) (hv : v.val < 256) : f[v.val].toNat ≤ countSum f := by
  refine List.le_sum_of_mem (List.mem_map_of_mem (List.mem_take_iff_getElem.2 ⟨v.val, ?_, ?_⟩))
  · simpa using hv
  · simp

/-- Replacing one entry of a list changes its sum by the difference of the two. -/
theorem sum_set_add_getElem (ns : List Nat) (i x : Nat) (h : i < ns.length) :
    (ns.set i x).sum + ns[i] = ns.sum + x := by
  have hset := ns.sum_set i x
  have hself := ns.sum_set i ns[i]
  rw [if_pos h] at hset
  rw [List.set_getElem_self, if_pos h] at hself
  omega

/-- Writing a byte's counter changes the sum by what it changes the counter by. -/
theorem countSum_set (f : Vector Word 257) (v : Symbol) (w : Word) (hv : v.val < 256) :
    countSum (f.set v.val w) + f[v.val].toNat = countSum f + w.toNat := by
  have hlen : v.val < ((f.toList.take 256).map BitVec.toNat).length := by
    rw [List.length_map, List.length_take, Vector.length_toList]
    exact hv
  have hsum := sum_set_add_getElem _ v.val w.toNat hlen
  rw [← List.map_set, ← List.take_set, ← Vector.toList_set, List.getElem_map, List.getElem_take] at hsum
  exact hsum

/-- Counting a byte adds one to the sum, as long as its counter does not wrap. -/
theorem countSum_bump (f : Vector Word 257) (v : Symbol) (hv : v.val < 256) (hw : f[v.val].toNat + 1 < 2 ^ 32) :
    countSum (bump f v) = countSum f + 1 := by
  have hset := countSum_set f v (f[v.val] + 1) hv
  rw [← bump, BitVec.toNat_add_of_lt hw, show (1 : Word).toNat = 1 from rfl] at hset
  omega

/-- The end-marker's counter is not part of the sum. -/
theorem countSum_set_eof (f : Vector Word 257) (w : Word) : countSum (f.set 256 w) = countSum f := by
  rw [countSum, Vector.toList_set, List.take_set_of_le (Nat.le_refl 256), countSum]

@[simp] theorem countSum_noCounts : countSum noCounts = 0 := by
  rw [countSum, noCounts, Vector.toList_replicate, List.take_replicate, List.map_replicate, List.sum_replicate]
  rfl

theorem tally_cons (f : Vector Word 257) (b : Byte) (bs : List Byte) :
    tally f (b :: bs) = tally (bump f (byteSymbol b.toNat)) bs := rfl

/-- Counting bytes adds their number to the sum, as long as it cannot wrap. -/
theorem countSum_tally (f : Vector Word 257) (bytes : List Byte) (h : countSum f + bytes.length < 2 ^ 32) :
    countSum (tally f bytes) = countSum f + bytes.length := by
  induction bytes generalizing f with
  | nil => rfl
  | cons b bs ih =>
    rw [List.length_cons] at h ⊢
    have hv : (byteSymbol b.toNat).val < 256 := by rw [byteSymbol_val]; exact b.isLt
    have hle := toNat_le_countSum f _ hv
    have hb := countSum_bump f _ hv (by omega)
    rw [tally_cons, ih _ (by omega), hb]
    omega

/-! ### The table after COUNT -/

/-- The table COUNT makes of the bytes it reads. -/
def countTable (bytes : List Byte) : Vector Word 257 := (tally noCounts bytes).set Config.pseudoEof.val 1

@[simp] theorem countTable_eof (bytes : List Byte) : (countTable bytes)[256] = 1 := by
  simp [countTable]

theorem countTable_byte (bytes : List Byte) (b : Byte) (h : bytes.length < 2 ^ 32) :
    (countTable bytes)[(byteSymbol b.toNat).val].toNat = bytes.count b := by
  have hb := b.isLt
  have hne : Config.pseudoEof.val ≠ (byteSymbol b.toNat).val := by
    rw [byteSymbol_val]
    exact (Nat.ne_of_lt hb).symm
  have hcount := toNat_tally noCounts bytes (byteSymbol b.toNat) (by simpa using h)
  rw [countTable, Vector.getElem_set_ne _ _ hne, hcount]
  simp [byteSymbol_inj, List.count, beq_eq_decide]

theorem countSum_countTable (bytes : List Byte) (h : bytes.length < 2 ^ 32) :
    countSum (countTable bytes) = bytes.length := by
  have hsum := countSum_tally noCounts bytes (by simpa using h)
  rw [countSum_noCounts, Nat.zero_add] at hsum
  exact (countSum_set_eof _ 1).trans hsum

/-- COUNT over the loaded bytes, from the first of them on (42_encoder R130). -/
theorem countBody_loaded {bytes : List Byte} {s : State} (h : Loaded bytes s) (h0 : s.inPos = 0) :
    countBody s = .ok () (seek (8 * s.inLen) (setFreq (countTable bytes) s)) := by
  have hlen := h.1
  have hrun := countLoop_bytes bytes (s.inLen + 1) (setFreq noCounts s) (by omega)
    (by simp; omega) (by simp; omega) (by rw [setFreq_inPos, h0]; exact holds_loaded h)
  rw [countBody, hrun, setFreq_inPos, h0, hlen, Nat.zero_add]
  rfl

/-- Settles O28: the loop reads the loaded bytes into `countTable`, and IN_LEN is far below the counters' range. -/
theorem countFromTheStartCountsTheBytes : Obligations.CountFromTheStartCountsTheBytes := by
  intro s bytes hl h0 hcap
  have hlen : s.inLen = bytes.length := hl.1
  have hlt : bytes.length < 2 ^ 32 := by rw [← hlen]; exact lt_of_le_of_lt hcap (by decide)
  refine ⟨countTable bytes, ?_, fun b => countTable_byte bytes b hlt, ?_, countTable_eof bytes⟩
  · rw [exec, execCount, countBody_loaded hl h0]
    rfl
  · rw [countSum_countTable bytes hlt, hlen]

end Sys2Proof.Machine
end

section
/-! SUPPORT. What a run of ENCODE or COMPRESS that succeeds has written: the magic number, the tree's header and the
payload (42_encoder R144, R146). -/

namespace Sys2Proof.Machine

/-! ### A successful OutPut -/

/-- OutPut that goes on has appended the whole bit string (41_bitstream R112). -/
theorem appended_of_outPut {bs : List Bool} {s t : State} (h : Run.ofEmit (outPut bs s) = .ok () t) :
    ∃ m, Appended bs s m ∧ t = setOutput m (s.outBits + bs.length) s := by
  obtain ⟨m, k, -, ha, ⟨rfl, hrun, -⟩ | ⟨-, -, -, -, hrun⟩ | ⟨-, -, -, hrun⟩⟩ := outPut_spec bs s
  · rw [hrun] at h
    cases h
    exact ⟨m, by simpa using ha, rfl⟩
  · rw [hrun] at h
    cases h
  · rw [hrun] at h
    cases h

/-- A code that has been emitted stands in the table and has been appended (42_encoder R144). -/
theorem appended_of_emitCode {v : Symbol} {s t : State} (h : emitCode v s = .ok () t) :
    ∃ c m, s.codes[v.val] = some c ∧ Appended c s m ∧ t = setOutput m (s.outBits + c.length) s := by
  unfold emitCode at h
  split at h
  · cases h
  · rename_i c hc
    obtain ⟨m, ha, ht⟩ := appended_of_outPut h
    exact ⟨c, m, hc, ha, ht⟩

/-! ### A successful ENCODE -/

theorem payload_cons {codes : Vector (Option (List Bool)) 257} {b : Byte} {bs : List Byte} {c p : List Bool}
    (hc : codes[(byteSymbol b.toNat).val] = some c) (hp : payload codes bs = some p) :
    payload codes (b :: bs) = some (c ++ p) := by
  simp only [payload, hc, hp]

/-- ENCODE's loop over the last bytes of the input and the end-marker's code after it have appended the payload of those
bytes, which all have codes. -/
theorem appended_of_encodeLoop (bytes : List Byte) (k : Nat) (s s' t : State) (hk : bytes.length < k)
    (hr : s.inPos + 8 * bytes.length = 8 * s.inLen) (hh : Holds s.inMem s.inPos (byteBits bytes))
    (hloop : encodeLoop k s = .ok () s') (heof : emitCode Config.pseudoEof s' = .ok () t) :
    ∃ p m, payload s.codes bytes = some p ∧ Appended p s m ∧
      t = setOutput m (s.outBits + p.length) (seek (8 * s.inLen) s) := by
  induction bytes generalizing k s with
  | nil =>
    obtain ⟨k, rfl⟩ : ∃ j, k = j + 1 := ⟨k - 1, by omega⟩
    rw [encodeLoop, inRead_eos (by simp at hr ⊢; omega)] at hloop
    cases hloop
    obtain ⟨c, m, hc, ha, rfl⟩ := appended_of_emitCode heof
    refine ⟨c, m, hc, ha, ?_⟩
    rw [← hr]
    rfl
  | cons b bs ih =>
    obtain ⟨k, rfl⟩ : ∃ j, k = j + 1 := ⟨k - 1, by omega⟩
    rw [List.length_cons] at hk hr
    obtain ⟨hb, hbs⟩ := (holds_append_iff _ _ _ _).1 hh
    rw [length_field] at hbs
    rw [encodeLoop, inRead_byte (by omega) hb, Run.ok_bind] at hloop
    obtain ⟨_, s₁, hcode, hloop⟩ := Run.bind_ok hloop
    obtain ⟨c, m, hc, ha, rfl⟩ := appended_of_emitCode hcode
    obtain ⟨p, m', hp, ha', rfl⟩ := ih k _ (by omega) (by simp; omega) hbs hloop
    refine ⟨c ++ p, m', payload_cons hc hp, Appended.append (m := m) ⟨ha.holds, ha.kept, ha.frame⟩
      ⟨ha'.holds, ha'.kept, ha'.frame⟩, ?_⟩
    rw [List.length_append, ← Nat.add_assoc]
    rfl

/-- ENCODE of loaded bytes that goes on has appended the magic number, the header and the payload, and closed the output
(42_encoder R144). -/
theorem appended_of_encodeBody {bytes : List Byte} {T : Tree} {s t : State} (hl : Loaded bytes s)
    (hT : validTree s = some T) (h : encodeBody s = .ok () t) :
    ∃ p m, payload s.codes bytes = some p ∧ Appended (field 32 s.magic.toNat ++ header T ++ p) s m ∧
      t = outClose (setOutput m (s.outBits + (field 32 s.magic.toNat ++ header T ++ p).length)
        (seek (8 * s.inLen) s)) := by
  unfold encodeBody at h
  split at h
  next T' hT' _ =>
    obtain rfl : T' = T := Option.some.inj (hT'.symm.trans hT)
    obtain ⟨_, s₁, hmagic, h⟩ := Run.bind_ok h
    obtain ⟨m₁, ha₁, rfl⟩ := appended_of_outPut hmagic
    obtain ⟨_, s₂, hheader, h⟩ := Run.bind_ok h
    obtain ⟨m₂, ha₂, rfl⟩ := appended_of_outPut hheader
    obtain ⟨_, s₃, hpayload, h⟩ := Run.bind_ok h
    cases h
    obtain ⟨_, s₄, hloop, heof⟩ := Run.bind_ok hpayload
    obtain ⟨p, m, hp, ha, rfl⟩ := appended_of_encodeLoop bytes _ _ _ _ (by simp [hl.1]) (by simp [rewind, hl.1])
      (holds_loaded hl) hloop heof
    refine ⟨p, m, hp, Appended.append (Appended.append ha₁ ha₂) (m := m₂) ⟨?_, ?_, ?_⟩, ?_⟩
    all_goals simp only [List.length_append, ← Nat.add_assoc]
    · exact ha.holds
    · exact ha.kept
    · exact ha.frame
    · rfl
  next => cases h

/-! ### BUILD, GENCODES and OutClose -/

@[simp] theorem buildBody_magic (s : State) : (buildBody s).magic = s.magic := rfl
@[simp] theorem buildBody_inLen (s : State) : (buildBody s).inLen = s.inLen := rfl
@[simp] theorem buildBody_inMem (s : State) : (buildBody s).inMem = s.inMem := rfl
@[simp] theorem buildBody_outBits (s : State) : (buildBody s).outBits = s.outBits := rfl
@[simp] theorem buildBody_tree (s : State) : (buildBody s).tree = buildTree s.freq := rfl

/-- BUILD's tree is valid (42_encoder R132). -/
theorem validTree_buildBody (s : State) : validTree (buildBody s) = buildTree s.freq := rfl

/-- GENCODES with a tree (42_encoder R140). -/
theorem gencodesBody_of_validTree {s : State} {T : Tree} (h : validTree s = some T) :
    gencodesBody s = .ok (installCodes (codesOf T) s) := by
  simp only [gencodesBody, h]

@[simp] theorem outClose_outMem (s : State) : (outClose s).outMem = s.outMem := by rw [outClose_eq]
@[simp] theorem outClose_err (s : State) : (outClose s).err = s.err := by rw [outClose_eq]
@[simp] theorem outClose_errCode (s : State) : (outClose s).errCode = s.errCode := by rw [outClose_eq]
@[simp] theorem outClose_outClosed (s : State) : (outClose s).outClosed = true := by rw [outClose_eq]
@[simp] theorem outClose_tree (s : State) : (outClose s).tree = s.tree := by rw [outClose_eq]

/-- OutClose removes no bit (41_bitstream R113). -/
theorem outBits_le_outClose (s : State) : s.outBits ≤ (outClose s).outBits := by
  unfold outClose
  split
  · exact le_rfl
  · simp only
    omega

/-- OutClose pads nothing after whole bytes (41_bitstream R113). -/
theorem outBits_outClose_of_bytes {s : State} {n : Nat} (h : s.outBits = 8 * n) : (outClose s).outBits = 8 * n := by
  unfold outClose
  split
  · exact h
  · simp only
    omega

/-- BUILD's tree has an Internal root and fits the tree memory (42_encoder R132, 10_state R32). -/
theorem buildTree_bounds (f : Vector Word 257) :
    ∃ T, buildTree f = some T ∧ T.isNode = true ∧ T.size ≤ Config.nodeCap := by
  obtain ⟨T, hT, hleaves⟩ := leaves_buildTree f
  have hlo := two_le_length_buildLeaves f
  have hhi := length_buildLeaves_le f
  have hsize := T.size_eq
  refine ⟨T, hT, ?_, by simp only [Config.nodeCap]; omega⟩
  cases T with
  | leaf y w => simp only [Tree.leaves] at hleaves; omega
  | node w l r => rfl

/-! ### A successful COMPRESS -/

/-- COMPRESS of loaded bytes that goes on leaves BUILD's tree of their counts, and from output bit 0 on the magic number,
the tree's header and the payload (42_encoder R146). -/
theorem stream_of_compressBody {bytes : List Byte} {s t : State} (hl : Loaded bytes s)
    (h : compressBody s = .ok () t) :
    ∃ T p, T.isNode = true ∧ T.size ≤ Config.nodeCap ∧ t.tree = some T ∧ payload (codesOf T) bytes = some p ∧
      Holds t.outMem 0 (field 32 s.magic.toNat ++ header T ++ p) ∧
      (field 32 s.magic.toNat ++ header T ++ p).length ≤ t.outBits := by
  obtain ⟨T, hT, hnode, hsize⟩ := buildTree_bounds (countTable bytes)
  rw [compressBody, countBody_loaded (s := rewind (outClear s)) hl rfl, Run.ok_bind] at h
  generalize hc : seek (8 * (rewind (outClear s)).inLen) (setFreq (countTable bytes) (rewind (outClear s))) = c at h
  have hfreq : c.freq = countTable bytes := by rw [← hc]; rfl
  have hvalid : validTree (buildBody c) = some T := by rw [validTree_buildBody, hfreq, hT]
  rw [gencodesBody_of_validTree hvalid, Run.ofEmit_ok, Run.ok_bind] at h
  have hload : Loaded bytes (installCodes (codesOf T) (buildBody c)) := by
    rw [← hc]
    exact ⟨by simpa using hl.1, by simpa using hl.2⟩
  obtain ⟨p, m, hp, ha, rfl⟩ := appended_of_encodeBody hload hvalid h
  have hh := ha.holds
  simp only [installCodes_magic, installCodes_outBits, buildBody_magic, buildBody_outBits] at hh
  refine ⟨T, p, hnode, hsize, ?_, hp, ?_, le_trans ?_ (outBits_le_outClose _)⟩
  · simp [hfreq, hT]
  · simpa [← hc] using hh
  · simp [← hc]

end Sys2Proof.Machine
end

section
/-! SUPPORT. DECOMPRESS over a stream that holds the magic number, a tree's header and the codes of some bytes
(43_decoder R170, R173, R175, R177). -/

namespace Sys2Proof.Machine

/-! ### The input as bits -/

/-- Bits of a buffer stand in every buffer with the same bytes there. -/
theorem Holds.of_read_eq {m m' : Memory} {n : Nat} {bs : List Bool} (h : Holds m 0 bs)
    (hread : ∀ i, i < n → Memory.read m' i = Memory.read m i) (hlen : bs.length ≤ 8 * n) : Holds m' 0 bs := by
  intro k hk
  rw [Memory.bit, hread _ (by omega)]
  exact h k hk

/-- Eight bits of a buffer that spell a byte are that byte. -/
theorem read_of_holds_field {m : Memory} {a : Nat} {b : Byte} (h : Holds m (8 * a) (field 8 b.toNat)) :
    Memory.read m a = some b := by
  have hbit : ∀ k < 8, (Memory.read m a).map (fun x => x.getLsbD (7 - k)) = some (b.getLsbD (7 - k)) := by
    intro k hk
    have := (holds_field_iff _ _ _ _).1 h k hk
    rwa [Memory.bit, show (8 * a + k) / 8 = a by omega, show (8 * a + k) % 8 = k by omega] at this
  cases hread : Memory.read m a with
  | none => simpa [hread] using hbit 0 (by decide)
  | some x =>
    congr 1
    refine BitVec.eq_of_getLsbD_eq fun i hi => ?_
    have := hbit (7 - i) (by omega)
    rwa [hread, Option.map_some, Option.some.injEq, show 7 - (7 - i) = i by omega] at this

/-- A buffer that holds the bits of some bytes from a byte boundary on holds the bytes. -/
theorem read_of_holds_byteBits {m : Memory} {bytes : List Byte} {a : Nat} (h : Holds m (8 * a) (byteBits bytes)) :
    ∀ i, (hi : i < bytes.length) → Memory.read m (a + i) = some bytes[i] := by
  induction bytes generalizing a with
  | nil => intro i hi; simp at hi
  | cons b bs ih =>
    obtain ⟨hb, hbs⟩ := (holds_append_iff _ _ _ _).1 h
    rw [length_field] at hbs
    intro i hi
    cases i with
    | zero => exact read_of_holds_field hb
    | succ i =>
      rw [← Nat.add_assoc, Nat.add_right_comm]
      exact ih (a := a + 1) hbs i (by simpa using hi)

/-! ### The three steps -/

/-- CHKMAGIC goes on where the next 32 bits are MAGIC (43_decoder R170). -/
theorem chkmagicBody_of_holds {s : State} (hr : s.inPos + 32 ≤ 8 * s.inLen)
    (hh : Holds s.inMem s.inPos (field 32 s.magic.toNat)) :
    chkmagicBody s = .ok () (seek (s.inPos + 32) s) := by
  rw [chkmagicBody, inRead_field (n := 32) hr hh, Nat.mod_eq_of_lt s.magic.isLt]
  simp

/-- RDHDR over the header of a tree with an Internal root that fits installs that tree with weights 0
(43_decoder R173). -/
theorem rdhdrBody_of_holds {s : State} {T : Tree} (hnode : T.isNode = true) (hsize : T.size ≤ Config.nodeCap)
    (hr : s.inPos + (header T).length ≤ 8 * s.inLen) (hh : Holds s.inMem s.inPos (header T)) :
    rdhdrBody s =
      .ok () (installTree (some T.unweighted) T.size (seek (s.inPos + (header T).length) (dropTree s))) := by
  rw [rdhdrBody, rd_header T _ 0 (dropTree s) (by simp) (by simpa using hsize) hr hh]
  simp [hnode]

/-- DECODE over the paths of byte leaves and then a path of the end-marker, on an open output with room, appends the bytes
(43_decoder R175, R176). -/
theorem decodeBody_of_holds {s : State} {T : Tree} {xs : List (Symbol × List Bool)} {q : List Bool}
    (hT : validTree s = some T) (hnode : T.isNode = true) (hx : ∀ x ∈ xs, x ∈ T.paths ∧ x.1 ≠ 256)
    (hq : (256, q) ∈ T.paths) (hr : s.inPos + ((xs.map (·.2)).flatten ++ q).length ≤ 8 * s.inLen)
    (hh : Holds s.inMem s.inPos ((xs.map (·.2)).flatten ++ q)) (ho : s.outClosed = false)
    (hroom : s.outBits + 8 * xs.length ≤ 8 * s.outCap) :
    ∃ m, Appended ((xs.map fun x => field 8 x.1.val).flatten) s m ∧
      decodeBody s = .ok () (setOutput m (s.outBits + 8 * xs.length)
        (seek (s.inPos + ((xs.map (·.2)).flatten ++ q).length) s)) := by
  rw [List.length_append] at hr ⊢
  obtain ⟨hcodes, heof⟩ := (holds_append_iff _ _ _ _).1 hh
  obtain ⟨k, hk⟩ : ∃ k, 8 * s.inLen + 1 = k + q.length + (xs.map (·.2)).flatten.length :=
    ⟨8 * s.inLen + 1 - q.length - (xs.map (·.2)).flatten.length, by omega⟩
  obtain ⟨m, ha, hrun⟩ := decodeLoop_bytes T hnode xs (k + q.length) s hx (by omega) hcodes ho hroom
  refine ⟨m, ha, ?_⟩
  simp only [decodeBody, hT]
  rw [hk, hrun, decodeLoop_path T T 256 q k _ (Tree.path_ne_nil hnode hq) hq
    (by simp only [setOutput_inPos, setOutput_inLen, seek_inPos, seek_inLen]; omega) heof, if_pos rfl, ← Nat.add_assoc]
  rfl

/-- DECOMPRESS over the whole stream rebuilds the tree, writes the bytes from output bit 0 on and closes the output
(43_decoder R177). -/
theorem decompressBody_of_holds {s : State} {T : Tree} {xs : List (Symbol × List Bool)} {q : List Bool}
    (hnode : T.isNode = true) (hsize : T.size ≤ Config.nodeCap) (hx : ∀ x ∈ xs, x ∈ T.paths ∧ x.1 ≠ 256)
    (hq : (256, q) ∈ T.paths)
    (hr : (field 32 s.magic.toNat ++ header T ++ ((xs.map (·.2)).flatten ++ q)).length ≤ 8 * s.inLen)
    (hh : Holds s.inMem 0 (field 32 s.magic.toNat ++ header T ++ ((xs.map (·.2)).flatten ++ q)))
    (hroom : xs.length ≤ s.outCap) :
    ∃ m, Holds m 0 ((xs.map fun x => field 8 x.1.val).flatten) ∧
      decompressBody s = .ok () (outClose (setOutput m (8 * xs.length)
        (seek (32 + (header T).length + ((xs.map (·.2)).flatten ++ q).length)
          (installTree (some T.unweighted) T.size (dropTree (outClear s)))))) := by
  obtain ⟨hmh, hpayload⟩ := (holds_append_iff _ _ _ _).1 hh
  obtain ⟨hmagic, hheader⟩ := (holds_append_iff _ _ _ _).1 hmh
  rw [List.length_append, List.length_append (bs := header T)] at hr
  rw [length_field] at hr hheader
  rw [List.length_append, length_field] at hpayload
  simp only [Nat.zero_add] at hheader hpayload
  have h₁ : chkmagicBody (rewind (outClear s)) = .ok () (seek 32 (rewind (outClear s))) :=
    chkmagicBody_of_holds (by simp; omega) hmagic
  have h₂ : rdhdrBody (seek 32 (rewind (outClear s))) =
      .ok () (installTree (some T.unweighted) T.size (seek (32 + (header T).length) (dropTree (outClear s)))) :=
    rdhdrBody_of_holds hnode hsize (by simp; omega) hheader
  obtain ⟨m, ha, h₃⟩ := decodeBody_of_holds (T := T.unweighted)
    (s := installTree (some T.unweighted) T.size (seek (32 + (header T).length) (dropTree (outClear s))))
    rfl (by simpa using hnode) (by simpa using hx) (by simpa using hq) (by simp at hr ⊢; omega) hpayload rfl
    (by simp; omega)
  refine ⟨m, ha.holds, ?_⟩
  rw [decompressBody, h₁, Run.ok_bind, h₂, Run.ok_bind, h₃, Run.ok_bind]
  simp only [installTree_outBits, seek_outBits, dropTree_outBits, outClear_outBits, Nat.zero_add]
  rfl

end Sys2Proof.Machine
end

section
/-! SUPPORT. The round trip: the stream COMPRESS writes is one that DECOMPRESS reads (43_decoder R178). -/

namespace Sys2Proof.Machine

/-- A code of a tree's code table is a path of the tree (42_encoder R140). -/
theorem mem_paths_of_codesOf {T : Tree} {y : Symbol} {c : List Bool} (h : (codesOf T)[y.val] = some c) :
    (y, c) ∈ T.paths := by
  rw [getElem_codesOf] at h
  obtain ⟨x, hx, rfl⟩ := Option.map_eq_some_iff.1 h
  obtain ⟨hmem, hy⟩ := List.mem_filter.1 (List.mem_of_getLast? hx)
  obtain rfl : x.1 = y := of_decide_eq_true hy
  exact hmem

/-- The symbol of a byte is not the end-marker (00_scope R6). -/
theorem byteSymbol_ne_eof (b : Byte) : byteSymbol b.toNat ≠ 256 := by
  intro h
  have hval : b.toNat = 256 := by rw [← byteSymbol_val, h]; rfl
  exact absurd b.isLt (by omega)

/-- The payload of bytes under a tree's code table is made of paths to their leaves and then one to the end-marker's. -/
theorem paths_of_payload {T : Tree} {bytes : List Byte} {p : List Bool} (h : payload (codesOf T) bytes = some p) :
    ∃ (xs : List (Symbol × List Bool)) (q : List Bool), xs.map (·.1) = bytes.map (fun b => byteSymbol b.toNat) ∧
      (∀ x ∈ xs, x ∈ T.paths) ∧ (256, q) ∈ T.paths ∧ p = (xs.map (·.2)).flatten ++ q := by
  induction bytes generalizing p with
  | nil => exact ⟨[], p, rfl, by simp, mem_paths_of_codesOf h, rfl⟩
  | cons b bs ih =>
    simp only [payload] at h
    split at h
    next c p' hc hp' =>
      obtain rfl : c ++ p' = p := Option.some.inj h
      obtain ⟨xs, q, hsyms, hpaths, hq, rfl⟩ := ih hp'
      refine ⟨(byteSymbol b.toNat, c) :: xs, q, by simp [hsyms], ?_, hq, by simp⟩
      simpa using ⟨mem_paths_of_codesOf hc, fun y d hyd => hpaths _ hyd⟩
    next => cases h

/-- The bits DECODE writes for the leaves of bytes are the bits of the bytes. -/
theorem flatten_field_of_map_fst {xs : List (Symbol × List Bool)} {bytes : List Byte}
    (h : xs.map (·.1) = bytes.map fun b => byteSymbol b.toNat) :
    (xs.map fun x => field 8 x.1.val).flatten = byteBits bytes := by
  have hmap : (xs.map fun x => field 8 x.1.val) = bytes.map fun b => field 8 b.toNat := by
    calc (xs.map fun x => field 8 x.1.val) = (xs.map (·.1)).map fun y => field 8 y.val := by simp
      _ = bytes.map fun b => field 8 b.toNat := by simp [h, byteSymbol_val]
  rw [hmap, byteBits, List.flatMap_def]

/-- A command that ends without an error has completed (40_control R101, 60_exceptions R203). -/
theorem finish_eq_next_of_no_error {r : Run Unit} {t : State} (h : finish r = .next t) (herr : t.err = false) :
    ∃ s, r = .ok () s ∧ t = complete s := by
  rcases finish_next h with hok | ⟨e, s, -, rfl⟩
  · exact hok
  · cases herr

/-- Settles O48: a successful COMPRESS has written MAGIC, the header of its tree and paths of that tree
(`stream_of_compressBody`, `paths_of_payload`), which is what DECOMPRESS reads (`decompressBody_of_holds`). -/
theorem decompressInvertsCompress : Obligations.DecompressInvertsCompress := by
  intro S s t u hl _ hrun herr hmagic hlen hread hcap
  obtain ⟨t, hbody, rfl⟩ := finish_eq_next_of_no_error hrun herr
  obtain ⟨T, p, hnode, hsize, hT, hp, hh, hle⟩ := stream_of_compressBody hl hbody
  obtain ⟨xs, q, hsyms, hpaths, hq, rfl⟩ := paths_of_payload hp
  have hcount : xs.length = S.length := by simpa using congrArg List.length hsyms
  have hx : ∀ x ∈ xs, x ∈ T.paths ∧ x.1 ≠ 256 := by
    intro x hx
    obtain ⟨b, -, hb⟩ := List.mem_map.1 (hsyms ▸ List.mem_map_of_mem hx)
    exact ⟨hpaths x hx, hb ▸ byteSymbol_ne_eof b⟩
  rw [← hmagic] at hh hle
  rw [complete_outBits] at hlen
  have hroom := hle.trans_eq hlen.symm
  obtain ⟨m, hout, hdec⟩ := decompressBody_of_holds hnode hsize hx hq hroom (hh.of_read_eq hread hroom)
    (hcount.trans_le hcap)
  rw [flatten_field_of_map_fst hsyms] at hout
  refine ⟨_, by rw [exec, execDecompress, hdec, finish_ok], by simp, by simp, by simp, by simp [hT], ?_,
    fun i hi => ?_⟩
  · rw [complete_outBits]
    exact outBits_outClose_of_bytes (by simp [hcount])
  · simpa using read_of_holds_byteBits (a := 0) hout i hi

end Sys2Proof.Machine
end

section
/-! SUPPORT. Decoding and encoding are inverse to one another, field by field (30_encoding R81, R83, R84). -/

namespace Sys2Proof

/-! ### The fields of a word with no reserved bit set (30_encoding R81) -/

@[simp] theorem opcOf_wordOf (opc : Byte) (n : BitVec 6) : opcOf (wordOf opc n) = opc := by
  ext i hi
  simp only [opcOf, wordOf, BitVec.getElem_extractLsb', BitVec.getLsbD_append]
  simp [hi]

@[simp] theorem countOf_wordOf (opc : Byte) (n : BitVec 6) : countOf (wordOf opc n) = n := by
  ext i hi
  simp only [countOf, wordOf, BitVec.getElem_extractLsb', BitVec.getLsbD_append]
  simp [hi]

@[simp] theorem rsvOf_wordOf (opc : Byte) (n : BitVec 6) : rsvOf (wordOf opc n) = 0 := by
  ext i hi
  simp only [rsvOf, wordOf, BitVec.getElem_extractLsb', BitVec.getLsbD_append]
  simp [show ¬ 14 + i < 8 by omega, show ¬ 14 + i - 8 < 6 by omega]

/-- A word is its three fields. -/
theorem fields_append (w : Word) : (rsvOf w ++ countOf w ++ opcOf w : BitVec 32) = w := by
  rw [rsvOf, countOf, opcOf, BitVec.extractLsb'_append_extractLsb'_eq_extractLsb' (show 14 = 8 + 6 from rfl),
    BitVec.extractLsb'_append_extractLsb'_eq_extractLsb' (show 8 = 0 + 8 from rfl)]
  exact BitVec.extractLsb'_eq_self

theorem wordOf_of_rsvOf {w : Word} (h : rsvOf w = 0) : wordOf (opcOf w) (countOf w) = w := by
  have hw := fields_append w
  rw [h] at hw
  exact hw

/-- Where every bit above OPC is 0, both fields there are. -/
theorem fields_of_aboveOpc {w : Word} (h : w.extractLsb' 8 24 = 0) : rsvOf w = 0 ∧ countOf w = 0 := by
  have hlt := (aboveOpc_eq_zero_iff w).1 h
  refine ⟨(rsvOf_eq_zero_iff w).2 (by omega), BitVec.eq_of_toNat_eq ?_⟩
  simp [countOf, Nat.shiftRight_eq_div_pow]
  omega

/-! ### The rows of the map without N (30_encoding R83) -/

/-- A row without N: its opcode alone is the word of its command, which is well-formed. -/
theorem encode_of_plainOf {opc : Byte} {i : Instr} (h : plainOf opc = some i) :
    encode i = wordOf opc 0 ∧ i.wellFormed = true := by
  have rows : ∀ r ∈ plainRows, encode r.2 = wordOf r.1 0 ∧ r.2.wellFormed = true := by decide
  obtain ⟨r, hr, rfl⟩ := Option.map_eq_some_iff.1 h
  obtain rfl : r.1 = opc := by simpa using List.find?_some hr
  exact rows r (List.mem_of_find?_eq_some hr)

/-! ### Counted words (30_encoding R84) -/

theorem decodeCounted_wordOf (make : BitVec 6 → Instr) (opc : Byte) {n : BitVec 6} (h : legalCount n = true) :
    decodeCounted make (wordOf opc n) = .ok (make n) := by
  simp [decodeCounted, h]

/-- What an accepted counted word says: its RSV is 0, its N is legal, and its command is made of N. -/
theorem decodeCounted_ok {make : BitVec 6 → Instr} {w : Word} {i : Instr} (h : decodeCounted make w = .ok i) :
    rsvOf w = 0 ∧ legalCount (countOf w) = true ∧ make (countOf w) = i := by
  unfold decodeCounted at h
  split at h
  · cases h
  · rename_i hrsv
    split at h
    · exact ⟨not_not.1 hrsv, ‹_›, Except.ok.inj h⟩
    · cases h

/-- Settles O1: a command without N has one word, and one with N is read back field by field. -/
theorem decodeOfEncodeIsTheCommand : Obligations.DecodeOfEncodeIsTheCommand := by
  intro i hi
  cases i with
  | rdbits n =>
    rw [encode, decode, if_pos (opcOf_wordOf _ _)]
    exact decodeCounted_wordOf _ _ hi
  | wrbits n =>
    rw [encode, decode, if_neg (by rw [opcOf_wordOf]; decide), if_pos (opcOf_wordOf _ _)]
    exact decodeCounted_wordOf _ _ hi
  | _ => rfl

/-- Settles O2: an accepted word is its fields put together again, which is what `encode` writes. -/
theorem encodeOfDecodeIsTheWord : Obligations.EncodeOfDecodeIsTheWord := by
  intro w i h
  unfold decode at h
  split at h
  next hopc =>
    obtain ⟨hrsv, hn, rfl⟩ := decodeCounted_ok h
    exact ⟨by rw [encode, ← hopc, wordOf_of_rsvOf hrsv], hn⟩
  next =>
    split at h
    next hopc =>
      obtain ⟨hrsv, hn, rfl⟩ := decodeCounted_ok h
      exact ⟨by rw [encode, ← hopc, wordOf_of_rsvOf hrsv], hn⟩
    next =>
      split at h
      next => cases h
      next j hj =>
        split at h
        next hz =>
          obtain rfl : j = i := Except.ok.inj h
          obtain ⟨hrsv, hn⟩ := fields_of_aboveOpc hz
          obtain ⟨hword, hwf⟩ := encode_of_plainOf hj
          exact ⟨by rw [hword, ← hn, wordOf_of_rsvOf hrsv], hwf⟩
        next => cases h

/-- Settles O4: the decoder run on each word of the map. -/
theorem opcodeMapWordsDecode : Obligations.OpcodeMapWordsDecode := by
  unfold Obligations.OpcodeMapWordsDecode
  decide

end Sys2Proof
end

section
/-! SUPPORT. What a command can do to the state, said once: a chain of named updates, each of one part of the state, and
then completion, an error of its own, or the fault of an unwritten input byte (40_control R101, 60_exceptions R203,
R216). -/

namespace Sys2Proof.Machine

/-! ### The updates -/

/-- The parts of the state the commands write. -/
inductive Part where
  | cursor | output | result | freq | tree | codes | reset
  deriving DecidableEq

/-- One update a command makes, with what the command knows where it makes it. -/
inductive Update : Part → State → State → Prop where
  | seek {s : State} {p : Nat} (h : p ≤ 8 * s.inLen) : Update .cursor s (seek p s)
  | append {s : State} (b : Bool) (hopen : s.outClosed = false) (hroom : s.outBits ≠ 8 * s.outCap) :
      Update .output s (appendBit b s)
  | close (s : State) : Update .output s (outClose s)
  | clear (s : State) : Update .output s (outClear s)
  | result (v : Option Nat) (s : State) : Update .result s (writeResult v s)
  | count {s : State} {bytes : List Byte} (h : bytes.length ≤ s.inLen) :
      Update .freq s (setFreq (countTable bytes) s)
  | build (s : State) : Update .tree s (buildBody s)
  | drop (s : State) : Update .tree s (dropTree s)
  | install {s : State} {t : Tree} (hroot : t.isNode = true) (hsize : t.size ≤ Config.nodeCap)
      (hcodes : s.codesValid = false ∧ s.codes = noCodes) : Update .tree s (installTree (some t) t.size s)
  | codes {s : State} {t : Tree} (h : validTree s = some t) : Update .codes s (installCodes (codesOf t) s)
  | reset (s : State) : Update .reset s (softReset s)

/-- A chain of updates of the parts in the list. -/
def Reach (ps : List Part) : State → State → Prop :=
  Relation.ReflTransGen fun s t => ∃ p ∈ ps, Update p s t

theorem Reach.refl {ps : List Part} (s : State) : Reach ps s s := Relation.ReflTransGen.refl

theorem Update.reach {p : Part} {ps : List Part} {s t : State} (h : Update p s t) (hp : p ∈ ps) : Reach ps s t :=
  Relation.ReflTransGen.single ⟨p, hp, h⟩

theorem Reach.trans {ps : List Part} {s t u : State} (h : Reach ps s t) (h' : Reach ps t u) : Reach ps s u :=
  Relation.ReflTransGen.trans h h'

theorem Reach.mono {ps qs : List Part} {s t : State} (h : Reach ps s t) (hsub : ps ⊆ qs) : Reach qs s t :=
  Relation.ReflTransGen.mono (fun _ _ ⟨p, hp, hu⟩ => ⟨p, hsub hp, hu⟩) _ _ h

/-- What every update of the parts keeps, the chain keeps. -/
theorem Reach.keeps {ps : List Part} {P : State → Prop} {s t : State} (h : Reach ps s t)
    (hkeep : ∀ p ∈ ps, ∀ {a b}, Update p a b → P a → P b) (hs : P s) : P t := by
  induction h with
  | refl => exact hs
  | tail _ hstep ih =>
    obtain ⟨p, hp, hu⟩ := hstep
    exact hkeep p hp hu ih

/-- A field that every update of the parts leaves alone, the chain leaves alone. -/
theorem Reach.field_eq {ps : List Part} {α : Type} {s t : State} (f : State → α) (h : Reach ps s t)
    (hkeep : ∀ p ∈ ps, ∀ {a b}, Update p a b → f b = f a) : f t = f s :=
  h.keeps (P := fun u => f u = f s) (fun p hp _ _ hu ha => (hkeep p hp hu).trans ha) rfl

/-! ### What no update touches -/

/-- The fields no command writes but `complete` and `raise` (10_state sections 3, 5 and 6). -/
def hostSide (s : State) :=
  (s.magic, s.inCap, s.outCap, s.pending, s.cmdLast, s.arg, s.inMem, s.inLen, s.program, s.line, s.todo, s.reply,
    s.draws)

/-- The command report (10_state R25, R26). -/
def report (s : State) := (s.busy, s.done, s.err, s.errCode)

theorem Update.hostSide_report {p : Part} {s t : State} (h : Update p s t) :
    hostSide t = hostSide s ∧ report t = report s := by
  cases h with
  | close => rw [outClose_eq]; exact ⟨rfl, rfl⟩
  | result v => cases v <;> exact ⟨rfl, rfl⟩
  | _ => exact ⟨rfl, rfl⟩

theorem Reach.hostSide_eq {ps : List Part} {s t : State} (h : Reach ps s t) : hostSide t = hostSide s :=
  h.field_eq hostSide fun _ _ _ _ hu => hu.hostSide_report.1

theorem Reach.report_eq {ps : List Part} {s t : State} (h : Reach ps s t) : report t = report s :=
  h.field_eq report fun _ _ _ _ hu => hu.hostSide_report.2

theorem Reach.inputWritten {ps : List Part} {s t : State} (h : Reach ps s t) (hw : InputWritten s) :
    InputWritten t := by
  have hside := h.hostSide_eq
  simp only [hostSide, Prod.mk.injEq] at hside
  obtain ⟨-, -, -, -, -, -, hmem, hlen, -⟩ := hside
  intro i hi
  rw [hmem]
  exact hw i (hlen ▸ hi)

/-! ### A part of a command -/

/-- How a part of a command ends: after a chain of updates it goes on or raises one of the errors, or it has met an
unwritten input byte. -/
def Run.Ends {α : Type} (ps : List Part) (es : List ErrCode) (s : State) : Run α → Prop
  | .ok _ t => Reach ps s t
  | .error e t => Reach ps s t ∧ e ∈ es
  | .fault f => f = .unwrittenInput ∧ ¬ InputWritten s

theorem Run.Ends.from {α : Type} {ps : List Part} {es : List ErrCode} {s t : State} {r : Run α}
    (h : Reach ps s t) (hr : r.Ends ps es t) : r.Ends ps es s := by
  cases r with
  | ok a u => exact h.trans hr
  | error e u => exact ⟨h.trans hr.1, hr.2⟩
  | fault f => exact ⟨hr.1, fun hw => hr.2 (h.inputWritten hw)⟩

theorem Run.Ends.bind {α β : Type} {ps : List Part} {es : List ErrCode} {s : State} {r : Run α}
    {f : α → State → Run β} (hr : r.Ends ps es s) (hf : ∀ a t, r = .ok a t → (f a t).Ends ps es t) :
    (r.bind f).Ends ps es s := by
  cases r with
  | ok a t => exact .from hr (hf a t rfl)
  | error e t => exact hr
  | fault f => exact hr

theorem Run.Ends.mono {α : Type} {ps qs : List Part} {es fs : List ErrCode} {s : State} {r : Run α}
    (hr : r.Ends ps es s) (hps : ps ⊆ qs) (hes : es ⊆ fs) : r.Ends qs fs s := by
  cases r with
  | ok a t => exact Reach.mono hr hps
  | error e t => exact ⟨hr.1.mono hps, hes hr.2⟩
  | fault f => exact hr

theorem inRead_ends (n : Nat) (s : State) : (inRead n s).Ends [.cursor] [] s := by
  rcases inRead_cases n s with ⟨-, h⟩ | ⟨bs, hle, -, -, h⟩ | ⟨-, -, h⟩
  · rw [h]; exact .refl s
  · rw [h]; exact (Update.seek hle).reach (by simp)
  · rw [h]; exact ⟨rfl, fun hw => inRead_written hw h⟩

theorem outPut_ends (bs : List Bool) (s : State) :
    (Run.ofEmit (outPut bs s)).Ends [.output] [.outputClosed, .outputOverflow] s := by
  induction bs generalizing s with
  | nil => exact .refl s
  | cons b bs ih =>
    rw [outPut]
    split
    · exact ⟨.refl s, by simp⟩
    · split
      · exact ⟨.refl s, by simp⟩
      · exact .from ((Update.append b (by simpa using ‹¬ s.outClosed = true›) ‹_›).reach (by simp)) (ih _)

end Sys2Proof.Machine
end

section
/-! SUPPORT. How each command ends, and what follows for all of them: they complete, they report their errors, and each
part of the state has its writers (40_control R101, 60_exceptions R202). -/

namespace Sys2Proof.Machine

/-! ### What each kind of update writes -/

theorem writeResult_eq (v : Option Nat) (s : State) :
    writeResult v s = { s with result := (writeResult v s).result, eos := (writeResult v s).eos } := by
  cases v <;> rfl

theorem Update.result_eq {p : Part} {s t : State} (h : Update p s t) (hp : p ∉ [Part.result, .reset]) :
    (t.result, t.eos) = (s.result, s.eos) := by
  cases h with
  | result | reset => simp at hp
  | close => rw [outClose_eq]
  | _ => rfl

theorem Update.freq_eq {p : Part} {s t : State} (h : Update p s t) (hp : p ∉ [Part.freq, .reset]) :
    t.freq = s.freq := by
  cases h with
  | count | reset => simp at hp
  | close => rw [outClose_eq]
  | result => rw [writeResult_eq]
  | _ => rfl

theorem Update.tree_eq {p : Part} {s t : State} (h : Update p s t) (hp : p ∉ [Part.tree, .reset]) :
    (t.tree, t.nodes, t.treeValid) = (s.tree, s.nodes, s.treeValid) := by
  cases h with
  | build | drop | install | reset => simp at hp
  | close => rw [outClose_eq]
  | result => rw [writeResult_eq]
  | _ => rfl

theorem Update.codes_eq {p : Part} {s t : State} (h : Update p s t) (hp : p ∉ [Part.codes, .tree, .reset]) :
    (t.codes, t.codesValid) = (s.codes, s.codesValid) := by
  cases h with
  | codes | build | drop | install | reset => simp at hp
  | close => rw [outClose_eq]
  | result => rw [writeResult_eq]
  | _ => rfl

theorem Update.output_eq {p : Part} {s t : State} (h : Update p s t) (hp : p ∉ [Part.output, .reset]) :
    (t.outMem, t.outBits, t.outClosed) = (s.outMem, s.outBits, s.outClosed) := by
  cases h with
  | append | close | clear | reset => simp at hp
  | result => rw [writeResult_eq]
  | _ => rfl

theorem Update.inPos_eq {p : Part} {s t : State} (h : Update p s t) (hp : p ∉ [Part.cursor, .reset]) :
    t.inPos = s.inPos := by
  cases h with
  | seek | reset => simp at hp
  | close => rw [outClose_eq]
  | result => rw [writeResult_eq]
  | _ => rfl

theorem Update.ovr_eq {p : Part} {s t : State} (h : Update p s t) (hp : p ≠ .reset) : t.ovr = s.ovr := by
  cases h with
  | reset => exact absurd rfl hp
  | close => rw [outClose_eq]
  | result => rw [writeResult_eq]
  | _ => rfl

/-! ### The parts of the commands -/

theorem reach_seek {s : State} {p : Nat} (h : p ≤ 8 * s.inLen ∨ p = s.inPos) :
    Reach [.cursor] s (seek p s) := by
  rcases h with h | rfl
  · exact (Update.seek h).reach (by simp)
  · exact .refl s

theorem reach_rewind (s : State) : Reach [.cursor] s (rewind s) := reach_seek (.inl (Nat.zero_le _))

/-- Where the composites start: OUTCLR, then IN_POS <- 0. -/
theorem reach_rewind_outClear (s : State) : Reach [.output, .cursor] s (rewind (outClear s)) :=
  ((Update.clear s).reach (by simp)).trans ((reach_rewind _).mono (by simp))

theorem chkmagicBody_ends (s : State) : (chkmagicBody s).Ends [.cursor] [.badMagic] s := by
  refine .bind ((inRead_ends _ s).mono (by simp) (by simp)) fun v t _ => ?_
  split
  · exact .refl t
  · exact ⟨.refl t, by simp⟩

/-- Rd from any position: past the end of the stream it fails at once, else it is `rd_cases`. -/
theorem rd_cases_of_any {fuel count : Nat} (s : State) (hf : 513 < fuel + count) (hpos : 0 < fuel) :
    (∃ t, count + t.size ≤ 513 ∧ (s.inPos + (header t).length ≤ 8 * s.inLen) ∧
      rd fuel count s = .ok (t, count + t.size) (seek (s.inPos + (header t).length) s)) ∨
    (∃ e p, e ∈ [ErrCode.malformedHeader, .headerOverflow, .badSymbol] ∧ (p ≤ 8 * s.inLen ∨ p = s.inPos) ∧
      rd fuel count s = .error e (seek p s)) ∨
    (rd fuel count s = .fault .unwrittenInput ∧ ¬ InputWritten s) := by
  by_cases hp : s.inPos ≤ 8 * s.inLen
  · rcases rd_cases fuel count s hf hp with ⟨t, -, hc, hle, -, h⟩ | ⟨e, p, he, -, hle, h⟩ | h
    · exact .inl ⟨t, hc, hle, h⟩
    · exact .inr (.inl ⟨e, p, he, .inl hle, h⟩)
    · exact .inr (.inr h)
  · obtain ⟨k, rfl⟩ : ∃ k, fuel = k + 1 := ⟨fuel - 1, by omega⟩
    exact .inr (.inl ⟨.malformedHeader, s.inPos, by simp, .inr rfl, by rw [rd, inRead_eos (by omega)]; rfl⟩)

theorem rdhdrBody_ends (s : State) :
    (rdhdrBody s).Ends [.cursor, .tree] [.malformedHeader, .headerOverflow, .badSymbol] s := by
  refine .from ((Update.drop s).reach (by simp)) ?_
  rw [rdhdrBody]
  rcases rd_cases_of_any (fuel := Config.nodeCap + 1) (count := 0) (dropTree s) (by simp) (by simp) with
    ⟨t, hsize, hle, h⟩ | ⟨e, p, he, hp, h⟩ | h
  · have hread := (reach_seek (.inl hle)).mono (qs := [.cursor, .tree]) (by simp)
    rw [h, Run.ok_bind, Nat.zero_add]
    split
    next hroot =>
      rw [Nat.zero_add] at hsize
      exact hread.trans ((Update.install hroot hsize ⟨rfl, rfl⟩).reach (by simp))
    next => exact ⟨hread, by simp⟩
  · rw [h]
    exact ⟨(reach_seek hp).mono (qs := [.cursor, .tree]) (by simp), he⟩
  · rw [h.1]
    exact ⟨rfl, h.2⟩

theorem decodeLoop_ends (k : Nat) (root p : Tree) (s : State) :
    (decodeLoop k root p s).Ends [.cursor, .output] [.truncatedStream, .outputClosed, .outputOverflow] s := by
  induction k generalizing p s with
  | zero => exact ⟨.refl s, by simp⟩
  | succ k ih =>
    refine .bind ((inRead_ends 1 s).mono (by simp) (by simp)) fun b t _ => ?_
    cases b with
    | none => exact ⟨.refl t, by simp⟩
    | some b =>
      simp only
      split
      · split
        · exact .refl t
        · exact .bind ((outPut_ends _ t).mono (by simp) (by simp)) fun _ u _ => ih root u
      · exact ih _ t

theorem decodeBody_ends (s : State) :
    (decodeBody s).Ends [.cursor, .output] (.sequence :: [.truncatedStream, .outputClosed, .outputOverflow]) s := by
  rw [decodeBody]
  split
  · exact ⟨.refl s, by simp⟩
  · exact (decodeLoop_ends _ _ _ s).mono (by simp) (by simp)

theorem countBody_ends (s : State) : (countBody s).Ends [.cursor, .freq] [] s := by
  rcases countBody_cases s with ⟨bytes, hlen, -, h⟩ | h
  · rw [h]
    have hcount : Reach [.cursor, .freq] s (setFreq (countTable bytes) s) :=
      (Update.count (by omega)).reach (by simp)
    refine hcount.trans ((reach_seek ?_).mono (qs := [.cursor, .freq]) (by simp))
    rw [setFreq_inLen, setFreq_inPos]
    omega
  · rw [h.1]
    exact ⟨rfl, h.2⟩

theorem emitCode_ends (v : Symbol) (s : State) :
    (emitCode v s).Ends [.output] [.noCode, .outputClosed, .outputOverflow] s := by
  rw [emitCode]
  split
  · exact ⟨.refl s, by simp⟩
  · exact (outPut_ends _ s).mono (by simp) (by simp)

theorem encodeLoop_ends (k : Nat) (s : State) :
    (encodeLoop k s).Ends [.cursor, .output] [.noCode, .outputClosed, .outputOverflow] s := by
  induction k generalizing s with
  | zero => exact .refl s
  | succ k ih =>
    refine .bind ((inRead_ends _ s).mono (by simp) (by simp)) fun v t _ => ?_
    cases v with
    | none => exact .refl t
    | some v => exact .bind ((emitCode_ends _ t).mono (by simp) (by simp)) fun _ u _ => ih u

theorem encodePayload_ends (s : State) :
    (encodePayload s).Ends [.cursor, .output] [.noCode, .outputClosed, .outputOverflow] s :=
  .bind (.from ((reach_rewind s).mono (by simp)) (encodeLoop_ends _ _)) fun _ t _ =>
    (emitCode_ends _ t).mono (by simp) (by simp)

theorem encodeBody_ends (s : State) :
    (encodeBody s).Ends [.cursor, .output] [.sequence, .outputClosed, .outputOverflow, .noCode] s := by
  rw [encodeBody]
  split
  · refine .bind ((outPut_ends _ s).mono (by simp) (by simp)) fun _ t _ => ?_
    refine .bind ((outPut_ends _ t).mono (by simp) (by simp)) fun _ u _ => ?_
    refine .bind ((encodePayload_ends u).mono (by simp) (by simp)) fun _ v _ => ?_
    exact (Update.close v).reach (by simp)
  · exact ⟨.refl s, by simp⟩

theorem gencodesBody_ends (s : State) : (Run.ofEmit (gencodesBody s)).Ends [.codes] [.sequence] s := by
  rw [gencodesBody]
  split
  · exact ⟨.refl s, by simp⟩
  · exact (Update.codes ‹_›).reach (by simp)

theorem wrhdrBody_ends (s : State) :
    (Run.ofEmit (wrhdrBody s)).Ends [.output] [.sequence, .outputClosed, .outputOverflow] s := by
  rw [wrhdrBody]
  split
  · exact ⟨.refl s, by simp⟩
  · exact (outPut_ends _ s).mono (by simp) (by simp)

theorem compressBody_ends (s : State) :
    (compressBody s).Ends [.cursor, .output, .freq, .tree, .codes]
      [.sequence, .outputClosed, .outputOverflow, .noCode] s := by
  refine .bind (.from ((reach_rewind_outClear s).mono (by simp)) ((countBody_ends _).mono (by simp) (by simp)))
    fun _ t _ => ?_
  refine .from ((Update.build t).reach (by simp)) ?_
  exact .bind ((gencodesBody_ends _).mono (by simp) (by simp)) fun _ u _ =>
    (encodeBody_ends u).mono (by simp) (by simp)

/-- With an open output DECODE's walk cannot find it closed (43_decoder R175). -/
theorem decodeLoop_ends_open {k : Nat} {root p : Tree} {s : State} (ho : s.outClosed = false)
    (hk : 8 * s.inLen < s.inPos + k) :
    (decodeLoop k root p s).Ends [.cursor, .output] [.truncatedStream, .outputOverflow] s := by
  have hends := decodeLoop_ends k root p s
  rcases decodeLoop_cases root k p s hk with
    ⟨xs, m, q, -, -, -, ⟨h, -⟩ | ⟨h, -⟩ | ⟨-, hc, -⟩ | ⟨h, -⟩⟩ | ⟨h, -⟩
  · rw [h] at hends ⊢
    exact hends
  · rw [h] at hends ⊢
    exact ⟨hends.1, by simp⟩
  · rw [ho] at hc
    cases hc
  · rw [h] at hends ⊢
    exact ⟨hends.1, by simp⟩
  · rw [h] at hends ⊢
    exact hends

/-- RDHDR that goes on leaves a tree (43_decoder R173). -/
theorem validTree_of_rdhdrBody {s t : State} (h : rdhdrBody s = .ok () t) : ∃ T, validTree t = some T := by
  obtain ⟨T, u, -, h⟩ := Run.bind_ok h
  split at h
  · cases h
    exact ⟨T.1, rfl⟩
  · cases h

theorem Reach.outClosed_eq {ps : List Part} {s t : State} (h : Reach ps s t)
    (hps : ∀ p ∈ ps, p ∉ [Part.output, .reset]) : t.outClosed = s.outClosed :=
  h.field_eq (·.outClosed) fun p hp _ _ hu => (Prod.mk.inj (Prod.mk.inj (hu.output_eq (hps p hp))).2).2

/-- DECOMPRESS clears the output and reads a tree before it decodes, so DECODE asks for neither. -/
theorem decompressBody_ends (s : State) :
    (decompressBody s).Ends [.cursor, .output, .tree]
      [.badMagic, .malformedHeader, .headerOverflow, .badSymbol, .truncatedStream, .outputOverflow] s := by
  have hmagic := chkmagicBody_ends (rewind (outClear s))
  refine .bind (.from ((reach_rewind_outClear s).mono (by simp)) (hmagic.mono (by simp) (by simp))) fun _ t ht => ?_
  have hheader := rdhdrBody_ends t
  refine .bind (hheader.mono (by simp) (by simp)) fun _ u hu => ?_
  have hopen : u.outClosed = false := by
    rw [ht] at hmagic
    rw [hu] at hheader
    exact (Reach.outClosed_eq hheader (by simp)).trans (Reach.outClosed_eq hmagic (by simp))
  obtain ⟨T, hT⟩ := validTree_of_rdhdrBody hu
  refine .bind ?_ fun _ v _ => (Update.close v).reach (by simp)
  rw [decodeBody, hT]
  exact (decodeLoop_ends_open hopen (by omega)).mono (by simp) (by simp)

/-! ### A whole command -/

/-- How a command ends: after a chain of updates it completes or raises one of the errors, or it has met an unwritten
input byte. -/
def Ended (ps : List Part) (es : List ErrCode) (s : State) : Host.Outcome State Fault Refusal → Prop
  | .next t => ∃ u, Reach ps s u ∧ (t = complete u ∨ ∃ e ∈ es, t = raise e u)
  | .fault f => f = .unwrittenInput ∧ ¬ InputWritten s
  | .refused _ => False

theorem Run.Ends.finish {ps : List Part} {es : List ErrCode} {s : State} {r : Run Unit} (h : r.Ends ps es s) :
    Ended ps es s (finish r) := by
  cases r with
  | ok a t => exact ⟨t, h, .inl rfl⟩
  | error e t => exact ⟨t, h.1, .inr ⟨e, h.2, rfl⟩⟩
  | fault f => exact h

/-- The end of a command that reads no input is that of the same parts as a `Run`. -/
theorem finish_ofEmit (e : Emit) : finish (Run.ofEmit e) = .next (settle e) := by
  rcases e with ⟨e, s⟩ | s <;> rfl

theorem Run.Ends.settle {ps : List Part} {es : List ErrCode} {s : State} {e : Emit}
    (h : (Run.ofEmit e).Ends ps es s) : Ended ps es s (.next (settle e)) := by
  rw [← finish_ofEmit]
  exact h.finish

theorem Update.ended {p : Part} {ps : List Part} {es : List ErrCode} {s t : State} (h : Update p s t) (hp : p ∈ ps) :
    Ended ps es s (.next (complete t)) :=
  ⟨t, h.reach hp, .inl rfl⟩

/-- The parts of the state each command may write. -/
def partsOf : Instr → List Part
  | .nop => []
  | .srst => [.reset]
  | .rdbits _ => [.cursor, .result]
  | .wrbits _ | .close | .outclr | .wrhdr => [.output]
  | .rstin | .chkmagic => [.cursor]
  | .count => [.cursor, .freq]
  | .build => [.tree]
  | .gencodes => [.codes]
  | .encode | .decode => [.cursor, .output]
  | .compress => [.cursor, .output, .freq, .tree, .codes]
  | .rdhdr => [.cursor, .tree]
  | .decompress => [.cursor, .output, .tree]

/-- The errors each command raises, read off its parts one by one: an ill-formed command is the illegal command, and
COMPRESS is given every error of ENCODE. -/
def raises : Instr → List ErrCode
  | .rdbits n => if legalCount n then errorsOf (.rdbits n) else [.illegalCommand]
  | .wrbits n => if legalCount n then errorsOf (.wrbits n) else [.illegalCommand]
  | .compress => errorsOf .encode
  | i => errorsOf i

/-- Everything a command can do. -/
theorem exec_ended (i : Instr) (s : State) : Ended (partsOf i) (raises i) s (exec i s) := by
  cases i with
  | nop => exact ⟨s, .refl s, .inl rfl⟩
  | srst => exact (Update.reset s).ended (by simp [partsOf])
  | rdbits n =>
    rw [exec, execRdbits, raises]
    split
    · refine Run.Ends.finish (.bind ((inRead_ends _ s).mono (by simp [partsOf]) (by simp)) fun v t _ => ?_)
      exact (Update.result v t).reach (by simp [partsOf])
    · exact ⟨s, .refl s, .inr ⟨_, by simp, rfl⟩⟩
  | wrbits n =>
    rw [exec, execWrbits, raises]
    split
    · exact (outPut_ends _ s).settle
    · exact ⟨s, .refl s, .inr ⟨_, by simp, rfl⟩⟩
  | rstin => exact ⟨_, reach_rewind s, .inl rfl⟩
  | close => exact (Update.close s).ended (by simp [partsOf])
  | outclr => exact (Update.clear s).ended (by simp [partsOf])
  | count => exact (countBody_ends s).finish
  | build => exact (Update.build s).ended (by simp [partsOf])
  | gencodes => exact (gencodesBody_ends s).settle
  | wrhdr => exact (wrhdrBody_ends s).settle
  | encode => exact (encodeBody_ends s).finish
  | compress => exact (compressBody_ends s).finish
  | chkmagic => exact (chkmagicBody_ends s).finish
  | rdhdr => exact (rdhdrBody_ends s).finish
  | decode => exact (decodeBody_ends s).finish
  | decompress => exact (decompressBody_ends s).finish

/-- Everything a command that answers a next state can do. -/
theorem exec_next {i : Instr} {s t : State} (h : exec i s = .next t) :
    ∃ u, Reach (partsOf i) s u ∧ (t = complete u ∨ ∃ e ∈ raises i, t = raise e u) := by
  have hend := exec_ended i s
  rw [h] at hend
  exact hend

/-- What no command writes, and what the end of a command leaves alone too. -/
theorem hostSide_of_exec {i : Instr} {s t : State} (h : exec i s = .next t) : hostSide t = hostSide s := by
  obtain ⟨u, hreach, rfl | ⟨e, -, rfl⟩⟩ := exec_next h
  · exact hreach.hostSide_eq
  · exact hreach.hostSide_eq

/-- Settles O51: a command ends as `exec_ended` says, and both `complete` and `raise` clear BUSY and set DONE. -/
theorem everyCommandCompletes : Obligations.EveryCommandCompletes := by
  intro i s
  have hend := exec_ended i s
  cases ho : exec i s with
  | next t =>
    obtain ⟨u, -, rfl | ⟨e, -, rfl⟩⟩ := exec_next ho
    · exact .inl ⟨_, rfl, rfl, rfl⟩
    · exact .inl ⟨_, rfl, rfl, rfl⟩
  | fault f =>
    rw [ho] at hend
    exact .inr ⟨by rw [hend.1], hend.2⟩
  | refused r =>
    rw [ho] at hend
    exact hend.elim

/-- Settles O53: every update keeps the host's side (`Update.hostSide_report`). -/
theorem commandsLeaveTheHostsStateAlone : Obligations.CommandsLeaveTheHostsStateAlone := by
  intro i s t h
  have hside := hostSide_of_exec h
  simp only [hostSide, Prod.mk.injEq] at hside
  obtain ⟨hmagic, hin, hout, hpending, hcmd, harg, hmem, hlen, hprogram, hline, htodo, hreply, hdraws⟩ := hside
  exact ⟨harg, hlen, hmem, hcmd, hpending, hmagic, hin, hout, hprogram, hline, htodo, hreply, hdraws⟩

/-! ### Who writes what -/

/-- A field of the parts that `complete` and `raise` leave alone keeps its value under a command none of whose updates
writes it. -/
theorem field_of_exec {α : Type} (f : State → α) {i : Instr} {s t : State} (h : exec i s = .next t)
    (hcomplete : ∀ u, f (complete u) = f u) (hraise : ∀ e u, f (raise e u) = f u)
    (hkeep : ∀ p ∈ partsOf i, ∀ {a b}, Update p a b → f b = f a) : f t = f s := by
  obtain ⟨u, hreach, rfl | ⟨e, -, rfl⟩⟩ := exec_next h
  · exact (hcomplete u).trans (hreach.field_eq f hkeep)
  · exact (hraise e u).trans (hreach.field_eq f hkeep)

/-- `partsOf` gives each part of the state the commands that 10_state sections 3 to 5 name as its writers. -/
theorem partsOf_writers (i : Instr) :
    (i ≠ .srst → (∀ n, i ≠ .rdbits n) → ∀ p ∈ partsOf i, p ∉ [Part.result, .reset]) ∧
    (i ∉ [Instr.count, .compress, .srst] → ∀ p ∈ partsOf i, p ∉ [Part.freq, .reset]) ∧
    (i ∉ [Instr.build, .rdhdr, .compress, .decompress, .srst] → ∀ p ∈ partsOf i, p ∉ [Part.tree, .reset]) ∧
    (i ∉ [Instr.gencodes, .build, .rdhdr, .compress, .decompress, .srst] →
      ∀ p ∈ partsOf i, p ∉ [Part.codes, .tree, .reset]) ∧
    (i ∉ [Instr.srst, .close, .outclr, .wrhdr, .encode, .compress, .decode, .decompress] → (∀ n, i ≠ .wrbits n) →
      ∀ p ∈ partsOf i, p ∉ [Part.output, .reset]) ∧
    (i ∉ [Instr.srst, .rstin, .count, .encode, .compress, .chkmagic, .rdhdr, .decode, .decompress] →
      (∀ n, i ≠ .rdbits n) → ∀ p ∈ partsOf i, p ∉ [Part.cursor, .reset]) ∧
    (i ≠ .srst → ∀ p ∈ partsOf i, p ≠ .reset) := by
  cases i <;> simp [partsOf]

/-- Settles O54: each part of the state is written by its own kind of update only, and `partsOf` lists the kinds each
command makes. -/
theorem eachRegisterHasItsWriters : Obligations.EachRegisterHasItsWriters := by
  intro i s t h
  obtain ⟨hresult, hfreq, htree, hcodes, houtput, hcursor, hreset⟩ := partsOf_writers i
  refine ⟨fun h₁ h₂ => ?_, fun h₁ => ?_, fun h₁ => ?_, fun h₁ => ?_, fun h₁ h₂ => ?_, fun h₁ h₂ => ?_, fun h₁ => ?_⟩
  · have := field_of_exec (fun s => (s.result, s.eos)) h (fun _ => rfl) (fun _ _ => rfl)
      fun p hp _ _ hu => hu.result_eq (hresult h₁ h₂ p hp)
    simpa only [Prod.mk.injEq] using this
  · exact field_of_exec (·.freq) h (fun _ => rfl) (fun _ _ => rfl) fun p hp _ _ hu => hu.freq_eq (hfreq h₁ p hp)
  · have := field_of_exec (fun s => (s.tree, s.nodes, s.treeValid)) h (fun _ => rfl) (fun _ _ => rfl)
      fun p hp _ _ hu => hu.tree_eq (htree h₁ p hp)
    simpa only [Prod.mk.injEq] using this
  · have := field_of_exec (fun s => (s.codes, s.codesValid)) h (fun _ => rfl) (fun _ _ => rfl)
      fun p hp _ _ hu => hu.codes_eq (hcodes h₁ p hp)
    simpa only [Prod.mk.injEq] using this
  · have := field_of_exec (fun s => (s.outMem, s.outBits, s.outClosed)) h (fun _ => rfl) (fun _ _ => rfl)
      fun p hp _ _ hu => hu.output_eq (houtput h₁ h₂ p hp)
    simpa only [Prod.mk.injEq] using this
  · exact field_of_exec (·.inPos) h (fun _ => rfl) (fun _ _ => rfl) fun p hp _ _ hu => hu.inPos_eq (hcursor h₁ h₂ p hp)
  · exact field_of_exec (·.ovr) h (fun _ => rfl) (fun _ _ => rfl) fun p hp _ _ hu => hu.ovr_eq (hreset h₁ p hp)

end Sys2Proof.Machine
end

section
/-! SUPPORT. The invariants: what every update of a command and every access of the host keeps, every step keeps
(10_state sections 3 to 7). -/

namespace Sys2Proof.Machine

/-! ### From the updates to the step -/

/-- A property that the updates of the commands, their ends, and the accesses of the host all keep. -/
structure Stable (P : State → Prop) : Prop where
  update : ∀ {p s t}, Update p s t → P s → P t
  complete : ∀ {s}, P s → P (complete s)
  raise : ∀ {s e}, e ≠ ErrCode.none → P s → P (raise e s)
  host : ∀ {s} l td r d, P s → P { s with line := l, todo := td, reply := r, draws := d }
  issue : ∀ {s} w, P s → P (issue w s)
  arg : ∀ {s} v, P s → P { s with arg := v }
  length : ∀ {s} v, P s → P (loadLength v s)
  overrun : ∀ {s}, P s → P (setOverrun s)
  input : ∀ {s i} b, i < s.inCap → P s → P { s with inMem := Memory.write s.inMem i b }
  hardReset : ∀ {s}, P s → P (hardReset s)

theorem none_notMem_raises (i : Instr) : ErrCode.none ∉ raises i := by
  cases i with
  | rdbits n | wrbits n => rw [raises]; split <;> simp [errorsOf]
  | _ => decide

theorem Stable.exec {P : State → Prop} (hP : Stable P) {i : Instr} {s t : State} (h : exec i s = .next t) (hs : P s) :
    P t := by
  obtain ⟨u, hreach, hend⟩ := exec_next h
  have hu : P u := hreach.keeps (fun _ _ _ _ => hP.update) hs
  rcases hend with rfl | ⟨e, he, rfl⟩
  · exact hP.complete hu
  · exact hP.raise (fun hnone => none_notMem_raises i (hnone ▸ he)) hu

theorem Stable.hostMove {P : State → Prop} (hP : Stable P) {m : HostMove} {s t : State} (h : hostMove m s = .next t)
    (hs : P s) : P t := by
  rcases hostMove_next h with ⟨l, td, r, d, rfl⟩ | ⟨off, v, rfl⟩ | ⟨i, b, hi, -, rfl⟩ | rfl
  · exact hP.host l td r d hs
  · rcases writeReg_cases off v s with ⟨-, hw | hw | hw⟩ | ⟨-, hw⟩ | hw
    all_goals rw [hw]
    · exact hP.issue v hs
    · exact hP.arg v hs
    · exact hP.length v hs
    · exact hP.overrun hs
    · exact hs
  · exact hP.input b hi hs
  · exact hP.hardReset hs

/-- What the updates and the accesses keep, every step keeps. -/
theorem Stable.step {P : State → Prop} (hP : Stable P) {s t : State} (hs : P s) (h : step s = .next t) : P t := by
  rcases step_next_cases h with ⟨w, i, -, -, -, hexec⟩ | ⟨w, e, -, -, -, rfl⟩ | ⟨m, rest, -, hmove⟩ |
    ⟨l, -, -, -, rfl⟩ | rfl
  · exact hP.exec hexec hs
  · exact hP.raise (by decide) hs
  · exact hP.hostMove hmove (hP.host s.line rest s.reply s.draws hs)
  · exact hP.host _ _ _ _ hs
  · exact hs

/-! ### The parameters -/

theorem stable_parameters (magic : Word) (inCap outCap : Nat) :
    Stable fun s => s.magic = magic ∧ s.inCap = inCap ∧ s.outCap = outCap where
  update hu h := by
    have hside := hu.hostSide_report.1
    simp only [hostSide, Prod.mk.injEq] at hside
    obtain ⟨hmagic, hin, hout, -⟩ := hside
    rwa [hmagic, hin, hout]
  complete h := h
  raise _ h := h
  host _ _ _ _ h := h
  issue _ h := h
  arg _ h := h
  length _ h := h
  overrun h := h
  input _ _ h := h
  hardReset h := h

/-- Settles O60: no update and no access writes the three parameters. -/
theorem stepKeepsTheParameters : Obligations.StepKeepsTheParameters :=
  fun s _ h => (stable_parameters s.magic s.inCap s.outCap).step ⟨rfl, rfl, rfl⟩ h

/-! ### The command report (10_state section 3) -/

theorem Update.reportOk {p : Part} {s t : State} (hu : Update p s t) (h : ReportOk s) : ReportOk t := by
  cases hu with
  | result v => cases v with
    | none => exact { h with eos_result := fun _ => rfl }
    | some v => exact { h with eos_result := fun he => nomatch he }
  | close => rw [outClose_eq]; exact { h with }
  | reset => exact { h with eos_result := fun he => nomatch he }
  | _ => exact { h with }

theorem stable_reportOk : Stable ReportOk where
  update hu h := hu.reportOk h
  complete h := { h with
    busy_or_done := by simp
    busy_pending := fun hb => nomatch hb
    busy_err := fun hb => nomatch hb }
  raise he h := { h with
    busy_or_done := by simp
    busy_pending := fun hb => nomatch hb
    err_code := by simpa using he
    busy_err := fun hb => nomatch hb }
  host _ _ _ _ h := { h with }
  issue _ h := { h with
    busy_or_done := by simp
    pending_last := .inr rfl
    busy_pending := fun _ => rfl
    err_code := by simp
    busy_err := fun _ => rfl }
  arg _ h := { h with }
  length _ h := { h with }
  overrun h := { h with }
  input _ _ h := { h with }
  hardReset _ := by constructor <;> simp [hardReset, State.resetWith]

/-- Settles O57: `stable_reportOk`. -/
theorem stepKeepsTheReportConsistent : Obligations.StepKeepsTheReportConsistent :=
  fun _ _ hs h => stable_reportOk.step hs h

/-! ### The streams (10_state section 5, 41_bitstream section 1) -/

/-- The bits of a partial last output byte that are not written are 0 (41_bitstream R112). -/
def PadZero (s : State) : Prop :=
  ∀ j, s.outBits ≤ j → j < 8 * ((s.outBits + 7) / 8) → Memory.bit s.outMem j = some false

/-- Where the output is whole bytes there is no padding. -/
theorem padZero_of_bytes {s : State} {n : Nat} (h : s.outBits = 8 * n) : PadZero s := fun j hj hend => by omega

/-- The byte the next bit goes to is 0 past the bits written: it is a new one, or one with padding. -/
theorem PadZero.outByteNow {s : State} (h : PadZero s) {j : Nat} (hj : s.outBits ≤ j)
    (hbyte : j / 8 = s.outBits / 8) : (outByteNow s).getLsbD (7 - j % 8) = false := by
  unfold Machine.outByteNow
  split
  · simp
  · have hpad := h j hj (by omega)
    rw [Memory.bit, hbyte] at hpad
    obtain ⟨x, hx, hbit⟩ := Option.map_eq_some_iff.1 hpad
    rw [hx]
    exact hbit

theorem PadZero.appendBit {s : State} (h : PadZero s) (b : Bool) : PadZero (appendBit b s) := by
  intro j hj hend
  rw [appendBit_outBits] at hj hend
  have hbyte : j / 8 = s.outBits / 8 := by omega
  rw [bit_appendBit, if_neg (by omega), if_pos hbyte, h.outByteNow (by omega) hbyte]

theorem Update.padZero {p : Part} {s t : State} (hu : Update p s t) (h : PadZero s) : PadZero t := by
  cases hu with
  | append b => exact h.appendBit b
  | close =>
    unfold Machine.outClose
    split
    · exact h
    · exact padZero_of_bytes rfl
  | clear => exact padZero_of_bytes (n := 0) rfl
  | reset => exact padZero_of_bytes (n := 0) rfl
  | result => rw [writeResult_eq]; exact h
  | _ => exact h

/-- Appending a bit where there is room (41_bitstream R112). -/
theorem StreamsOk.appendBit {s : State} (h : StreamsOk s) (b : Bool) (hopen : s.outClosed = false)
    (hroom : s.outBits ≠ 8 * s.outCap) : StreamsOk (appendBit b s) := by
  have hle := h.outBits_le
  refine { h with
    outMem_wf := ?_, outMem_lt := ?_, outBits_le := ?_, outWritten := ?_, padZero := PadZero.appendBit h.padZero b,
    closedAligned := ?_ }
  · exact Memory.write_wf _ _ _ h.outMem_wf
  · intro c hc
    rcases Memory.mem_write _ _ _ hc with rfl | hc
    · show s.outBits / 8 < s.outCap
      omega
    · exact h.outMem_lt c hc
  · show s.outBits + 1 ≤ 8 * s.outCap
    omega
  · intro i hi
    rw [appendBit_outBits] at hi
    by_cases hlast : i = s.outBits / 8
    · rw [hlast, appendBit_outMem, Memory.read_write_same]
      rfl
    · rw [read_appendBit b s hlast]
      exact h.outWritten i (by omega)
  · intro hc
    rw [appendBit_outClosed, hopen] at hc
    cases hc

/-- Closing pads to whole bytes, whose padding was 0 (41_bitstream R113). -/
theorem StreamsOk.outClose {s : State} (h : StreamsOk s) : StreamsOk (outClose s) := by
  unfold Machine.outClose
  split
  · exact h
  · have hle := h.outBits_le
    refine { h with outBits_le := ?_, outWritten := ?_, padZero := padZero_of_bytes rfl, closedAligned := ?_ }
    · show 8 * ((s.outBits + 7) / 8) ≤ 8 * s.outCap
      omega
    · intro i hi
      exact h.outWritten i (by simp only at hi; omega)
    · intro _
      simp only
      omega

/-- A fresh output has no bits whose bytes would have to be written (41_bitstream R118). -/
theorem StreamsOk.outClear {s : State} (h : StreamsOk s) : StreamsOk (outClear s) :=
  { h with
    outBits_le := Nat.zero_le _
    outWritten := fun _ hi => by simp at hi
    padZero := padZero_of_bytes (n := 0) rfl
    closedAligned := fun hc => nomatch hc }

theorem StreamsOk.seek {s : State} (h : StreamsOk s) {p : Nat} (hp : p ≤ 8 * s.inLen) : StreamsOk (seek p s) :=
  { h with inPos_le := hp }

theorem Update.streamsOk {p : Part} {s t : State} (hu : Update p s t) (h : StreamsOk s) : StreamsOk t := by
  cases hu with
  | seek hp => exact h.seek hp
  | append b hopen hroom => exact h.appendBit b hopen hroom
  | close => exact h.outClose
  | clear => exact h.outClear
  | result => rw [writeResult_eq]; exact { h with }
  | reset => exact { h.outClear.seek (Nat.zero_le _) with }
  | _ => exact { h with }

theorem streamsOk_resetWith {magic : Word} {inCap outCap : Nat} (hin : inCap ≤ Config.maxCap)
    (hout : outCap ≤ Config.maxCap) : StreamsOk (State.resetWith magic inCap outCap) := by
  constructor <;> simp_all [State.resetWith, Memory.wf]

theorem stable_streamsOk : Stable StreamsOk where
  update hu h := hu.streamsOk h
  complete h := { h with }
  raise _ h := { h with }
  host _ _ _ _ h := { h with }
  issue _ h := { h with }
  arg _ h := { h with }
  length _ h := { h with inLen_le := Nat.min_le_right _ _, inPos_le := Nat.zero_le _ }
  overrun h := { h with }
  input b hi h := { h with
    inMem_wf := Memory.write_wf _ _ _ h.inMem_wf
    inMem_lt := fun c hc => by
      rcases Memory.mem_write _ _ _ hc with rfl | hc
      · exact hi
      · exact h.inMem_lt c hc }
  hardReset h := { streamsOk_resetWith (magic := 0) h.inCap_le h.outCap_le with }

/-- Settles O56: `stable_streamsOk`; its one hard update is `StreamsOk.appendBit`. -/
theorem stepKeepsStreamsInBounds : Obligations.StepKeepsStreamsInBounds :=
  fun _ _ hs h => stable_streamsOk.step hs h

/-! ### The tree and the code table (10_state section 4) -/

/-- BUILD's merge loop makes one merge fewer than it has leaves, each with the next seq (42_encoder R136). -/
theorem buildQueue_eq (f : Vector Word 257) : ∃ e, buildQueue f = ([e], 256 + (buildLeaves f).length) := by
  have htwo := two_le_length_buildLeaves f
  obtain ⟨e, hrun, -⟩ := mergeLoop_keeps (fun _ _ => True) (fun _ _ _ _ h => h) (queueOf (buildLeaves f)).length 257
    (queueOf (buildLeaves f)) (fun hnil => by simp [← length_queueOf (buildLeaves f), hnil] at htwo) (Nat.le_succ _)
    trivial
  refine ⟨e, hrun.trans ?_⟩
  rw [length_queueOf]
  congr 1
  omega

/-- NODES as BUILD writes it is the size of BUILD's tree (42_encoder R132, 10_state R41). -/
theorem buildNodes_eq_size {f : Vector Word 257} {T : Tree} (h : buildTree f = some T) : buildNodes f = T.size := by
  obtain ⟨T', hT', hleaves⟩ := leaves_buildTree f
  obtain rfl : T' = T := Option.some.inj (hT'.symm.trans h)
  obtain ⟨e, he⟩ := buildQueue_eq f
  have hsize := T'.size_eq
  have htwo := two_le_length_buildLeaves f
  rw [buildNodes, he]
  simp only
  omega

theorem validTree_eq_some {s : State} {t : Tree} (h : validTree s = some t) : s.treeValid = true ∧ s.tree = some t := by
  unfold validTree at h
  split at h
  · exact ⟨‹_›, h⟩
  · cases h

theorem tablesOk_build (s : State) : TablesOk (buildBody s) := by
  obtain ⟨T, hT, hroot, hsize⟩ := buildTree_bounds s.freq
  have htree : (buildBody s).tree = some T := hT
  refine ⟨by rw [htree]; rfl, fun t ht => ?_, fun ht => ?_, fun hc => (nomatch hc), fun _ => rfl⟩
  · obtain rfl : T = t := Option.some.inj (htree.symm.trans ht)
    exact ⟨hroot, hsize, buildNodes_eq_size hT⟩
  · rw [htree] at ht
    cases ht

theorem tablesOk_drop (s : State) : TablesOk (dropTree s) where
  valid := rfl
  rooted := fun _ ht => nomatch ht
  empty := fun _ => rfl
  coded := fun hc => nomatch hc
  uncoded := fun _ => rfl

theorem Update.tablesOk {p : Part} {s t : State} (hu : Update p s t) (h : TablesOk s) : TablesOk t := by
  cases hu with
  | build => exact tablesOk_build s
  | drop => exact tablesOk_drop s
  | install hroot hsize hcodes =>
    exact
      { valid := rfl
        rooted := fun t ht => by cases ht; exact ⟨hroot, hsize, rfl⟩
        empty := fun ht => nomatch ht
        coded := fun hc => nomatch hcodes.1.symm.trans hc
        uncoded := fun _ => hcodes.2 }
  | codes hv => exact { h with coded := fun _ => ⟨_, (validTree_eq_some hv).2, rfl⟩, uncoded := fun hc => nomatch hc }
  | reset => exact { tablesOk_drop (rewind (Machine.outClear s)) with }
  | close => rw [outClose_eq]; exact { h with }
  | result => rw [writeResult_eq]; exact { h with }
  | _ => exact { h with }

theorem tablesOk_resetWith (magic : Word) (inCap outCap : Nat) : TablesOk (State.resetWith magic inCap outCap) :=
  { tablesOk_drop (State.resetWith magic inCap outCap) with }

theorem stable_tablesOk : Stable TablesOk where
  update hu h := hu.tablesOk h
  complete h := { h with }
  raise _ h := { h with }
  host _ _ _ _ h := { h with }
  issue _ h := { h with }
  arg _ h := { h with }
  length _ h := { h with }
  overrun h := { h with }
  input _ _ h := { h with }
  hardReset _ := { tablesOk_resetWith 0 0 0 with }

/-- Settles O58: `stable_tablesOk`, by BUILD's and RDHDR's bounds on the tree they leave. -/
theorem stepKeepsTheTablesConsistent : Obligations.StepKeepsTheTablesConsistent :=
  fun _ _ hs h => stable_tablesOk.step hs h

/-! ### The counters (10_state section 7) -/

theorem countsOk_noCounts {s : State} (h : s.freq = noCounts) : CountsOk s where
  sum_le := by rw [h, countSum_noCounts]; exact Nat.zero_le _
  eof_le := by rw [h, getElem_noCounts]; decide

/-- COUNT reads no more bytes than the input has, which the capacity bounds (42_encoder R131). -/
theorem countsOk_count {s : State} {bytes : List Byte} (hs : StreamsOk s) (hlen : bytes.length ≤ s.inLen) :
    CountsOk (setFreq (countTable bytes) s) where
  sum_le := by
    have hle := hs.inLen_le
    have hcap := hs.inCap_le
    simp only [Config.maxCap] at hcap
    rw [setFreq_freq, countSum_countTable bytes (by omega)]
    exact hlen.trans hle
  eof_le := by rw [setFreq_freq, countTable_eof]; decide

theorem Update.countsOk {p : Part} {s t : State} (hu : Update p s t) (hs : StreamsOk s) (h : CountsOk s) :
    CountsOk t := by
  cases hu with
  | count hlen => exact countsOk_count hs hlen
  | reset => exact countsOk_noCounts rfl
  | close => rw [outClose_eq]; exact { h with }
  | result => rw [writeResult_eq]; exact { h with }
  | _ => exact { h with }

/-- The counters stay in bounds beside the streams, which bound the bytes that COUNT reads. -/
theorem stable_countsOk : Stable fun s => StreamsOk s ∧ CountsOk s where
  update hu h := ⟨hu.streamsOk h.1, hu.countsOk h.1 h.2⟩
  complete h := ⟨stable_streamsOk.complete h.1, { h.2 with }⟩
  raise he h := ⟨stable_streamsOk.raise he h.1, { h.2 with }⟩
  host l td r d h := ⟨stable_streamsOk.host l td r d h.1, { h.2 with }⟩
  issue w h := ⟨stable_streamsOk.issue w h.1, { h.2 with }⟩
  arg v h := ⟨stable_streamsOk.arg v h.1, { h.2 with }⟩
  length v h := ⟨stable_streamsOk.length v h.1, { h.2 with }⟩
  overrun h := ⟨stable_streamsOk.overrun h.1, { h.2 with }⟩
  input b hi h := ⟨stable_streamsOk.input b hi h.1, { h.2 with }⟩
  hardReset h := ⟨stable_streamsOk.hardReset h.1, countsOk_noCounts rfl⟩

/-- Settles O59: each part of the invariant is stable. -/
theorem stepKeepsTheMachineInvariant : Obligations.StepKeepsTheMachineInvariant :=
  fun _ _ hs h =>
    { streams := stable_streamsOk.step hs.streams h
      report := stable_reportOk.step hs.report h
      tables := stable_tablesOk.step hs.tables h
      counts := (stable_countsOk.step ⟨hs.streams, hs.counts⟩ h).2 }

/-- A capacity of 29 bits is in range (00_scope R7). -/
theorem toNat_capacity_le (c : BitVec 29) : c.toNat ≤ Config.maxCap := by
  have := c.isLt
  simp only [Config.maxCap]
  omega

/-- Settles O55: at reset no flag is set, the buffers and tables are empty, and the parameters are in range. -/
theorem resetMeetsTheMachineInvariant : Obligations.ResetMeetsTheMachineInvariant where
  streams := streamsOk_resetWith (toNat_capacity_le _) (toNat_capacity_le _)
  report := by constructor <;> simp [State.reset, State.resetWith]
  tables := tablesOk_resetWith _ _ _
  counts := countsOk_noCounts rfl

end Sys2Proof.Machine
end

section
/-! SUPPORT. The order of moves, and the lines of a host program as runs of steps (40_control R101, 30_encoding R87). -/

namespace Sys2Proof.Machine

/-! ### Who moves -/

/-- The core's step on a word the decoder accepts (40_control R101). -/
theorem step_of_decode_ok {s : State} {w : Word} {i : Instr} (hcore : CoreNext s) (hp : s.pending = some w)
    (hd : decode w = .ok i) : step s = exec i s := by
  have hturn : turn s = .run i := by
    rw [turn_of_coreNext hcore, coreTurn, hp]
    simp only [hd]
  rw [step, hturn]

/-- Settles O6: `step_of_decode_ok`. -/
theorem stepRunsDecodedInstruction : Obligations.StepRunsDecodedInstruction :=
  fun _ _ _ hcore hp hd => step_of_decode_ok hcore hp hd

/-- With the queue empty and BUSY = 0 the host begins its next line (30_encoding R87). -/
theorem step_of_line {s : State} {l : HostLine} (ht : s.todo = []) (hb : s.busy = false)
    (hl : s.program[s.line]? = some l) : step s = .next (startLine l s) := by
  have hturn : turn s = .line l := by simp [turn, ht, hb, hl]
  rw [step, hturn]

/-- When the run is over every step leaves the state as it is (60_exceptions R214). -/
theorem step_of_runOver {s : State} (h : RunOver s) : step s = .next s := by
  obtain ⟨hb, ht, hl⟩ := h
  have hturn : turn s = .idle := by simp [turn, ht, hb, List.getElem?_eq_none hl]
  rw [step, hturn]

/-- Settles O7: `step_of_todo`, `step_of_line` and `step_of_runOver`. -/
theorem stepOtherwiseServesTheHost : Obligations.StepOtherwiseServesTheHost :=
  fun _ => ⟨fun _ _ ht hm => step_of_todo ht hm, fun ht hb _ hl => step_of_line ht hb hl, step_of_runOver⟩

/-! ### Hardware reset -/

/-- No register shows what hardware reset keeps of the host (70_reset R230). -/
theorem regValue_hardReset (s : State) (r : Reg) :
    regValue (hardReset s) r = regValue (State.resetWith s.magic s.inCap s.outCap) r := by
  cases r <;> rfl

/-- Settles O9: the step is `hardReset`, whose registers are those of `State.resetWith`. -/
theorem hardResetClearsTheBlock : Obligations.HardResetClearsTheBlock := by
  intro s rest ht
  refine ⟨hardReset { s with todo := rest }, step_of_todo ht (.inl (by simp)), fun r hm hi ho => ?_, rfl, rfl, rfl, rfl,
    rfl, fun y => ⟨getElem_noCodes y.isLt, getElem_noCounts y.isLt⟩, rfl, rfl, rfl⟩
  rw [regValue_hardReset]
  exact regValue_resetWith _ _ _ hm hi ho

/-! ### Writes of ARG -/

theorem regAt_arg : regAt 0x008 = some .arg := rfl

theorem writeReg_arg (v : Word) (s : State) :
    writeReg 0x008 v s = if s.busy then setOverrun s else { s with arg := v } := by
  rw [writeReg, regAt_arg]

/-- Settles O11: the write is `arg := v` or `setOverrun`, by BUSY. -/
theorem argWriteWaitsForBusyToClear : Obligations.ArgWriteWaitsForBusyToClear := by
  intro s v rest ht
  refine ⟨fun hb => ?_, fun hb => ?_⟩
  · rw [step_of_regWrite ht (by decide), writeReg_arg, if_neg (by simp [hb])]
  · rw [step_of_regWrite ht (by decide), writeReg_arg, if_pos hb, setOverrun]

/-! ### Runs of steps -/

theorem coreRun_succ {M : Host.Core} {k : Nat} {s t : M.State} (h : M.step s = .next t) :
    M.run (k + 1) s = M.run k t := by
  rw [Host.Core.run, h]

/-- A run begins with a step. -/
theorem run_succ {k : Nat} {s t : State} {o : Host.Outcome State Fault Refusal} (h : step s = .next t)
    (hrun : core.run k t = o) : core.run (k + 1) s = o :=
  (coreRun_succ (M := core) h).trans hrun

/-- A run of no steps ends where it is. -/
theorem run_zero {s t : State} (h : s = t) : core.run 0 s = .next t := by rw [← h]; rfl

/-! ### LOADIN (30_encoding R87) -/

/-- The buffer after the bytes have been written from index `k` on. -/
def storeBytes (m : Memory) (k : Nat) : List Byte → Memory
  | [] => m
  | b :: bs => storeBytes (Memory.write m k b) (k + 1) bs

theorem read_storeBytes_outside (m : Memory) {k i : Nat} (bytes : List Byte) (h : i < k ∨ k + bytes.length ≤ i) :
    Memory.read (storeBytes m k bytes) i = Memory.read m i := by
  induction bytes generalizing m k with
  | nil => rfl
  | cons b bs ih =>
    rw [List.length_cons] at h
    rw [storeBytes, ih _ (by omega), Memory.read_write_other _ _ (by omega)]

theorem read_storeBytes (m : Memory) (k : Nat) (bytes : List Byte) (i : Nat) (h : i < bytes.length) :
    Memory.read (storeBytes m k bytes) (k + i) = some bytes[i] := by
  induction bytes generalizing m k i with
  | nil => simp at h
  | cons b bs ih =>
    cases i with
    | zero =>
      rw [Nat.add_zero, storeBytes, read_storeBytes_outside _ _ (.inl (Nat.lt_succ_self k)), Memory.read_write_same]
      rfl
    | succ i =>
      rw [storeBytes, ← Nat.add_assoc, Nat.add_right_comm]
      exact ih _ _ i (by simpa using h)

theorem step_of_inWrite {s : State} {i : Nat} {b : Byte} {rest : List HostMove} (ht : s.todo = .inWrite i b :: rest)
    (hb : s.busy = false) (hi : i < s.inCap) :
    step s = .next { s with todo := rest, inMem := Memory.write s.inMem i b } := by
  rw [step_of_todo ht (.inl (by simp)), hostMove, writeIn, if_neg (by simpa using hi), if_neg (by simp [hb])]

/-- The writes of LOADIN, one step each. -/
theorem run_inWrites {o : Host.Outcome State Fault Refusal} (bytes : List Byte) (k j : Nat) (s : State)
    (rest : List HostMove) (ht : s.todo = bytes.mapIdx (fun i b => .inWrite (k + i) b) ++ rest) (hb : s.busy = false)
    (hcap : k + bytes.length ≤ s.inCap)
    (hrun : core.run j { s with todo := rest, inMem := storeBytes s.inMem k bytes } = o) :
    core.run (bytes.length + j) s = o := by
  induction bytes generalizing k s with
  | nil =>
    obtain rfl : rest = s.todo := by simpa using ht.symm
    rwa [List.length_nil, Nat.zero_add]
  | cons b bs ih =>
    rw [List.length_cons] at hcap ⊢
    rw [List.mapIdx_cons, List.cons_append] at ht
    rw [Nat.add_right_comm]
    refine run_succ (step_of_inWrite ht hb (by omega)) (ih (k + 1) _ ?_ hb (by simp; omega) hrun)
    simp only [Nat.add_assoc, Nat.add_comm 1]

/-- Settles O18: the line queues the writes (`run_inWrites`) and an IN_LEN write, which IN_CAP does not clamp. -/
theorem loadinLoadsTheInput : Obligations.LoadinLoadsTheInput := by
  intro s bytes ht hb hl hlen hcap
  have hlt : bytes.length < 2 ^ 32 := by simp only [Config.maxCap] at hcap; omega
  have hread := read_storeBytes s.inMem 0 bytes
  refine ⟨storeBytes s.inMem 0 bytes, ?_, by simpa using hread,
    fun i hi => read_storeBytes_outside _ _ (.inr (by omega))⟩
  refine run_succ (step_of_line ht hb hl) (run_inWrites bytes 0 1 _ [.regWrite 0x010 4 (Word.ofCount bytes.length)]
    ?_ hb (by simpa [startLine] using hlen) (run_succ (step_of_regWrite rfl (by decide)) (run_zero ?_)))
  · simp [startLine, HostLine.moves, loadinMoves, Reg.offset]
  · rw [writeReg_inLen, if_neg (by simp [startLine, hb]), loadLength, toNat_ofCount hlt, startLine]
    simp only [Nat.min_eq_left hlen, ht]

/-! ### A command line (30_encoding R87, 40_control R101) -/

/-- A WAIT while BUSY = 0 reads STATUS. -/
theorem step_of_wait {s : State} {rest : List HostMove} (ht : s.todo = .wait :: rest) (hb : s.busy = false) :
    step s = .next { s with todo := rest, reply := .word s.statusWord } := by
  rw [step_of_todo ht (.inr hb), hostMove, readReg_of_regAt (r := .status) (s := { s with todo := rest }) rfl (.inl hb)]
  rfl

theorem busy_of_exec {i : Instr} {s t : State} (h : exec i s = .next t) : t.busy = false := by
  obtain ⟨u, -, rfl | ⟨e, -, rfl⟩⟩ := exec_next h <;> rfl

theorem todo_of_exec {i : Instr} {s t : State} (h : exec i s = .next t) : t.todo = s.todo := by
  have hside := hostSide_of_exec h
  simp only [hostSide, Prod.mk.injEq] at hside
  obtain ⟨-, -, -, -, -, -, -, -, -, -, htodo, -⟩ := hside
  exact htodo

/-- Settles O19: the line, the CMD write, the core's step and the WAIT, one after another. -/
theorem commandLineRunsTheCommand : Obligations.CommandLineRunsTheCommand := by
  intro s t w i ht hb hl hd hexec
  have hbusy := busy_of_exec hexec
  refine ⟨run_succ (step_of_line ht hb hl) (run_succ (step_of_cmdWrite (w := w) (rest := [.wait]) rfl) ?_), hbusy⟩
  rw [if_neg (by simp [startLine, hb])]
  exact run_succ ((step_of_decode_ok ⟨rfl, .inr rfl⟩ rfl hd).trans hexec)
    (run_succ (step_of_wait (todo_of_exec hexec) hbusy) rfl)

/-! ### NOP -/

/-- Settles O20: NOP is `complete`, and the issue before it clears the report. -/
theorem nopAcknowledgesAnError : Obligations.NopAcknowledgesAnError := by
  refine ⟨by decide, fun s => rfl, fun s rest hb ht => run_succ (step_of_cmdWrite (w := 0) ht) ?_⟩
  rw [if_neg (by simp [hb])]
  refine run_succ (step_of_decode_ok (i := .nop) ⟨rfl, .inr rfl⟩ rfl (by decide)) (run_zero ?_)
  simp [complete, issue, hb]

end Sys2Proof.Machine
end

section
/-! SUPPORT. What a host reads in the registers: the map forwards, STATUS bit by bit, and the registers of a code
(10_state R22, R24, R34). -/

namespace Sys2Proof.Machine

/-! ### The register map forwards -/

theorem headerSymbol_val (y : Symbol) : headerSymbol y.val = some y :=
  dif_pos y.isLt

/-- A register's offset is word-aligned and names the register (10_state R22). -/
theorem regAt_offset (r : Reg) : r.offset.toNat % 4 = 0 ∧ regAt r.offset = some r := by
  have toNat_ofNat : ∀ {n : Nat}, n < 2 ^ 16 → (BitVec.ofNat 16 n).toNat = n := fun h => Nat.mod_eq_of_lt h
  cases r with
  | freq y =>
    have hy := y.isLt
    have hoff : (Reg.freq y).offset.toNat = 0x400 + 4 * y.val := toNat_ofNat (by omega)
    rw [regAt_freq (by omega) (by omega), hoff, show (0x400 + 4 * y.val - 0x400) / 4 = y.val by omega, headerSymbol_val]
    exact ⟨by omega, rfl⟩
  | codeLen y =>
    have hy := y.isLt
    have hoff : (Reg.codeLen y).offset.toNat = 0x1000 + 4 * y.val := toNat_ofNat (by omega)
    rw [regAt_codeLen (by omega) (by omega), hoff, show (0x1000 + 4 * y.val - 0x1000) / 4 = y.val by omega,
      headerSymbol_val]
    exact ⟨by omega, rfl⟩
  | codeBits y k =>
    have hy := y.isLt
    have hk := k.isLt
    have hoff : (Reg.codeBits y k).offset.toNat = 0x2000 + 32 * y.val + 4 * k.val := toNat_ofNat (by omega)
    have hword : Fin.ofNat 8 ((0x2000 + 32 * y.val + 4 * k.val) / 4) = k := Fin.ext (by rw [Fin.val_ofNat]; omega)
    rw [regAt_codeBits (by omega), hoff, show (0x2000 + 32 * y.val + 4 * k.val - 0x2000) / 32 = y.val by omega,
      headerSymbol_val, Option.map_some, hword]
    exact ⟨by omega, rfl⟩
  | _ => exact ⟨rfl, rfl⟩

/-- The registers a host can read while BUSY = 1 (70_reset R234). -/
theorem stable_iff (r : Reg) : r.stable = true ↔ r ∈ [Reg.status, .cmd, .arg, .inLen, .magic, .inCap, .outCap] := by
  cases r <;> simp [Reg.stable]

/-- A register that is not stable reads a free word while BUSY = 1 (70_reset R234). -/
theorem readReg_of_unstable {off : BitVec 16} {r : Reg} {s : State} (hr : regAt off = some r) (hb : s.busy = true)
    (hs : ¬ r.stable = true) : readReg off s = drawWord s := by
  have hread : (s.busy && !r.stable) = true := by simp [hb, hs]
  simp only [readReg, hr, if_pos hread]

/-- OUT_MEM reads a free byte while BUSY = 1 (70_reset R234). -/
theorem readOut_of_busy {s : State} (i : Nat) (hb : s.busy = true) : readOut i s = drawByte s := by
  unfold readOut
  split
  · exact if_neg (by simp [hb])
  · rfl

/-- A valid byte of OUT_MEM reads itself while BUSY = 0 (10_state R40). -/
theorem readOut_of_valid {s : State} {i : Nat} {b : Byte} (hb : s.busy = false) (hi : 8 * i < s.outBits)
    (hr : Memory.read s.outMem i = some b) : readOut i s = { s with reply := .byte b } := by
  have hvalid : (!s.busy && decide (i < (s.outBits + 7) / 8)) = true := by
    simp only [hb, Bool.not_false, Bool.true_and, decide_eq_true_eq]
    omega
  simp only [readOut, hr, if_pos hvalid]

theorem step_of_outRead {s : State} {i : Nat} {rest : List HostMove} (ht : s.todo = .outRead i :: rest)
    (hi : i < s.outCap) : step s = .next (readOut i { s with todo := rest }) := by
  rw [step_of_todo ht (.inl (by simp)), hostMove, if_neg (by simpa using hi)]

/-- Settles O15: the map forwards (`regAt_offset`), then the read of each kind. -/
theorem hostReadsFollowTheMap : Obligations.HostReadsFollowTheMap := by
  intro s rest
  refine ⟨fun r ht hs => ?_, fun r ht hb hr => ?_, fun i ht hb hi => ?_, fun i b ht hb hi hbits hr => ?_⟩
  · obtain ⟨halign, hat⟩ := regAt_offset r
    rw [step_of_regRead ht halign, readReg_of_regAt (s := { s with todo := rest }) hat (hs.imp_right (stable_iff r).2)]
    cases r <;> rfl
  · obtain ⟨halign, hat⟩ := regAt_offset r
    rw [step_of_regRead ht halign, readReg_of_unstable (s := { s with todo := rest }) hat hb (mt (stable_iff r).1 hr)]
    exact ⟨_, rfl⟩
  · rw [step_of_outRead ht hi, readOut_of_busy (s := { s with todo := rest }) i hb]
    exact ⟨_, rfl⟩
  · rw [step_of_outRead ht hi, readOut_of_valid (s := { s with todo := rest }) hb hbits hr]

/-! ### STATUS (10_state R24) -/

/-- A bit of a register image, by its weight. -/
theorem getLsbD_ofCount {n i : Nat} {b : Bool} (hi : i < 32) (h : n / 2 ^ i % 2 = b.toNat) :
    (Word.ofCount n).getLsbD i = b := by
  rw [Word.ofCount, BitVec.getLsbD_ofNat, Nat.testBit_eq_decide_div_mod_eq, h]
  cases b <;> simp [hi]

theorem ErrCode.number_lt (e : ErrCode) : e.number < 256 := by
  cases e <;> decide

/-- Settles O16: each flag and the code are the digits of the sum that `statusWord` is. -/
theorem statusWordLayout : Obligations.StatusWordLayout := by
  intro s
  have hflag : ∀ b : Bool, b.toNat < 2 := Bool.toNat_lt
  have h₀ := hflag s.busy
  have h₁ := hflag s.done
  have h₂ := hflag s.err
  have h₃ := hflag s.eos
  have h₄ := hflag s.treeValid
  have h₅ := hflag s.codesValid
  have h₆ := hflag s.outClosed
  have h₇ := hflag s.ovr
  have hcode := s.errCode.number_lt
  refine ⟨?_, ?_, ?_, ?_, ?_, ?_, ?_, ?_, ?_, ?_, rfl, rfl, rfl, rfl, rfl, rfl, rfl, rfl, rfl, rfl, rfl⟩
  iterate 8 exact getLsbD_ofCount (by decide) (by omega)
  · rw [BitVec.extractLsb'_toNat, Nat.shiftRight_eq_div_pow, State.statusWord, toNat_ofCount (by omega)]
    omega
  · refine BitVec.eq_of_toNat_eq ?_
    rw [BitVec.extractLsb'_toNat, Nat.shiftRight_eq_div_pow, State.statusWord, toNat_ofCount (by omega)]
    simp only [BitVec.ofNat_eq_ofNat, BitVec.toNat_ofNat]
    omega

/-! ### The registers of a code (10_state R34) -/

theorem toNat_codeLenWord {p : List Bool} (h : p.length < 512) : (codeLenWord (some p)).toNat = p.length := by
  simp only [codeLenWord, BitVec.toNat_setWidth, BitVec.toNat_ofNat]
  omega

/-- Bit 31 - j of word `k` is bit 32 k + j of the code. -/
theorem getLsbD_codeBitsWord (p : List Bool) (k : Nat) {j : Nat} (hj : j < 32) :
    (codeBitsWord (some p) k).getLsbD (31 - j) = p.getD (32 * k + j) false := by
  have hbit := testBit_bitsToNat ((List.range 32).map fun j => p.getD (32 * k + j) false) j (by simpa using hj)
  simp only [List.length_map, List.length_range, List.getElem_map, List.getElem_range] at hbit
  simp only [codeBitsWord, Word.ofCount, BitVec.getLsbD_ofNat]
  rw [hbit]
  simp [show 31 - j < 32 by omega]

/-- Settles O17: `toNat_codeLenWord` and `getLsbD_codeBitsWord`; both words are 0 for no code. -/
theorem codeRegistersShowTheCode : Obligations.CodeRegistersShowTheCode := by
  refine fun s y => ⟨fun p hp hlen => ⟨?_, fun k j hj => ?_⟩, fun hnone => ⟨?_, fun k => ?_⟩⟩
  · rw [regValue, hp, toNat_codeLenWord hlen]
  · rw [regValue, hp, getLsbD_codeBitsWord p k.val hj]
  · rw [regValue, hnone, codeLenWord]
  · rw [regValue, hnone, codeBitsWord]

/-! ### SRST and the stream controls (40_control R105, 41_bitstream R116 to R118) -/

/-- Settles O21: SRST is `softReset`, which writes the empty tables. -/
theorem softResetClearsAllButTheInput : Obligations.SoftResetClearsAllButTheInput :=
  ⟨by decide, fun _ => ⟨noCounts, noCodes, rfl, fun y => ⟨getElem_noCounts y.isLt, getElem_noCodes y.isLt⟩⟩⟩

/-- Settles O26: `rewind`, `outClose` and `outClear`, completed; the padding of `outClose` ends at a byte boundary. -/
theorem streamControlCommands : Obligations.StreamControlCommands := by
  refine fun s => ⟨rfl, fun hc => ⟨8 * ((s.outBits + 7) / 8), ?_, by omega, by omega, by omega⟩, fun hc => ?_, rfl⟩
  · rw [exec, execClose, outClose, if_neg (by simp [hc]), complete]
  · rw [exec, execClose, outClose, if_pos hc, complete]

end Sys2Proof.Machine
end

section
/-! SUPPORT. RDBITS and WRBITS (41_bitstream R114, R115), and COUNT from any position (42_encoder R130). -/

namespace Sys2Proof.Machine

/-! ### RDBITS -/

theorem legalCount_of_bounds {n : BitVec 6} (h₁ : 1 ≤ n.toNat) (h₂ : n.toNat ≤ 32) : legalCount n = true := by
  simp [legalCount, h₁, h₂]

/-- InRead goes on where every bit it reads is in the stream and stands in a written byte. -/
theorem inRead_of_bits {n : Nat} {s : State} (hle : s.inPos + n ≤ 8 * s.inLen)
    (hbits : ∀ k, k < n → (Memory.bit s.inMem (s.inPos + k)).isSome = true) :
    ∃ bs, bs.length = n ∧ Holds s.inMem s.inPos bs ∧
      inRead n s = .ok (some (bitsToNat bs)) (seek (s.inPos + n) s) := by
  rcases inRead_cases n s with ⟨hlt, -⟩ | ⟨bs, -, hlen, hh, hread⟩ | ⟨-, hnone, -⟩
  · omega
  · exact ⟨bs, hlen, hh, hread⟩
  · have hsome := Memory.bits_isSome s.inMem s.inPos n fun i hi hin => by
      have hbit := hbits (i - s.inPos) (by omega)
      rwa [Nat.add_sub_cancel' hi, Memory.bit, Option.isSome_map] at hbit
    simp [hnone] at hsome

/-- The bits of a register image of a bit string: the first is the most significant of its length. -/
theorem getLsbD_ofCount_bitsToNat {bs : List Bool} (h : bs.length ≤ 32) {k : Nat} (hk : k < bs.length) :
    (Word.ofCount (bitsToNat bs)).getLsbD (bs.length - 1 - k) = bs[k] := by
  rw [Word.ofCount, BitVec.getLsbD_ofNat, testBit_bitsToNat bs k hk]
  simp only [show bs.length - 1 - k < 32 by omega, decide_true, Bool.true_and]

theorem getLsbD_ofCount_bitsToNat_above {bs : List Bool} {j : Nat} (hj : bs.length ≤ j) :
    (Word.ofCount (bitsToNat bs)).getLsbD j = false := by
  have hlt : bitsToNat bs < 2 ^ j := (bitsToNat_lt bs).trans_le (Nat.pow_le_pow_right (by decide) hj)
  rw [Word.ofCount, BitVec.getLsbD_ofNat, Nat.testBit_lt_two_pow hlt, Bool.and_false]

/-- Settles O22: InRead reads the bits where they are (`inRead_of_bits`) and else is at the end of the stream. -/
theorem rdbitsReadsTheNextBits : Obligations.RdbitsReadsTheNextBits := by
  intro n s h₁ h₂
  have hrun : exec (.rdbits n) s = finish ((inRead n.toNat s).bind fun v s => .ok () (writeResult v s)) := by
    rw [exec, execRdbits, if_pos (legalCount_of_bounds h₁ h₂), countOperand]
  refine ⟨fun hle hbits => ?_, fun hlt => by rw [hrun, inRead_eos hlt]; rfl⟩
  obtain ⟨bs, hlen, hh, hread⟩ := inRead_of_bits hle hbits
  refine ⟨Word.ofCount (bitsToNat bs), by rw [hrun, hread]; rfl, fun k hk => ?_, fun j hj => ?_⟩
  · rw [hh k (by omega), ← hlen, getLsbD_ofCount_bitsToNat (by omega)]
  · exact getLsbD_ofCount_bitsToNat_above (by omega)

/-! ### WRBITS -/

theorem exec_wrbits {n : BitVec 6} (s : State) (h₁ : 1 ≤ n.toNat) (h₂ : n.toNat ≤ 32) :
    exec (.wrbits n) s = .next (settle (outPut (field n.toNat s.arg.toNat) s)) := by
  rw [exec, execWrbits, if_pos (legalCount_of_bounds h₁ h₂), argOperand, countOperand]

/-- Settles O24: OutPut appends the operand's bits (`outPut_ok`). -/
theorem wrbitsAppendsTheLowBitsOfArg : Obligations.WrbitsAppendsTheLowBitsOfArg := by
  intro n s h₁ h₂ hopen hroom
  obtain ⟨m, hrun, ha⟩ := outPut_ok (bs := field n.toNat s.arg.toNat) hopen (by rwa [length_field])
  have hframe := ha.frame
  rw [length_field] at hrun hframe
  exact ⟨m, by rw [exec_wrbits s h₁ h₂, hrun]; rfl, (holds_field_iff _ _ _ _).1 ha.holds, ha.kept, hframe⟩

/-- OutPut of at least one bit on a closed output writes nothing (41_bitstream R112). -/
theorem outPut_of_closed {bs : List Bool} {s : State} (hne : bs ≠ []) (hc : s.outClosed = true) :
    outPut bs s = .error (.outputClosed, s) := by
  obtain ⟨b, bs, rfl⟩ := List.exists_cons_of_ne_nil hne
  exact outPut_closed hc

/-- Settles O25: `outPut_of_closed` and `outPut_overflow`. -/
theorem wrbitsErrorsKeepTheBitsThatFit : Obligations.WrbitsErrorsKeepTheBitsThatFit := by
  intro n s h₁ h₂
  refine ⟨fun hc => ?_, fun hopen hle hroom => ?_⟩
  · rw [exec_wrbits s h₁ h₂, outPut_of_closed _ hc]
    · rfl
    · exact List.ne_nil_of_length_pos (by rwa [length_field])
  · obtain ⟨m, hrun, ha⟩ := outPut_overflow (bs := field n.toNat s.arg.toNat) hopen hle (by rwa [length_field])
    exact ⟨m, by rw [exec_wrbits s h₁ h₂, hrun]; rfl, ha⟩

/-! ### COUNT from any position -/

/-- The 8-bit values of a stream that holds the bits of some bytes are those bytes. -/
theorem inputValue_of_holds {s : State} {p : Nat} {bytes : List Byte} (h : Holds s.inMem p (byteBits bytes)) {k : Nat}
    (hk : k < bytes.length) : inputValue s (p + 8 * k) = some bytes[k].toNat := by
  induction bytes generalizing p k with
  | nil => simp at hk
  | cons b bs ih =>
    obtain ⟨hb, hbs⟩ := (holds_append_iff _ _ _ _).1 h
    cases k with
    | zero =>
      have hbits := (Memory.bits_eq_some_iff s.inMem p 8 _).2 ⟨length_field 8 b.toNat, hb⟩
      rw [inputValue, Nat.mul_zero, Nat.add_zero, hbits, Option.map_some, bitsToNat_field, Nat.mod_eq_of_lt b.isLt]
      rfl
    | succ k =>
      rw [length_field] at hbs
      rw [Nat.mul_add_one, Nat.add_comm (8 * k), ← Nat.add_assoc]
      exact ih hbs (by simpa using hk)

/-- Counting by position and counting by value agree. -/
theorem length_filter_range {α : Type} [DecidableEq α] (xs : List α) (f : Nat → Option α)
    (hf : ∀ k, (h : k < xs.length) → f k = some xs[k]) (a : α) :
    ((List.range xs.length).filter fun k => f k = some a).length = xs.count a := by
  have hmap : (List.range xs.length).map f = xs.map some :=
    List.ext_getElem (by simp) fun k h _ => by simpa using hf k (by simpa using h)
  rw [← List.countP_eq_length_filter]
  calc (List.range xs.length).countP (fun k => f k = some a)
      = ((List.range xs.length).map f).countP (fun o => o = some a) := by rw [List.countP_map]; rfl
    _ = xs.count a := by
      rw [hmap, List.countP_map, List.count]
      exact List.countP_congr fun x _ => by simp

/-- The byte whose symbol is `y` (00_scope R6). -/
theorem byteSymbol_ofNat {y : Symbol} (hy : y.val < 256) : byteSymbol (BitVec.ofNat 8 y.val).toNat = y := by
  apply Fin.ext
  rw [byteSymbol_val, BitVec.toNat_ofNat, Nat.mod_eq_of_lt hy]

/-- The counters of the table, by symbol. -/
theorem countTable_symbol {bytes : List Byte} (h : bytes.length < 2 ^ 32) {y : Symbol} (hy : y.val < 256) :
    (countTable bytes)[y.val].toNat = bytes.count (BitVec.ofNat 8 y.val) := by
  have hcount := countTable_byte bytes (BitVec.ofNat 8 y.val) h
  simpa only [byteSymbol_ofNat hy] using hcount

/-- A written input is counted to its end (42_encoder R130). -/
theorem countBody_of_written {s : State} (hw : InputWritten s) :
    ∃ bytes : List Byte, bytes.length = (8 * s.inLen - s.inPos) / 8 ∧ Holds s.inMem s.inPos (byteBits bytes) ∧
      countBody s = .ok () (seek (s.inPos + 8 * bytes.length) (setFreq (countTable bytes) s)) := by
  rcases countBody_cases s with h | ⟨-, h⟩
  · exact h
  · exact absurd hw h

/-- Settles O27: the bytes read are the stream's 8-bit values (`inputValue_of_holds`), counted by `countTable`. -/
theorem countTalliesFromTheCursor : Obligations.CountTalliesFromTheCursor := by
  intro s hw hcap
  simp only [Config.maxCap] at hcap
  obtain ⟨bytes, hlen, hh, hrun⟩ := countBody_of_written hw
  rw [← hlen]
  refine ⟨countTable bytes, by rw [exec, execCount, hrun]; rfl, countTable_eof bytes, fun y hy => ?_⟩
  rw [countTable_symbol (by omega) hy,
    ← length_filter_range bytes (fun k => (inputValue s (s.inPos + 8 * k)).map (BitVec.ofNat 8))]
  · congr 1
    refine List.filter_congr fun k hk => ?_
    rw [inputValue_of_holds hh (List.mem_range.1 hk), Option.map_some, decide_eq_decide, Option.some.injEq,
      Option.some.injEq, BitVec.ofNat_toNat, BitVec.setWidth_eq, ← BitVec.toNat_inj, BitVec.toNat_ofNat,
      Nat.mod_eq_of_lt hy]
  · intro k hk
    rw [inputValue_of_holds hh hk, Option.map_some, BitVec.ofNat_toNat, BitVec.setWidth_eq]

end Sys2Proof.Machine
end

section
/-! SUPPORT. CHKMAGIC and RDHDR (43_decoder R170, R173, R174), and the commands that need a tree or codes
(60_exceptions R204). -/

namespace Sys2Proof.Machine

/-! ### CHKMAGIC -/

/-- Fewer than 32 bits are no magic number (43_decoder R170). -/
theorem chkmagicBody_short {s : State} (h : 8 * s.inLen < s.inPos + 32) : chkmagicBody s = .error .badMagic s := by
  rw [chkmagicBody, inRead_eos h]
  rfl

/-- 32 bits that are not MAGIC are read and refused (43_decoder R170). -/
theorem chkmagicBody_mismatch {s : State} {v : Word} (hr : s.inPos + 32 ≤ 8 * s.inLen)
    (hh : Holds s.inMem s.inPos (field 32 v.toNat)) (hv : v ≠ s.magic) :
    chkmagicBody s = .error .badMagic (seek (s.inPos + 32) s) := by
  have hne : ¬ some v.toNat = some s.magic.toNat := fun h => hv (BitVec.eq_of_toNat_eq (Option.some.inj h))
  rw [chkmagicBody, inRead_field (n := 32) hr hh, Nat.mod_eq_of_lt v.isLt]
  exact if_neg hne

/-- Settles O40: `chkmagicBody_short`, `chkmagicBody_of_holds` and `chkmagicBody_mismatch`. -/
theorem chkmagicAcceptsOnlyMagic : Obligations.ChkmagicAcceptsOnlyMagic := by
  refine fun s => ⟨fun hshort => ?_, fun v hr hh => ⟨?_, fun hv => ?_⟩⟩
  · rw [exec, execChkmagic, chkmagicBody_short hshort]
    rfl
  · rintro rfl
    rw [exec, execChkmagic, chkmagicBody_of_holds hr hh]
    rfl
  · rw [exec, execChkmagic, chkmagicBody_mismatch hr hh hv]
    rfl

/-- Settles O47: CHKMAGIC's two failures, at the start of the input with a fresh output. -/
theorem decompressChecksTheMagicFirst : Obligations.DecompressChecksTheMagicFirst := by
  intro s v h
  rw [exec, execDecompress, decompressBody]
  by_cases hshort : s.inLen < 4
  · rw [chkmagicBody_short (by rw [rewind_inLen, outClear_inLen, rewind_inPos]; omega), if_pos hshort]
    rfl
  · obtain ⟨hh, hv⟩ := h.resolve_left hshort
    rw [chkmagicBody_mismatch (s := rewind (outClear s)) (by rw [rewind_inLen, outClear_inLen, rewind_inPos]; omega)
      hh hv, if_neg hshort]
    rfl

/-! ### RDHDR -/

/-- Settles O41: `rdhdrBody_of_holds`. -/
theorem rdhdrRebuildsTheTree : Obligations.RdhdrRebuildsTheTree := by
  intro s t hroot hsize hr hh
  refine ⟨noCodes, ?_, fun y => getElem_noCodes y.isLt⟩
  rw [exec, execRdhdr, rdhdrBody_of_holds hroot hsize hr hh]
  rfl

/-- Everything RDHDR can do within the stream (43_decoder R173, R174): it installs a bounded full tree of weight 0, or it
raises one of three errors with no tree left, or it meets an unwritten byte. -/
theorem rdhdrBody_cases {s : State} (hp : s.inPos ≤ 8 * s.inLen) :
    (∃ t p, t.isNode = true ∧ t.size ≤ Config.nodeCap ∧ t.unweighted = t ∧ s.inPos ≤ p ∧ p ≤ 8 * s.inLen ∧
      rdhdrBody s = .ok () (installTree (some t) t.size (seek p (dropTree s)))) ∨
    (∃ e p, e ∈ [ErrCode.malformedHeader, .headerOverflow, .badSymbol] ∧ s.inPos ≤ p ∧ p ≤ 8 * s.inLen ∧
      rdhdrBody s = .error e (seek p (dropTree s))) ∨
    (rdhdrBody s = .fault .unwrittenInput ∧ ¬ InputWritten s) := by
  rcases rd_cases (Config.nodeCap + 1) 0 (dropTree s) (by simp) hp with
    ⟨t, hw, hsize, hle, -, h⟩ | ⟨e, p, he, hlo, hhi, h⟩ | ⟨h, hw⟩
  · rw [dropTree_inPos, dropTree_inLen] at hle
    rw [Nat.zero_add] at hsize
    by_cases hroot : t.isNode = true
    · exact .inl ⟨t, _, hroot, hsize, hw, Nat.le_add_right _ _, hle, by simp [rdhdrBody, h, hroot]⟩
    · exact .inr (.inl ⟨.malformedHeader, _, by simp, Nat.le_add_right _ _, hle, by simp [rdhdrBody, h, hroot]⟩)
  · exact .inr (.inl ⟨e, p, he, hlo, hhi, by simp [rdhdrBody, h]⟩)
  · exact .inr (.inr ⟨by simp [rdhdrBody, h], hw⟩)

/-- Settles O42: `rdhdrBody_cases`. -/
theorem rdhdrAcceptsOnlyBoundedFullTrees : Obligations.RdhdrAcceptsOnlyBoundedFullTrees := by
  intro s hw hp
  rw [exec, execRdhdr]
  rcases rdhdrBody_cases hp with ⟨t, p, hroot, hsize, hweight, hlo, hhi, h⟩ | ⟨e, p, he, hlo, hhi, h⟩ | ⟨-, h⟩
  · refine ⟨complete (installTree (some t) t.size (seek p (dropTree s))), noCodes, by rw [h]; rfl,
      fun y => getElem_noCodes y.isLt, hlo, hhi, .inl ⟨rfl, rfl, rfl, t, rfl, hroot, hsize, rfl, hweight⟩⟩
  · exact ⟨raise e (seek p (dropTree s)), noCodes, by rw [h]; rfl, fun y => getElem_noCodes y.isLt, hlo, hhi,
      .inr ⟨rfl, he, rfl, rfl, rfl⟩⟩
  · exact absurd hw h

/-- The tag of the node Rd is at (43_decoder R173). -/
theorem inRead_tag {s : State} {b : Bool} (hr : s.inPos + 1 ≤ 8 * s.inLen) (hh : Memory.bit s.inMem s.inPos = some b) :
    inRead 1 s = .ok (some b.toNat) (seek (s.inPos + 1) s) := by
  have hread := inRead_holds (s := s) (bs := [b]) hr ((holds_cons_iff _ _ _ _).2 ⟨hh, Holds.nil _ _⟩)
  cases b <;> exact hread

/-- The end of the stream where a tag is expected (43_decoder R174). -/
theorem rd_of_no_tag {fuel count : Nat} {s : State} (hf : 0 < fuel) (hr : 8 * s.inLen < s.inPos + 1) :
    rd fuel count s = .error .malformedHeader s := by
  obtain ⟨k, rfl⟩ : ∃ k, fuel = k + 1 := ⟨fuel - 1, by omega⟩
  rw [rd, inRead_eos hr]
  rfl

/-- The tag after the 513th node (43_decoder R174). -/
theorem rd_of_full {fuel : Nat} {s : State} {b : Bool} (hf : 0 < fuel) (hr : s.inPos + 1 ≤ 8 * s.inLen)
    (hh : Memory.bit s.inMem s.inPos = some b) : rd fuel 513 s = .error .headerOverflow (seek (s.inPos + 1) s) := by
  obtain ⟨k, rfl⟩ : ∃ k, fuel = k + 1 := ⟨fuel - 1, by omega⟩
  rw [rd, inRead_tag hr hh]
  rfl

/-- A leaf's symbol above 256 (43_decoder R174). -/
theorem rd_of_bad_symbol {fuel count v : Nat} {s : State} (hf : 0 < fuel) (hc : count < 513) (hlo : 256 < v)
    (hhi : v < 512) (hr : s.inPos + 10 ≤ 8 * s.inLen) (hh : Holds s.inMem s.inPos (true :: field 9 v)) :
    rd fuel count s = .error .badSymbol (seek (s.inPos + 10) s) := by
  obtain ⟨k, rfl⟩ : ∃ k, fuel = k + 1 := ⟨fuel - 1, by omega⟩
  have hcount : ¬ Config.nodeCap < count + 1 := by simp only [Config.nodeCap]; omega
  obtain ⟨htag, hfield⟩ := (holds_cons_iff _ _ _ _).1 hh
  have hsymbol : inRead Config.symbolBits (seek (s.inPos + 1) s) = .ok (some v) (seek (s.inPos + 10) s) := by
    have hread := inRead_field (s := seek (s.inPos + 1) s) hr hfield
    rwa [Nat.mod_eq_of_lt (show v < 2 ^ 9 from hhi)] at hread
  rw [rd, inRead_tag (by omega) htag]
  simp only [Run.ok_bind, if_neg hcount, Bool.toNat_true, one_ne_zero, if_false, hsymbol, headerSymbol_of_le hlo]

/-- The end of the stream inside a leaf's symbol (43_decoder R174). -/
theorem rd_of_short_symbol {fuel count : Nat} {s : State} (hf : 0 < fuel) (hc : count < 513)
    (hr : s.inPos + 1 ≤ 8 * s.inLen) (hend : 8 * s.inLen < s.inPos + 10)
    (htag : Memory.bit s.inMem s.inPos = some true) :
    rd fuel count s = .error .malformedHeader (seek (s.inPos + 1) s) := by
  obtain ⟨k, rfl⟩ : ∃ k, fuel = k + 1 := ⟨fuel - 1, by omega⟩
  have hcount : ¬ Config.nodeCap < count + 1 := by simp only [Config.nodeCap]; omega
  have hsymbol : inRead Config.symbolBits (seek (s.inPos + 1) s) = .ok none (seek (s.inPos + 1) s) := inRead_eos hend
  rw [rd, inRead_tag hr htag]
  simp only [Run.ok_bind, if_neg hcount, Bool.toNat_true, one_ne_zero, if_false, hsymbol]

/-- An error of Rd is RDHDR's (43_decoder R173). -/
theorem rdhdrFails_of_rd {s : State} {e : ErrCode} {p : Nat}
    (h : rd (Config.nodeCap + 1) 0 (dropTree s) = .error e (seek p (dropTree s))) : RdhdrFails s e p := by
  refine ⟨noCodes, ?_, fun y => getElem_noCodes y.isLt⟩
  rw [exec, execRdhdr, rdhdrBody, h]
  rfl

/-- A lone leaf is refused after it has been read (43_decoder R174). -/
theorem rdhdrFails_of_lone_leaf {s : State} {v : Nat} (hv : v ≤ 256) (hr : s.inPos + 10 ≤ 8 * s.inLen)
    (hh : Holds s.inMem s.inPos (true :: field 9 v)) : RdhdrFails s .malformedHeader (s.inPos + 10) := by
  have hread := rd_header (.leaf ⟨v, by omega⟩ 0) (Config.nodeCap + 1) 0 (dropTree s) (by simp) (by simp [Tree.size])
    (by simpa [header] using hr) hh
  refine ⟨noCodes, ?_, fun y => getElem_noCodes y.isLt⟩
  rw [exec, execRdhdr, rdhdrBody, hread]
  rfl

/-- An error at a node of the header is RDHDR's, with what stands before the node read (43_decoder R173). -/
theorem rdhdrFails_of_path {s : State} {path : List (Option Tree)} {e : ErrCode} {p : Nat} (hc : tagsBefore path ≤ 513)
    (hr : s.inPos + (headerBefore path).length ≤ 8 * s.inLen) (hh : Holds s.inMem s.inPos (headerBefore path))
    (h : ∀ fuel, 0 < fuel → rd fuel (tagsBefore path) (seek (s.inPos + (headerBefore path).length) (dropTree s)) =
      .error e (seek p (dropTree s))) : RdhdrFails s e p := by
  refine rdhdrFails_of_rd (rd_before path _ 0 (dropTree s) _ e (by simp) (by omega) hr hh fun fuel hf => ?_)
  rw [Nat.zero_add] at hf ⊢
  exact h fuel (by omega)

/-- Settles O43: the failing read of each kind (`rd_of_bad_symbol`, `rd_of_full`, `rd_of_no_tag`, `rd_of_short_symbol`)
at the end of a path. -/
theorem rdhdrRefusesLoneLeavesAndBadSymbols : Obligations.RdhdrRefusesLoneLeavesAndBadSymbols := by
  refine fun s => ⟨fun v hv hr hh => rdhdrFails_of_lone_leaf hv hr hh, fun path => ⟨?_, ?_, ?_, ?_⟩⟩
  · intro v hlo hhi hc hr hh
    obtain ⟨hbefore, hnode⟩ := (holds_append_iff _ _ _ _).1 hh
    exact rdhdrFails_of_path (by omega) (by omega) hbefore fun fuel hf => rd_of_bad_symbol hf hc hlo hhi hr hnode
  · intro b hc hr hh
    obtain ⟨hbefore, hnode⟩ := (holds_append_iff _ _ _ _).1 hh
    refine rdhdrFails_of_path (by omega) (by omega) hbefore fun fuel hf => ?_
    rw [hc, rd_of_full hf hr ((holds_cons_iff _ _ _ _).1 hnode).1]
    rfl
  · intro hc hend hh
    exact rdhdrFails_of_path hc (by omega) hh fun fuel hf =>
      rd_of_no_tag hf (by rw [seek_inPos, hend]; exact Nat.lt_succ_self _)
  · intro hc hr hend hh
    obtain ⟨hbefore, hnode⟩ := (holds_append_iff _ _ _ _).1 hh
    exact rdhdrFails_of_path (by omega) (by omega) hbefore fun fuel hf =>
      rd_of_short_symbol hf hc hr hend ((holds_cons_iff _ _ _ _).1 hnode).1

/-! ### SEQUENCE -/

theorem validTree_of_invalid {s : State} (h : s.treeValid = false) : validTree s = none :=
  if_neg (by simp [h])

theorem validTree_of_valid {s : State} {t : Tree} (hv : s.treeValid = true) (ht : s.tree = some t) :
    validTree s = some t :=
  (if_pos hv).trans ht

/-- ENCODE needs both a tree and codes (42_encoder R144). -/
theorem encodeBody_of_missing {s : State} (h : s.treeValid = false ∨ s.codesValid = false) :
    encodeBody s = .error .sequence s := by
  unfold encodeBody
  split
  next hv hc =>
    rcases h with h | h
    · rw [validTree_of_invalid h] at hv
      cases hv
    · rw [h] at hc
      cases hc
  next => rfl

/-- Settles O50: each of the four commands asks for its tree or codes before anything else. -/
theorem missingTreeOrCodesReportsSequence : Obligations.MissingTreeOrCodesReportsSequence := by
  rintro s i (⟨rfl | rfl | rfl | rfl, hv⟩ | ⟨rfl, hc⟩)
  · rw [exec, execGencodes, gencodesBody, validTree_of_invalid hv]
    rfl
  · rw [exec, execWrhdr, wrhdrBody, validTree_of_invalid hv]
    rfl
  · rw [exec, execEncode, encodeBody_of_missing (.inl hv)]
    rfl
  · rw [exec, execDecode, decodeBody, validTree_of_invalid hv]
    rfl
  · rw [exec, execEncode, encodeBody_of_missing (.inr hc)]
    rfl

/-! ### WRHDR -/

/-- Settles O34: OutPut appends the header (`outPut_ok`), whose length is `length_header`. -/
theorem wrhdrAppendsTheHeader : Obligations.WrhdrAppendsTheHeader := by
  intro s t hv ht hopen hroom
  have hlen : (header t).length = 11 * t.leaves - 1 := by have := length_header t; omega
  rw [← hlen] at hroom ⊢
  obtain ⟨m, hrun, ha⟩ := outPut_ok hopen hroom
  refine ⟨m, ?_, ha⟩
  rw [exec, execWrhdr, wrhdrBody, validTree_of_valid hv ht]
  simp only [hrun]
  rfl

end Sys2Proof.Machine
end

section
/-! SUPPORT. BUILD's merges follow the rule of the least key, and the tree they make (42_encoder R132 to R138). -/

namespace Sys2Proof.Machine

/-! ### The entries BUILD starts from -/

/-- The entry of a counted byte (42_encoder R134, R135). -/
def byteEntry (f : Vector Word 257) (y : Symbol) : Entry := { node := .leaf y f[y.val].toNat, seq := y.val }

/-- The end-marker's entry (42_encoder R134, R135). -/
def eofEntry : Entry := { node := .leaf 256 1, seq := 256 }

/-- The pad leaf's entry (42_encoder R137). -/
def padEntry : Entry := { node := .leaf 0 0, seq := 0 }

/-- The counted bytes. -/
def countedSymbols (f : Vector Word 257) : List Symbol :=
  (List.finRange 257).filter fun y => decide (y.val < 256) && decide (0 < f[y.val].toNat)

theorem countedLeaves_eq (f : Vector Word 257) : countedLeaves f = (countedSymbols f).map (byteEntry f) := rfl

theorem mem_countedSymbols {f : Vector Word 257} {y : Symbol} :
    y ∈ countedSymbols f ↔ y.val < 256 ∧ 0 < f[y.val].toNat := by
  simp [countedSymbols]

theorem nodup_countedSymbols (f : Vector Word 257) : (countedSymbols f).Nodup :=
  (List.nodup_finRange 257).filter _

theorem countedSymbols_eq_nil_iff {f : Vector Word 257} :
    countedSymbols f = [] ↔ ∀ y : Symbol, y.val < 256 → f[y.val] = 0 := by
  rw [List.eq_nil_iff_forall_not_mem]
  refine forall_congr' fun y => ?_
  rw [mem_countedSymbols, not_and, ← BitVec.toNat_inj, Nat.not_lt, Nat.le_zero]
  rfl

/-- BUILD starts from the counted bytes' entries and the end-marker's, or from the end-marker's and the pad's. -/
theorem buildLeaves_eq (f : Vector Word 257) :
    (countedSymbols f = [] ∧ buildLeaves f = [eofEntry, padEntry]) ∨
    (countedSymbols f ≠ [] ∧ buildLeaves f = (countedSymbols f).map (byteEntry f) ++ [eofEntry]) := by
  rw [buildLeaves, countedLeaves_eq]
  cases countedSymbols f with
  | nil => exact .inl ⟨rfl, rfl⟩
  | cons y ys => exact .inr ⟨List.cons_ne_nil _ _, rfl⟩

/-- The seqs of the entries are distinct and below the first Internal node's (42_encoder R135). -/
theorem seqs_buildLeaves (f : Vector Word 257) :
    ((buildLeaves f).map (·.seq)).Nodup ∧ ∀ e ∈ buildLeaves f, e.seq < 257 := by
  rcases buildLeaves_eq f with ⟨-, h⟩ | ⟨-, h⟩
  · rw [h]
    decide
  · have hbytes : ((countedSymbols f).map (byteEntry f)).map (·.seq) = (countedSymbols f).map Fin.val := by
      rw [List.map_map]
      rfl
    rw [h]
    constructor
    · rw [List.map_append, hbytes, List.nodup_append]
      refine ⟨(nodup_countedSymbols f).map Fin.val_injective, by decide, fun a ha b hb => ?_⟩
      obtain ⟨y, hy, rfl⟩ := List.mem_map.1 ha
      obtain rfl : b = 256 := by simpa [eofEntry] using hb
      exact Nat.ne_of_lt (mem_countedSymbols.1 hy).1
    · intro e he
      rcases List.mem_append.1 he with he | he
      · obtain ⟨y, -, rfl⟩ := List.mem_map.1 he
        exact y.isLt
      · obtain rfl := List.mem_singleton.1 he
        decide

theorem buildStart_buildLeaves (f : Vector Word 257) : BuildStart f (buildLeaves f) where
  nodup := (seqs_buildLeaves f).1.of_map
  mem e := by
    have hbytes : (∃ y : Symbol, y.val < 256 ∧ 0 < f[y.val].toNat ∧ e = byteEntry f y) ↔
        e ∈ (countedSymbols f).map (byteEntry f) := by
      rw [List.mem_map]
      exact exists_congr fun y => by rw [mem_countedSymbols, and_assoc]; tauto
    change _ ↔ (∃ y : Symbol, y.val < 256 ∧ 0 < f[y.val].toNat ∧ e = byteEntry f y) ∨ e = eofEntry ∨
      ((∀ y : Symbol, y.val < 256 → f[y.val] = 0) ∧ e = padEntry)
    rw [hbytes, ← countedSymbols_eq_nil_iff]
    rcases buildLeaves_eq f with ⟨hnil, h⟩ | ⟨hne, h⟩
    · simp [h, hnil]
    · simp [h, hne]

/-- The priority structure of entries with distinct seqs is in key order (42_encoder R133). -/
theorem pairwise_queueOf (es : List Entry) (h : (es.map (·.seq)).Nodup) : (queueOf es).Pairwise KeyLt := by
  have key : ∀ es q : List Entry, (es.map (·.seq)).Nodup → q.Pairwise KeyLt → (∀ e ∈ es, ∀ x ∈ q, e.seq ≠ x.seq) →
      (es.foldl (fun q e => enqueue e q) q).Pairwise KeyLt := by
    intro es
    induction es with
    | nil => exact fun q _ hq _ => hq
    | cons e es ih =>
      intro q hes hq hne
      obtain ⟨he, hes⟩ := List.nodup_cons.1 hes
      refine ih _ hes (pairwise_enqueue hq (hne e List.mem_cons_self)) fun e' he' x hx => ?_
      rcases (mem_enqueue e x q).1 hx with rfl | hx
      · exact fun heq => he (List.mem_map.2 ⟨e', he', heq⟩)
      · exact hne e' (List.mem_cons_of_mem _ he') x hx
  exact key es [] h .nil fun _ _ _ hx => absurd hx List.not_mem_nil

/-! ### The merges -/

/-- The rule of the least key looks at no order of the entries (42_encoder R133). -/
theorem MergesLeast.perm {n m : Nat} {q q' : List Entry} {e : Entry} (h : MergesLeast n q e m) (hp : q'.Perm q) :
    MergesLeast n q' e m := by
  cases h with
  | done =>
    rw [List.perm_singleton.1 hp]
    exact .done n e
  | merge _ _ _ rest a b _ hsplit hfirst hsecond hmore =>
    exact .merge n m q' rest a b e (hp.trans hsplit) hfirst hsecond hmore

/-- A merge of a structure in key order is one of the rule, and leaves the structure in key order. -/
theorem mergesLeast_step {n m : Nat} {a b e : Entry} {q : List Entry} (hq : (a :: b :: q).Pairwise KeyLt)
    (h : MergesLeast (n + 1) (enqueue (mergeEntries a b n) q) e m) : MergesLeast n (a :: b :: q) e m := by
  obtain ⟨ha, hbq⟩ := List.pairwise_cons.1 hq
  obtain ⟨hb, -⟩ := List.pairwise_cons.1 hbq
  exact .merge n m _ q a b e (List.Perm.refl _) ha hb (h.perm (perm_enqueue _ _).symm)

/-- A structure in key order whose seqs are below the next one. -/
def Ordered (n : Nat) (q : List Entry) : Prop := q.Pairwise KeyLt ∧ ∀ x ∈ q, x.seq < n

theorem Ordered.merge {n : Nat} {a b : Entry} {q : List Entry} (h : Ordered n (a :: b :: q)) :
    Ordered (n + 1) (enqueue (mergeEntries a b n) q) := by
  obtain ⟨hpair, hseq⟩ := h
  have hq : ∀ x ∈ q, x.seq < n := fun x hx => hseq x (by simp [hx])
  refine ⟨pairwise_enqueue ((List.pairwise_cons.1 hpair).2.of_cons) fun x hx => (hq x hx).ne', fun x hx => ?_⟩
  rcases (mem_enqueue _ x q).1 hx with rfl | hx
  · exact Nat.lt_succ_self n
  · exact (hq x hx).trans (Nat.lt_succ_self n)

/-- The merge loop follows the rule of the least key (42_encoder R132, R133, R136): the merges still to come, put after
the ones made, are merges of the first structure. -/
theorem mergeLoop_mergesLeast {n : Nat} {q : List Entry} (hne : q ≠ []) (ho : Ordered n q) :
    ∃ e, mergeLoop q.length n q = ([e], n + (q.length - 1)) ∧ MergesLeast n q e (n + (q.length - 1)) := by
  obtain ⟨e, hrun, -, hmerges⟩ := mergeLoop_keeps
    (fun k r => Ordered k r ∧ ∀ e m, MergesLeast k r e m → MergesLeast n q e m)
    (fun k a b r h => ⟨h.1.merge, fun e m hm => h.2 e m (mergesLeast_step h.1.1 hm)⟩)
    q.length n q hne (Nat.le_succ _) ⟨ho, fun _ _ hm => hm⟩
  exact ⟨e, hrun, hmerges _ _ (.done _ e)⟩

theorem ordered_queueOf_buildLeaves (f : Vector Word 257) : Ordered 257 (queueOf (buildLeaves f)) := by
  obtain ⟨hnodup, hlt⟩ := seqs_buildLeaves f
  exact ⟨pairwise_queueOf _ hnodup, fun x hx => hlt x ((perm_queueOf _).mem_iff.1 hx)⟩

theorem queueOf_buildLeaves_ne_nil (f : Vector Word 257) : queueOf (buildLeaves f) ≠ [] := by
  have htwo := two_le_length_buildLeaves f
  exact List.ne_nil_of_length_pos (by rw [length_queueOf]; omega)

/-- BUILD's merges (42_encoder R132). -/
theorem buildQueue_mergesLeast (f : Vector Word 257) :
    ∃ e, buildQueue f = ([e], 256 + (buildLeaves f).length) ∧
      MergesLeast 257 (buildLeaves f) e (256 + (buildLeaves f).length) := by
  have htwo := two_le_length_buildLeaves f
  obtain ⟨e, hrun, hmerges⟩ := mergeLoop_mergesLeast (queueOf_buildLeaves_ne_nil f) (ordered_queueOf_buildLeaves f)
  rw [length_queueOf, show 257 + ((buildLeaves f).length - 1) = 256 + (buildLeaves f).length by omega] at hrun hmerges
  refine ⟨e, ?_, hmerges.perm (perm_queueOf _).symm⟩
  rw [← hrun, buildQueue, length_queueOf]

/-- Settles O30: `mergeLoop_mergesLeast` from any structure, and BUILD's own is ordered and made of the rules' leaves. -/
theorem extractMinTakesTheLeastKey : Obligations.ExtractMinTakesTheLeastKey := by
  refine ⟨fun n q hne hpair hseq => mergeLoop_mergesLeast hne ⟨hpair, hseq⟩, fun f => ?_⟩
  obtain ⟨e, hrun, hmerges⟩ := buildQueue_mergesLeast f
  exact ⟨buildLeaves f, e, buildStart_buildLeaves f, perm_queueOf _, (ordered_queueOf_buildLeaves f).1, hrun, hmerges⟩

/-! ### The tree -/

/-- The leaves with weights under all the entries of a structure. -/
def leavesUnder (q : List Entry) : List (Symbol × Nat) := q.flatMap fun e => e.node.leafWeights

theorem perm_leavesUnder {q q' : List Entry} (h : q.Perm q') : (leavesUnder q).Perm (leavesUnder q') :=
  h.flatMap_right _

/-- The merges lose no leaf. -/
theorem MergesLeast.perm_leafWeights {n m : Nat} {q : List Entry} {e : Entry} (h : MergesLeast n q e m) :
    e.node.leafWeights.Perm (leavesUnder q) := by
  induction h with
  | done n e => rw [leavesUnder, List.flatMap_singleton]
  | merge n m q rest a b e hsplit _ _ _ ih =>
    refine ih.trans (List.Perm.trans ?_ (perm_leavesUnder hsplit).symm)
    simp only [leavesUnder, List.flatMap_cons, Tree.leafWeights, ← List.append_assoc]
    exact List.perm_append_comm.append_right _

/-- The merges add the weights and put the lesser tree on the right (42_encoder R136, R138). -/
theorem MergesLeast.summed_heavyLeft {n m : Nat} {q : List Entry} {e : Entry} (h : MergesLeast n q e m)
    (hq : ∀ x ∈ q, x.node.summed ∧ x.node.heavyLeft) : e.node.summed ∧ e.node.heavyLeft := by
  induction h with
  | done n e => exact hq e (List.mem_singleton_self e)
  | merge n m q rest a b e hsplit hfirst _ _ ih =>
    have hparts : ∀ x ∈ a :: b :: rest, x.node.summed ∧ x.node.heavyLeft := fun x hx => hq x (hsplit.mem_iff.2 hx)
    obtain ⟨hsa, hha⟩ := hparts a (by simp)
    obtain ⟨hsb, hhb⟩ := hparts b (by simp)
    have hle : a.node.weight ≤ b.node.weight := (hfirst b (by simp)).elim Nat.le_of_lt fun heq => heq.1.le
    refine ih fun x hx => ?_
    rcases List.mem_cons.1 hx with rfl | hx
    · exact ⟨⟨Nat.add_comm _ _, hsb, hsa⟩, ⟨hle, hhb, hha⟩⟩
    · exact hparts x (by simp [hx])

/-- The last node made has the last seq (42_encoder R135). -/
theorem MergesLeast.seq_eq {n m : Nat} {q : List Entry} {e : Entry} (h : MergesLeast n q e m) :
    e.seq + 1 = m ∨ (q = [e] ∧ n = m) := by
  induction h with
  | done n e => exact .inr ⟨rfl, rfl⟩
  | merge n m q rest a b e _ _ _ _ ih =>
    rcases ih with h | ⟨hlast, rfl⟩
    · exact .inl h
    · obtain ⟨rfl, -⟩ := List.cons.inj hlast
      exact .inl rfl

theorem Tree.symbols_eq (t : Tree) : t.symbols = t.leafWeights.map (·.1) := by
  induction t with
  | leaf => rfl
  | node w l r ihl ihr => rw [Tree.symbols, Tree.leafWeights, List.map_append, ihl, ihr]

/-- Where the weights are sums, the root's is the sum of the leaves' (10_state R45). -/
theorem Tree.weight_of_summed {t : Tree} (h : t.summed) : t.weight = (t.leafWeights.map (·.2)).sum := by
  induction t with
  | leaf s w => simp [Tree.weight, Tree.leafWeights]
  | node w l r ihl ihr =>
    obtain ⟨hw, hl, hr⟩ := h
    rw [Tree.leafWeights, List.map_append, List.sum_append, ← ihl hl, ← ihr hr]
    exact hw

/-- The end-marker's leaf and the pad leaf, with their weights. -/
theorem leavesUnder_buildLeaves (f : Vector Word 257) :
    (countedSymbols f = [] ∧ leavesUnder (buildLeaves f) = [(256, 1), (0, 0)]) ∨
    (countedSymbols f ≠ [] ∧
      leavesUnder (buildLeaves f) = (countedSymbols f).map (fun y => (y, f[y.val].toNat)) ++ [(256, 1)]) := by
  refine (buildLeaves_eq f).imp (fun ⟨h₁, h₂⟩ => ⟨h₁, ?_⟩) fun ⟨h₁, h₂⟩ => ⟨h₁, ?_⟩
  · rw [h₂]
    rfl
  · rw [h₂, leavesUnder, List.flatMap_append, List.flatMap_map, ← List.flatMap_pure_eq_map]
    rfl

theorem nodup_symbols_buildLeaves (f : Vector Word 257) : ((leavesUnder (buildLeaves f)).map (·.1)).Nodup := by
  rcases leavesUnder_buildLeaves f with ⟨-, h⟩ | ⟨-, h⟩
  · rw [h]
    decide
  · rw [h, List.map_append, List.map_map, List.nodup_append]
    refine ⟨by simpa [Function.comp_def] using nodup_countedSymbols f, by simp, fun a ha b hb => ?_⟩
    obtain ⟨y, hy, rfl⟩ := List.mem_map.1 ha
    obtain rfl : b = 256 := by simpa using hb
    exact fun heq => absurd (mem_countedSymbols.1 hy).1 (by rw [show y = 256 from heq]; decide)

/-- The bytes' counters, by symbol. -/
theorem countSum_eq (f : Vector Word 257) :
    countSum f = (((List.finRange 257).filter fun y => decide (y.val < 256)).map fun y => f[y.val].toNat).sum := by
  have hbytes : ((List.finRange 257).filter fun y : Symbol => decide (y.val < 256)) =
      (List.finRange 256).map Fin.castSucc := by
    rw [List.finRange_succ_last, List.filter_append, List.filter_eq_self.2 (by simp), List.filter_eq_nil_iff.2 (by simp),
      List.append_nil]
  rw [hbytes, countSum, List.map_map]
  congr 1
  exact List.ext_getElem (by simp) fun i h₁ h₂ => by simp

theorem sum_filter_pos {α : Type} (g : α → Nat) (xs : List α) :
    ((xs.filter fun x => decide (0 < g x)).map g).sum = (xs.map g).sum := by
  induction xs with
  | nil => rfl
  | cons x xs ih =>
    by_cases hx : 0 < g x
    · simp [hx, ih]
    · simp [show g x = 0 by omega, ih]

/-- The bytes' leaves weigh what the counters sum to (42_encoder R136). -/
theorem sum_weights_countedSymbols (f : Vector Word 257) :
    ((countedSymbols f).map fun y => f[y.val].toNat).sum = countSum f := by
  have hsplit : countedSymbols f = ((List.finRange 257).filter fun y => decide (y.val < 256)).filter
      fun y => decide (0 < f[y.val].toNat) := by
    rw [List.filter_filter, countedSymbols]
    exact List.filter_congr fun y _ => Bool.and_comm _ _
  rw [hsplit, sum_filter_pos fun y : Symbol => f[y.val].toNat, ← countSum_eq]

theorem sum_weights_buildLeaves (f : Vector Word 257) :
    ((leavesUnder (buildLeaves f)).map (·.2)).sum = countSum f + 1 := by
  rw [← sum_weights_countedSymbols]
  rcases leavesUnder_buildLeaves f with ⟨hnil, h⟩ | ⟨-, h⟩
  · rw [h, hnil]
    rfl
  · rw [h, List.map_append, List.sum_append, List.map_map]
    rfl

theorem summed_heavyLeft_buildLeaves {f : Vector Word 257} {x : Entry} (hx : x ∈ buildLeaves f) :
    x.node.summed ∧ x.node.heavyLeft := by
  have hleaf := leaves_of_mem_buildLeaves hx
  cases hnode : x.node with
  | leaf y w => exact ⟨trivial, trivial⟩
  | node w l r =>
    have hl := l.leaves_pos
    have hr := r.leaves_pos
    rw [hnode, Tree.leaves] at hleaf
    omega

/-- BUILD's tree is what the rule's merges make of the rules' leaves, with the last seq (42_encoder R132). -/
theorem buildTree_mergesLeast {f : Vector Word 257} {t : Tree} (h : buildTree f = some t) :
    MergesLeast 257 (buildLeaves f) { node := t, seq := 255 + (buildLeaves f).length } (256 + (buildLeaves f).length) := by
  have htwo := two_le_length_buildLeaves f
  obtain ⟨e, hrun, hmerges⟩ := buildQueue_mergesLeast f
  obtain rfl : e.node = t := by
    rw [buildTree, hrun] at h
    exact Option.some.inj h
  have hseq : e.seq = 255 + (buildLeaves f).length := by
    rcases hmerges.seq_eq with hseq | ⟨hone, -⟩
    · omega
    · rw [hone, List.length_singleton] at htwo
      omega
  rw [← hseq]
  exact hmerges

/-- BUILD's tree has just the rules' leaves. -/
theorem perm_leafWeights_buildTree {f : Vector Word 257} {t : Tree} (h : buildTree f = some t) :
    t.leafWeights.Perm (leavesUnder (buildLeaves f)) :=
  (buildTree_mergesLeast h).perm_leafWeights

/-- A leaf of BUILD's tree is a counted byte's, the end-marker's, or the pad (42_encoder R134, R137). -/
theorem mem_leafWeights_buildTree {f : Vector Word 257} {t : Tree} (h : buildTree f = some t) (y : Symbol) (w : Nat) :
    (y, w) ∈ t.leafWeights ↔ (y.val < 256 ∧ 0 < w ∧ w = f[y.val].toNat) ∨ (y = 256 ∧ w = 1) ∨
      (y = 0 ∧ w = 0 ∧ ∀ z : Symbol, z.val < 256 → f[z.val] = 0) := by
  have hbyte : (y, w) ∈ (countedSymbols f).map (fun y => (y, f[y.val].toNat)) ↔
      y.val < 256 ∧ 0 < w ∧ w = f[y.val].toNat := by
    simp only [List.mem_map, mem_countedSymbols, Prod.mk.injEq]
    constructor
    · rintro ⟨x, ⟨hx, hpos⟩, rfl, rfl⟩
      exact ⟨hx, hpos, rfl⟩
    · rintro ⟨hy, hpos, rfl⟩
      exact ⟨y, ⟨hy, hpos⟩, rfl, rfl⟩
  rw [(perm_leafWeights_buildTree h).mem_iff, ← countedSymbols_eq_nil_iff, ← hbyte]
  rcases leavesUnder_buildLeaves f with ⟨hnil, h⟩ | ⟨hne, h⟩
  · simp [h, hnil]
  · simp [h, hne]

theorem nodup_symbols_buildTree {f : Vector Word 257} {t : Tree} (h : buildTree f = some t) : t.symbols.Nodup := by
  rw [Tree.symbols_eq, ((perm_leafWeights_buildTree h).map _).nodup_iff]
  exact nodup_symbols_buildLeaves f

/-- Settles O29: the tree is the rule's (`buildTree_mergesLeast`), so that its leaves and weights are known. -/
theorem buildMakesTheFullTree : Obligations.BuildMakesTheFullTree := by
  intro s
  obtain ⟨t, ht, hroot, -⟩ := buildTree_bounds s.freq
  have hmerges := buildTree_mergesLeast ht
  obtain ⟨hsummed, hheavy⟩ := hmerges.summed_heavyLeft fun x hx => summed_heavyLeft_buildLeaves hx
  have hleaves : t.leaves = (buildLeaves s.freq).length := by
    obtain ⟨t', ht', hleaves⟩ := leaves_buildTree s.freq
    rwa [Option.some.inj (ht.symm.trans ht')]
  have hlo := two_le_length_buildLeaves s.freq
  have hhi := length_buildLeaves_le s.freq
  have hsize : t.size = 2 * t.leaves - 1 := by have := t.size_eq; omega
  refine ⟨t, noCodes, ?_, fun y => getElem_noCodes y.isLt, hroot, hsize, by omega, by omega, nodup_symbols_buildTree ht,
    hsummed, hheavy, ?_, ⟨buildLeaves s.freq, buildStart_buildLeaves s.freq, hleaves.symm, hmerges⟩,
    mem_leafWeights_buildTree ht⟩
  · rw [exec, execBuild, buildBody, ht, buildNodes_eq_size ht, hsize]
    rfl
  · rw [Tree.weight_of_summed hsummed, ((perm_leafWeights_buildTree ht).map _).sum_eq, sum_weights_buildLeaves]

end Sys2Proof.Machine
end

section
/-! SUPPORT. The codes of a tree (42_encoder R140, R141). -/

namespace Sys2Proof.Machine

theorem exec_gencodes {s : State} {t : Tree} (hv : s.treeValid = true) (ht : s.tree = some t) :
    exec .gencodes s = .next (complete (installCodes (codesOf t) s)) := by
  rw [exec, execGencodes, gencodesBody_of_validTree (validTree_of_valid hv ht), settle_ok]

/-- Settles O31: the table is `codesOf`, whose entries are `getElem_codesOf`. -/
theorem gencodesRecordsTheLastPath : Obligations.GencodesRecordsTheLastPath :=
  fun _ t hv ht => ⟨codesOf t, exec_gencodes hv ht, getElem_codesOf t⟩

/-- A path that begins another path leads to the same leaf (42_encoder R141). -/
theorem Tree.eq_of_prefix {t : Tree} {x y : Symbol × List Bool} (hx : x ∈ t.paths) (hy : y ∈ t.paths)
    (h : x.2 <+: y.2) : x.1 = y.1 := by
  induction t generalizing x y with
  | leaf s w =>
    obtain rfl := List.mem_singleton.1 hx
    obtain rfl := List.mem_singleton.1 hy
    rfl
  | node w l r ihl ihr =>
    simp only [Tree.paths, List.mem_append, List.mem_map] at hx hy
    rcases hx with ⟨x, hx, rfl⟩ | ⟨x, hx, rfl⟩ <;> rcases hy with ⟨y, hy, rfl⟩ | ⟨y, hy, rfl⟩ <;>
      simp only [List.cons_prefix_cons] at h
    · exact ihl (x := x) (y := y) hx hy h.2
    · cases h.1
    · cases h.1
    · exact ihr (x := x) (y := y) hx hy h.2

/-- The paths fill the code space: at each Internal node each side fills half of it (42_encoder R141). -/
theorem Tree.sum_paths (t : Tree) : (t.paths.map fun x => (1 / 2 : ℚ) ^ x.2.length).sum = 1 := by
  induction t with
  | leaf s w => simp [Tree.paths]
  | node w l r ihl ihr =>
    have half : ∀ (b : Bool) (xs : List (Symbol × List Bool)), (xs.map fun x => (1 / 2 : ℚ) ^ x.2.length).sum = 1 →
        ((xs.map fun x => (x.1, b :: x.2)).map fun x => (1 / 2 : ℚ) ^ x.2.length).sum = 1 / 2 := by
      intro b xs h
      simp only [List.map_map, Function.comp_def, List.length_cons, pow_succ', List.sum_map_mul_left, h, mul_one]
    rw [Tree.paths, List.map_append, List.sum_append, half false _ ihl, half true _ ihr]
    norm_num

/-- Where the leaf symbols are distinct, a symbol's code is its only path (42_encoder R140). -/
theorem codesOf_of_mem_paths {t : Tree} (hnodup : t.symbols.Nodup) {x : Symbol × List Bool} (hx : x ∈ t.paths) :
    (codesOf t)[x.1.val] = some x.2 := by
  cases hc : (codesOf t)[x.1.val] with
  | none =>
    rw [getElem_codesOf, Option.map_eq_none_iff, List.getLast?_eq_none_iff, List.filter_eq_nil_iff] at hc
    exact absurd (decide_eq_true rfl) (hc x hx)
  | some q =>
    rw [← Tree.paths_map_fst] at hnodup
    rw [← Prod.ext_iff.1 (List.inj_on_of_nodup_map hnodup (mem_paths_of_codesOf hc) hx rfl) |>.2]

/-- Settles O32: a code is a path (`mem_paths_of_codesOf`); paths are prefix-free, fill the code space and are short. -/
theorem codesArePrefixFreeAndComplete : Obligations.CodesArePrefixFreeAndComplete := by
  intro s u t hv ht hnodup hrun
  obtain rfl : complete (installCodes (codesOf t) s) = u := Host.Outcome.next.inj ((exec_gencodes hv ht).symm.trans hrun)
  rw [complete_codes, installCodes_codes]
  refine ⟨fun a b p q hp hq h => Tree.eq_of_prefix (mem_paths_of_codesOf hp) (mem_paths_of_codesOf hq) h, ?_,
    fun hroot hsize a p hp => ?_⟩
  · rw [← Tree.paths_map_fst, List.map_map]
    refine (congrArg List.sum ?_).trans t.sum_paths
    exact List.map_congr_left fun x hx => by simp [codesOf_of_mem_paths hnodup hx]
  · have hmem := mem_paths_of_codesOf hp
    have hpos := List.length_pos_of_ne_nil (Tree.path_ne_nil hroot hmem)
    have hlt := t.length_path_lt _ hmem
    have hleaves := t.size_eq
    simp only [Config.nodeCap, Config.maxCodeLen] at *
    omega

end Sys2Proof.Machine
end

section
/-! SUPPORT. ENCODE and COMPRESS over loaded bytes that all have codes: the stream is written whole, or the output
overflows (42_encoder R144, R146). -/

namespace Sys2Proof.Machine

/-! ### Parts of a command that write a bit string -/

/-- The part writes the bit string on the open output of `s` and leaves IN_POS at `p`, or the output overflows. -/
def Writes (bs : List Bool) (p : Nat) (s : State) (r : Run Unit) : Prop :=
  (s.outBits + bs.length ≤ 8 * s.outCap ∧ ∃ m, Appended bs s m ∧
    (PadZero s → PadZero (setOutput m (s.outBits + bs.length) s)) ∧
    r = .ok () (setOutput m (s.outBits + bs.length) (seek p s))) ∨
  (8 * s.outCap < s.outBits + bs.length ∧ ∃ m q, r = .error .outputOverflow (setOutput m (8 * s.outCap) (seek q s)))

theorem outPut_writes (bs : List Bool) {s : State} (ho : s.outClosed = false) (hle : s.outBits ≤ 8 * s.outCap) :
    Writes bs s.inPos s (Run.ofEmit (outPut bs s)) := by
  by_cases hroom : s.outBits + bs.length ≤ 8 * s.outCap
  · obtain ⟨m, hrun, ha⟩ := outPut_ok ho hroom
    have hreach : Reach [.output] s (setOutput m (s.outBits + bs.length) s) := by
      have hends := outPut_ends bs s
      rwa [hrun] at hends
    exact .inl ⟨hroom, m, ha, hreach.keeps fun _ _ _ _ => Update.padZero, by rw [hrun]; rfl⟩
  · obtain ⟨m, hrun, -⟩ := outPut_overflow ho hle (Nat.lt_of_not_le hroom)
    exact .inr ⟨Nat.lt_of_not_le hroom, m, s.inPos, by rw [hrun]; rfl⟩

/-- One part after another writes one bit string after the other. -/
theorem Writes.bind {xs ys : List Bool} {p q : Nat} {s : State} {r : Run Unit} {f : Unit → State → Run Unit}
    (hr : Writes xs p s r)
    (hf : ∀ m, s.outBits + xs.length ≤ 8 * s.outCap →
      Writes ys q (setOutput m (s.outBits + xs.length) (seek p s))
        (f () (setOutput m (s.outBits + xs.length) (seek p s)))) :
    Writes (xs ++ ys) q s (r.bind f) := by
  rw [Writes, List.length_append, ← Nat.add_assoc]
  rcases hr with ⟨hroom, m, ha, hpad, rfl⟩ | ⟨hfull, m, q', rfl⟩
  · rcases hf m hroom with ⟨hroom', m', ha', hpad', hrun⟩ | ⟨hfull', m', q', hrun⟩
    · exact .inl ⟨hroom', m', Appended.append (m := m) ha ⟨ha'.holds, ha'.kept, ha'.frame⟩,
        fun h => hpad' (hpad h), hrun⟩
    · exact .inr ⟨hfull', m', q', hrun⟩
  · exact .inr ⟨by omega, m, q', rfl⟩

/-- Where the part starts in the input makes no difference to what it writes. -/
theorem Writes.of_seek {bs : List Bool} {p q : Nat} {s : State} {r : Run Unit} (h : Writes bs p (seek q s) r) :
    Writes bs p s r := by
  rcases h with ⟨hroom, m, ha, hpad, hrun⟩ | ⟨hfull, m, q', hrun⟩
  · exact .inl ⟨hroom, m, ⟨ha.holds, ha.kept, ha.frame⟩, hpad, hrun⟩
  · exact .inr ⟨hfull, m, q', hrun⟩

/-! ### The payload -/

/-- A payload is the codes of the bytes and then the end-marker's (42_encoder R144). -/
theorem payload_eq_some {codes : Vector (Option (List Bool)) 257} {bytes : List Byte} {p : List Bool}
    (h : payload codes bytes = some p) :
    ∃ (cs : List (List Bool)) (q : List Bool),
      bytes.map (fun b => codes[(byteSymbol b.toNat).val]) = cs.map some ∧
      codes[Config.pseudoEof.val] = some q ∧ p = cs.flatten ++ q := by
  induction bytes generalizing p with
  | nil => exact ⟨[], p, rfl, h, rfl⟩
  | cons b bs ih =>
    simp only [payload] at h
    split at h
    next c p' hc hp' =>
      obtain rfl := Option.some.inj h
      obtain ⟨cs, q, hcs, hq, rfl⟩ := ih hp'
      exact ⟨c :: cs, q, by simp [hc, hcs], hq, by simp⟩
    next => cases h

theorem emitCode_writes {y : Symbol} {c : List Bool} {s : State} (hc : s.codes[y.val] = some c)
    (ho : s.outClosed = false) (hle : s.outBits ≤ 8 * s.outCap) : Writes c s.inPos s (emitCode y s) := by
  rw [emitCode, hc]
  exact outPut_writes c ho hle

/-- ENCODE's loop over the last bytes of the input, which all have codes. -/
theorem encodeLoop_writes (bytes : List Byte) (cs : List (List Bool)) (k : Nat) (s : State) (hk : bytes.length < k)
    (hr : s.inPos + 8 * bytes.length = 8 * s.inLen) (hh : Holds s.inMem s.inPos (byteBits bytes))
    (hc : bytes.map (fun b => s.codes[(byteSymbol b.toNat).val]) = cs.map some) (ho : s.outClosed = false)
    (hle : s.outBits ≤ 8 * s.outCap) : Writes cs.flatten (8 * s.inLen) s (encodeLoop k s) := by
  induction bytes generalizing cs k s with
  | nil =>
    obtain ⟨k, rfl⟩ : ∃ j, k = j + 1 := ⟨k - 1, by omega⟩
    obtain rfl : cs = [] := by simpa using hc.symm
    rw [encodeLoop, inRead_eos (by simp at hr ⊢; omega)]
    exact .inl ⟨hle, s.outMem, Appended.nil s, id, by rw [← hr]; rfl⟩
  | cons b bs ih =>
    obtain ⟨k, rfl⟩ : ∃ j, k = j + 1 := ⟨k - 1, by omega⟩
    obtain ⟨c, cs, rfl⟩ := List.exists_cons_of_ne_nil (l := cs) (by rintro rfl; simp at hc)
    obtain ⟨hb, hbs⟩ := (holds_append_iff _ _ _ _).1 hh
    obtain ⟨hcode, hcodes⟩ := List.cons.inj hc
    rw [List.length_cons] at hk hr
    rw [length_field] at hbs
    rw [encodeLoop, inRead_byte (by omega) hb, Run.ok_bind, List.flatten_cons]
    exact Writes.of_seek (q := s.inPos + 8) (Writes.bind (emitCode_writes hcode ho hle) fun m hroom =>
      ih cs k (setOutput m (s.outBits + c.length) (seek (s.inPos + 8) s)) (by omega)
        (by simp only [setOutput_inPos, setOutput_inLen, seek_inPos, seek_inLen]; omega) hbs hcodes ho hroom)

theorem encodePayload_writes {bytes : List Byte} {p : List Bool} {s : State} (hl : Loaded bytes s)
    (hp : payload s.codes bytes = some p) (ho : s.outClosed = false) (hle : s.outBits ≤ 8 * s.outCap) :
    Writes p (8 * s.inLen) s (encodePayload s) := by
  have hlen := hl.1
  obtain ⟨cs, q, hcs, hq, rfl⟩ := payload_eq_some hp
  refine Writes.of_seek (q := 0) (Writes.bind (encodeLoop_writes bytes cs _ (rewind s) (by omega) ?_ (holds_loaded hl)
    hcs ho hle) fun m hroom => emitCode_writes hq ho (by exact hroom))
  rw [rewind_inPos, rewind_inLen, hlen, Nat.zero_add]

/-- ENCODE with a tree and codes (42_encoder R144). -/
theorem encodeBody_of_valid {s : State} {T : Tree} (hT : validTree s = some T) (hv : s.codesValid = true) :
    encodeBody s = ((Run.ofEmit (outPut (field 32 s.magic.toNat) s)).bind fun _ s =>
      (Run.ofEmit (outPut (header T) s)).bind fun _ s => encodePayload s).bind fun _ s => .ok () (outClose s) := by
  have hassoc : ∀ (r : Run Unit) (f g : Unit → State → Run Unit),
      (r.bind f).bind g = r.bind fun a s => (f a s).bind g := by
    intro r f g
    cases r <;> rfl
  rw [encodeBody, hT, hv]
  simp only [hassoc]
  rfl

/-- ENCODE of loaded bytes that all have codes writes the magic number, the header and the payload and closes, or it
overflows (42_encoder R144). -/
theorem encodeBody_cases {s : State} {T : Tree} {bytes : List Byte} {p : List Bool} (hT : validTree s = some T)
    (hv : s.codesValid = true) (hl : Loaded bytes s) (hp : payload s.codes bytes = some p) (ho : s.outClosed = false)
    (hle : s.outBits ≤ 8 * s.outCap) :
    ∃ r, Writes (field 32 s.magic.toNat ++ (header T ++ p)) (8 * s.inLen) s r ∧
      encodeBody s = r.bind fun _ s => .ok () (outClose s) := by
  refine ⟨_, ?_, encodeBody_of_valid hT hv⟩
  refine (outPut_writes _ ho hle).bind fun m hroom => Writes.bind (outPut_writes _ ?_ ?_) fun m' hroom' =>
    encodePayload_writes (bytes := bytes) ?_ ?_ ?_ ?_
  · exact ho
  · exact hroom
  · exact hl
  · exact hp
  · exact ho
  · exact hroom'

theorem outClose_of_open {s : State} (h : s.outClosed = false) :
    outClose s = { s with outBits := 8 * ((s.outBits + 7) / 8), outClosed := true } := by
  rw [outClose, if_neg (by simp [h])]

/-- ENCODE with room (42_encoder R144). -/
theorem encodeBody_of_room {s : State} {T : Tree} {bytes : List Byte} {p : List Bool} (hT : validTree s = some T)
    (hv : s.codesValid = true) (hl : Loaded bytes s) (hp : payload s.codes bytes = some p) (ho : s.outClosed = false)
    (hroom : s.outBits + (field 32 s.magic.toNat ++ (header T ++ p)).length ≤ 8 * s.outCap) :
    ∃ m, Appended (field 32 s.magic.toNat ++ (header T ++ p)) s m ∧
      (PadZero s → PadZero (setOutput m (s.outBits + (field 32 s.magic.toNat ++ (header T ++ p)).length) s)) ∧
      encodeBody s = .ok () (outClose (setOutput m (s.outBits + (field 32 s.magic.toNat ++ (header T ++ p)).length)
        (seek (8 * s.inLen) s))) := by
  obtain ⟨r, ⟨-, m, ha, hpad, rfl⟩ | ⟨hfull, -⟩, hrun⟩ := encodeBody_cases hT hv hl hp ho (by omega)
  · exact ⟨m, ha, hpad, hrun⟩
  · omega

theorem length_stream (w : Word) (T : Tree) (p : List Bool) :
    (field 32 w.toNat ++ (header T ++ p)).length = 32 + (11 * T.leaves - 1) + p.length := by
  have hheader := length_header T
  rw [List.length_append, List.length_append, length_field]
  omega

/-- Settles O35: `encodeBody_of_room`. -/
theorem encodeAppendsTheCompressedStream : Obligations.EncodeAppendsTheCompressedStream := by
  intro s t bytes p hv ht hc ho hl hp hroom
  obtain ⟨m, ha, -, hrun⟩ := encodeBody_of_room (validTree_of_valid hv ht) hc hl hp ho (by rwa [length_stream])
  rw [List.append_assoc]
  refine ⟨m, ?_, ha⟩
  rw [exec, execEncode, hrun, finish_ok, outClose_of_open, length_stream]
  · simp only [setOutput_outBits, ← Nat.add_assoc]
    rfl
  · exact ho

/-! ### A byte without a code -/

/-- ENCODE's loop meets a byte without a code: it has read it, and has written the codes of the bytes before it
(42_encoder R144). -/
theorem encodeLoop_noCode {xs ys : List Byte} {x : Byte} {cs : List (List Bool)} {s : State}
    (hl : Loaded (xs ++ x :: ys) s) (hpos : s.inPos = 0)
    (hcs : xs.map (fun b => s.codes[(byteSymbol b.toNat).val]) = cs.map some)
    (hx : s.codes[(byteSymbol x.toNat).val] = none) (ho : s.outClosed = false)
    (hroom : s.outBits + cs.flatten.length ≤ 8 * s.outCap) :
    ∃ m, Appended cs.flatten s m ∧ encodeLoop (s.inLen + 1) s =
      .error .noCode (setOutput m (s.outBits + cs.flatten.length) (seek (8 * (xs.length + 1)) s)) := by
  have hlen := hl.1
  have hh := holds_loaded hl
  rw [List.length_append, List.length_cons] at hlen
  rw [byteBits, List.flatMap_append, List.flatMap_cons] at hh
  obtain ⟨hxs, hrest⟩ := (holds_append_iff _ _ _ _).1 hh
  obtain ⟨hbyte, -⟩ := (holds_append_iff _ _ _ _).1 hrest
  rw [← byteBits, length_byteBits] at hbyte
  rw [← hpos] at hxs hbyte
  obtain ⟨m, ha, hrun⟩ := encodeLoop_bytes xs cs (s.inLen + 1) (ys.length + 1 + 1) s (by omega) (by omega) hxs hcs ho hroom
  refine ⟨m, ha, ?_⟩
  rw [hrun, encodeLoop, inRead_byte (b := x)
    (by simp only [setOutput_inPos, setOutput_inLen, seek_inPos, seek_inLen]; omega) hbyte]
  simp only [Run.ok_bind, emitCode, seek_codes, setOutput_codes, hx, Run.error_bind, setOutput_inPos, seek_inPos, hpos,
    Nat.mul_add_one, Nat.zero_add]
  rfl

/-- So does the payload, which begins with it. -/
theorem encodePayload_noCode {xs ys : List Byte} {x : Byte} {cs : List (List Bool)} {s : State}
    (hl : Loaded (xs ++ x :: ys) s) (hcs : xs.map (fun b => s.codes[(byteSymbol b.toNat).val]) = cs.map some)
    (hx : s.codes[(byteSymbol x.toNat).val] = none) (ho : s.outClosed = false)
    (hroom : s.outBits + cs.flatten.length ≤ 8 * s.outCap) :
    ∃ m, Appended cs.flatten s m ∧ encodePayload s =
      .error .noCode (setOutput m (s.outBits + cs.flatten.length) (seek (8 * (xs.length + 1)) s)) := by
  obtain ⟨m, ha, hrun⟩ := encodeLoop_noCode (s := rewind s) hl rfl hcs hx ho hroom
  refine ⟨m, ⟨ha.holds, ha.kept, ha.frame⟩, ?_⟩
  rw [rewind_inLen] at hrun
  rw [encodePayload, hrun]
  rfl

/-- Settles O36: the magic number and the header fit, and then the loop stops as `encodeLoop_noCode` says. -/
theorem encodeStopsAtAByteWithoutACode : Obligations.EncodeStopsAtAByteWithoutACode := by
  intro s t xs ys x cs hv ht hc ho hl hcs hx hroom
  have hlen : (header t).length = 11 * t.leaves - 1 := by have := length_header t; omega
  rw [← hlen] at hroom ⊢
  obtain ⟨m₁, hrun₁, ha₁⟩ := outPut_ok (bs := field 32 s.magic.toNat) ho (by rw [length_field]; omega)
  rw [length_field] at hrun₁
  obtain ⟨m₂, hrun₂, ha₂⟩ := outPut_ok (bs := header t) (s := setOutput m₁ (s.outBits + 32) s) ho
    (by simp only [setOutput_outBits, setOutput_outCap]; omega)
  obtain ⟨m, ha, hrun⟩ := encodePayload_noCode (s := setOutput m₂ (s.outBits + 32 + (header t).length) s) hl hcs hx ho
    (by simp only [setOutput_outBits, setOutput_outCap]; omega)
  refine ⟨m, ?_, Appended.append (m := m₂) (Appended.append (m := m₁) ha₁ ?_) ⟨?_, ?_, ?_⟩⟩
  · rw [exec, execEncode, encodeBody_of_valid (validTree_of_valid hv ht) hc]
    simp only [hrun₁, Run.ofEmit_ok, Run.ok_bind, hrun₂, setOutput_outBits,
      setOutput_setOutput, hrun]
    rfl
  · rw [length_field]
    exact ha₂
  all_goals simp only [List.length_append, length_field, ← Nat.add_assoc]
  · exact ha.holds
  · exact ha.kept
  · exact ha.frame

end Sys2Proof.Machine
end

section
/-! SUPPORT. COMPRESS: every byte of a loaded input has a code, so the one thing that can fail is room in the output
(42_encoder R141, R146). -/

namespace Sys2Proof.Machine

/-! ### The codes of the counted bytes -/

theorem exists_code_of_mem_symbols {t : Tree} {y : Symbol} (h : y ∈ t.symbols) : ∃ c, (codesOf t)[y.val] = some c := by
  rw [← Tree.paths_map_fst] at h
  obtain ⟨x, hx, rfl⟩ := List.mem_map.1 h
  cases hc : (codesOf t)[x.1.val] with
  | none =>
    rw [getElem_codesOf, Option.map_eq_none_iff, List.getLast?_eq_none_iff, List.filter_eq_nil_iff] at hc
    exact absurd (decide_eq_true rfl) (hc x hx)
  | some c => exact ⟨c, rfl⟩

theorem exists_payload {codes : Vector (Option (List Bool)) 257} {bytes : List Byte}
    (hbytes : ∀ b ∈ bytes, ∃ c, codes[(byteSymbol b.toNat).val] = some c)
    (heof : ∃ c, codes[Config.pseudoEof.val] = some c) : ∃ p, payload codes bytes = some p := by
  induction bytes with
  | nil => exact heof
  | cons b bs ih =>
    obtain ⟨c, hc⟩ := hbytes b (by simp)
    obtain ⟨p, hp⟩ := ih fun b hb => hbytes b (by simp [hb])
    exact ⟨c ++ p, payload_cons hc hp⟩

/-- BUILD's tree of the counts of some bytes has a code for each of them and for the end-marker (42_encoder R134). -/
theorem exists_payload_of_counted {bytes : List Byte} {t : Tree} (hlen : bytes.length < 2 ^ 32)
    (h : buildTree (countTable bytes) = some t) : ∃ p, payload (codesOf t) bytes = some p := by
  have hsymbol : ∀ {y : Symbol} {w : Nat}, (y, w) ∈ t.leafWeights → y ∈ t.symbols := fun hy =>
    t.symbols_eq ▸ List.mem_map_of_mem hy
  refine exists_payload (fun b hb => exists_code_of_mem_symbols (hsymbol
    ((mem_leafWeights_buildTree h _ _).2 (.inl ⟨?_, ?_, rfl⟩)))) (exists_code_of_mem_symbols (hsymbol
    ((mem_leafWeights_buildTree h 256 1).2 (.inr (.inl ⟨rfl, rfl⟩)))))
  · rw [byteSymbol_val]
    exact b.isLt
  · rw [countTable_byte bytes b hlen]
    exact List.count_pos_iff.2 hb

theorem length_payload_le {codes : Vector (Option (List Bool)) 257} {n : Nat}
    (hcodes : ∀ (y : Symbol) (c : List Bool), codes[y.val] = some c → c.length ≤ n) {bytes : List Byte} {p : List Bool}
    (h : payload codes bytes = some p) : p.length ≤ n * (bytes.length + 1) := by
  induction bytes generalizing p with
  | nil => simpa using hcodes Config.pseudoEof p h
  | cons b bs ih =>
    simp only [payload] at h
    split at h
    next c p' hc hp' =>
      obtain rfl := Option.some.inj h
      have hc' := hcodes _ c hc
      have hp'' := ih hp'
      rw [List.length_append, List.length_cons, Nat.mul_add_one n (bs.length + 1)]
      omega
    next => cases h

/-! ### COMPRESS -/

/-- Where COMPRESS of loaded bytes is when ENCODE begins: the counts, BUILD's tree of them and its codes, and a fresh
output. -/
def trainedOn (bytes : List Byte) (T : Tree) (s : State) : State :=
  { s with
    freq := countTable bytes, tree := some T, nodes := T.size, treeValid := true, codes := codesOf T, codesValid := true,
    inPos := 8 * s.inLen, outBits := 0, outClosed := false }

theorem buildBody_eq {s : State} {T : Tree} (hT : buildTree s.freq = some T) :
    buildBody s = dropCodes (installTree (some T) T.size s) := by
  rw [buildBody, hT, buildNodes_eq_size hT]

theorem compressBody_eq {bytes : List Byte} {T : Tree} {s : State} (hl : Loaded bytes s)
    (hT : buildTree (countTable bytes) = some T) : compressBody s = encodeBody (trainedOn bytes T s) := by
  have hrun := countBody_loaded (s := rewind (outClear s)) hl rfl
  have htree : buildTree (seek (8 * s.inLen) (setFreq (countTable bytes) (rewind (outClear s)))).freq = some T := hT
  rw [rewind_inLen, outClear_inLen] at hrun
  rw [compressBody, hrun, Run.ok_bind, gencodesBody_of_validTree (T := T) ((validTree_buildBody _).trans htree),
    Run.ofEmit_ok, Run.ok_bind, buildBody_eq htree]
  simp only [trainedOn, installCodes, dropCodes, installTree, seek, setFreq, rewind, outClear]

/-- COMPRESS of loaded bytes: the stream is written from output bit 0 on and the output closed, or it overflows
(42_encoder R146). -/
theorem compressBody_cases {bytes : List Byte} {s : State} (hl : Loaded bytes s) (hcap : s.inLen ≤ Config.maxCap) :
    ∃ T p, buildTree (countTable bytes) = some T ∧ payload (codesOf T) bytes = some p ∧
      ∃ r, Writes (field 32 s.magic.toNat ++ (header T ++ p)) (8 * s.inLen) (trainedOn bytes T s) r ∧
        compressBody s = r.bind fun _ s => .ok () (outClose s) := by
  have hlt : bytes.length < 2 ^ 32 := by rw [← hl.1]; exact lt_of_le_of_lt hcap (by decide)
  obtain ⟨T, hT, -⟩ := buildTree_bounds (countTable bytes)
  obtain ⟨p, hp⟩ := exists_payload_of_counted hlt hT
  refine ⟨T, p, hT, hp, ?_⟩
  rw [compressBody_eq hl hT]
  exact encodeBody_cases (s := trainedOn bytes T s) rfl rfl hl hp rfl (Nat.zero_le _)

/-- COMPRESS with room, and the padding of its last byte (42_encoder R146, 41_bitstream R113). -/
theorem compressBody_of_room {bytes : List Byte} {s : State} {T : Tree} {p : List Bool} (hl : Loaded bytes s)
    (hT : buildTree (countTable bytes) = some T) (hp : payload (codesOf T) bytes = some p)
    (hroom : 32 + (11 * T.leaves - 1) + p.length ≤ 8 * s.outCap) :
    ∃ m, Appended (field 32 s.magic.toNat ++ (header T ++ p)) (outClear s) m ∧
      PadZero (setOutput m (32 + (11 * T.leaves - 1) + p.length) s) ∧
      compressBody s = .ok () { trainedOn bytes T s with
        outMem := m, outBits := 8 * ((32 + (11 * T.leaves - 1) + p.length + 7) / 8), outClosed := true } := by
  obtain ⟨m, ha, hpad, hrun⟩ := encodeBody_of_room (s := trainedOn bytes T s) (T := T) rfl rfl hl hp rfl (by
    rw [length_stream]
    exact (Nat.zero_add _).trans_le hroom)
  rw [length_stream] at hpad hrun
  have hzero : (trainedOn bytes T s).outBits = 0 := rfl
  rw [hzero, Nat.zero_add] at hpad hrun
  refine ⟨m, ⟨ha.holds, ha.kept, ha.frame⟩, hpad (padZero_of_bytes (n := 0) rfl), ?_⟩
  rw [compressBody_eq hl hT, hrun, outClose_of_open rfl]
  rfl

/-- The padding, as bits the buffer holds. -/
theorem PadZero.holds {s : State} (h : PadZero s) {k : Nat} (hk : s.outBits + k = 8 * ((s.outBits + 7) / 8)) :
    Holds s.outMem s.outBits (List.replicate k false) := by
  intro j hj
  rw [List.length_replicate] at hj
  rw [List.getElem_replicate]
  exact h _ (Nat.le_add_right _ _) (by omega)

/-- Settles O37: `compressBody_of_room`, with the padding that `outClose` takes in. -/
theorem compressWritesTheStream : Obligations.CompressWritesTheStream := by
  intro s bytes hl hcap
  have hlt : bytes.length < 2 ^ 32 := by rw [← hl.1]; exact lt_of_le_of_lt hcap (by decide)
  obtain ⟨T, hT, -, hsize⟩ := buildTree_bounds (countTable bytes)
  obtain ⟨p, hp⟩ := exists_payload_of_counted hlt hT
  have hleaves := T.size_eq
  simp only [Config.nodeCap] at hsize
  refine ⟨countTable bytes, codesOf T, T, p, by omega, hp, fun b => countTable_byte bytes b hlt, countTable_eof bytes, hT,
    rfl, fun hroom => ?_⟩
  obtain ⟨m, ha, hpad, hrun⟩ := compressBody_of_room hl hT hp hroom
  have hlen := length_stream s.magic T p
  obtain ⟨k, hk, hend⟩ : ∃ k, k < 8 ∧ 32 + (11 * T.leaves - 1) + p.length + k =
      8 * ((32 + (11 * T.leaves - 1) + p.length + 7) / 8) :=
    ⟨8 * ((32 + (11 * T.leaves - 1) + p.length + 7) / 8) - (32 + (11 * T.leaves - 1) + p.length), by omega, by omega⟩
  refine ⟨m, k, hk, ?_, by omega, ?_, fun a h => ?_⟩
  · rw [exec, execCompress, hrun, finish_ok, hend, ← show T.size = 2 * T.leaves - 1 by omega]
    rfl
  · rw [List.append_assoc (field 32 s.magic.toNat)]
    refine (holds_append_iff _ _ _ _).2 ⟨ha.holds, ?_⟩
    rw [hlen, Nat.zero_add]
    exact hpad.holds hend
  · refine ha.frame a (.inr ?_)
    rw [hlen, outClear_outBits]
    omega

/-- A written input is the bytes it holds. -/
theorem exists_loaded {s : State} (hw : InputWritten s) : ∃ bytes, Loaded bytes s := by
  obtain ⟨bytes, hlen, hh⟩ := exists_bytes hw s.inLen 0 (by omega)
  refine ⟨bytes, hlen.symm, fun i hi => ?_⟩
  have hread := read_of_holds_byteBits (a := 0) hh i hi
  rwa [Nat.zero_add] at hread

/-- The longest codes and the longest header of BUILD's trees (42_encoder R141, R143). -/
theorem length_stream_le {bytes : List Byte} {f : Vector Word 257} {T : Tree} {p : List Bool}
    (hT : buildTree f = some T) (hp : payload (codesOf T) bytes = some p) :
    32 + (11 * T.leaves - 1) + p.length ≤ 32 + 2826 + 256 * (bytes.length + 1) := by
  obtain ⟨T', hT', hleaves⟩ := leaves_buildTree f
  obtain rfl : T' = T := Option.some.inj (hT'.symm.trans hT)
  have hle := length_buildLeaves_le f
  have hcode : ∀ (y : Symbol) (c : List Bool), (codesOf T')[y.val] = some c → c.length ≤ 256 := fun y c hc => by
    have hlt := T'.length_path_lt _ (mem_paths_of_codesOf hc)
    simp only at hlt
    omega
  have hpayload := length_payload_le hcode hp
  omega

/-- Settles O38: `compressBody_cases`, for the bytes that the written input is. -/
theorem compressFailsOnlyByOverflow : Obligations.CompressFailsOnlyByOverflow := by
  intro s hw hcap
  obtain ⟨bytes, hl⟩ := exists_loaded hw
  have hlen := hl.1
  have hlt : bytes.length < 2 ^ 32 := by rw [← hlen]; exact lt_of_le_of_lt hcap (by decide)
  obtain ⟨T, p, hT, hp, r, hwrites, hrun⟩ := compressBody_cases hl hcap
  have hmax := length_stream_le hT hp
  have hcounts : ∀ y : Symbol, y.val < 256 → (countTable bytes)[y.val].toNat =
      ((List.range s.inLen).filter fun i => Memory.read s.inMem i = some (BitVec.ofNat 8 y.val)).length := by
    intro y hy
    rw [countTable_symbol hlt hy, hlen, length_filter_range bytes (Memory.read s.inMem) hl.2]
  rw [exec, execCompress, hrun]
  rcases hwrites with ⟨-, m, -, -, rfl⟩ | ⟨hfull, m, q, rfl⟩
  · refine ⟨_, T, rfl, ?_⟩
    rw [outClose_of_open (by rfl)]
    exact ⟨rfl, rfl, hcounts, countTable_eof bytes, hT, rfl, rfl, rfl,
      .inl ⟨rfl, rfl, rfl, Nat.mul_mod_right 8 _⟩, fun _ => ⟨rfl, rfl, rfl⟩⟩
  · refine ⟨_, T, rfl, rfl, rfl, hcounts, countTable_eof bytes, hT, rfl, rfl, rfl, .inr ⟨rfl, rfl, rfl, rfl⟩,
      fun hroom => ?_⟩
    rw [length_stream, show (trainedOn bytes T s).outBits = 0 from rfl,
      show (trainedOn bytes T s).outCap = s.outCap from rfl] at hfull
    rw [hlen] at hroom
    omega

end Sys2Proof.Machine
end

section
/-! SUPPORT. A command reports only the errors of its row (60_exceptions R202). -/

namespace Sys2Proof.Machine

theorem raises_of_wellFormed {i : Instr} (hwf : i.wellFormed = true) (hi : i ≠ .compress) : raises i = errorsOf i := by
  cases i with
  | rdbits n | wrbits n => exact if_pos hwf
  | compress => exact absurd rfl hi
  | _ => rfl

/-- COMPRESS that answers a next state has read its whole input, which it did not do past an unwritten byte. -/
theorem loaded_of_exec_compress {s t : State} (h : exec .compress s = .next t) : ∃ bytes, Loaded bytes s := by
  rcases countBody_cases (rewind (outClear s)) with ⟨bytes, hlen, hh, -⟩ | ⟨hfault, -⟩
  · rw [rewind_inLen, outClear_inLen, rewind_inPos] at hlen
    refine ⟨bytes, by omega, fun i hi => ?_⟩
    have hread := read_of_holds_byteBits (a := 0) hh i hi
    rwa [Nat.zero_add] at hread
  · rw [exec, execCompress, compressBody, hfault] at h
    cases h

/-- COMPRESS completes, or it raises OUTPUT_OVERFLOW (42_encoder R146). -/
theorem report_of_exec_compress {s t : State} (hcap : s.inLen ≤ Config.maxCap) (h : exec .compress s = .next t) :
    (t.err = s.err ∧ t.errCode = s.errCode) ∨ (t.err = true ∧ t.errCode = .outputOverflow) := by
  obtain ⟨bytes, hl⟩ := loaded_of_exec_compress h
  obtain ⟨T, p, -, -, r, hwrites, hrun⟩ := compressBody_cases hl hcap
  rw [exec, execCompress, hrun] at h
  rcases hwrites with ⟨-, m, -, -, rfl⟩ | ⟨-, m, q, rfl⟩
  · obtain rfl := Host.Outcome.next.inj h
    rw [complete_err, complete_errCode, outClose_err, outClose_errCode]
    exact .inl ⟨rfl, rfl⟩
  · obtain rfl := Host.Outcome.next.inj h
    exact .inr ⟨rfl, rfl⟩

/-- Settles O52: the errors are those of `exec_next`, and for COMPRESS of `report_of_exec_compress`. -/
theorem commandsReportOnlyTheirErrors : Obligations.CommandsReportOnlyTheirErrors := by
  intro i s t hwf hcap herr hcode h
  by_cases hi : i = .compress
  · subst hi
    rcases report_of_exec_compress hcap h with ⟨h₁, h₂⟩ | ⟨h₁, h₂⟩
    · exact .inl ⟨h₁.trans herr, h₂.trans hcode⟩
    · exact .inr ⟨h₁, by rw [h₂]; exact List.mem_singleton_self _⟩
  · obtain ⟨u, hreach, rfl | ⟨e, he, rfl⟩⟩ := exec_next h
    · have hreport := hreach.report_eq
      simp only [report, Prod.mk.injEq] at hreport
      obtain ⟨-, -, h₁, h₂⟩ := hreport
      exact .inl ⟨h₁.trans herr, h₂.trans hcode⟩
    · exact .inr ⟨rfl, raises_of_wellFormed hwf hi ▸ he⟩

end Sys2Proof.Machine
end

section
/-! SUPPORT. DECODE over whole codes and over a cut code, and DECOMPRESS from the header on (43_decoder R175 to R177). -/

namespace Sys2Proof.Machine

/-! ### DECODE -/

/-- Settles O44: `decodeBody_of_holds`. -/
theorem decodeEmitsTheCodedBytes : Obligations.DecodeEmitsTheCodedBytes := by
  intro s t xs q hv ht hroot hx hq hr hh ho hroom
  obtain ⟨m, ha, hrun⟩ := decodeBody_of_holds (validTree_of_valid hv ht) hroot hx hq hr hh ho hroom
  exact ⟨m, by rw [exec, execDecode, hrun]; rfl, ha⟩

/-- The rest of a path is a path of the child its first bit leads to. -/
theorem Tree.mem_paths_child {p : Tree} {y : Symbol} {b : Bool} {q : List Bool} (h : (y, b :: q) ∈ p.paths) :
    (y, q) ∈ (p.child b).paths := by
  cases p with
  | leaf z w => simp [Tree.paths] at h
  | node w l r =>
    simp only [Tree.paths, List.mem_append, List.mem_map, Prod.mk.injEq, List.cons.injEq] at h
    rcases h with ⟨⟨y', q'⟩, hx, rfl, rfl, rfl⟩ | ⟨⟨y', q'⟩, hx, rfl, rfl, rfl⟩
    · exact hx
    · exact hx

/-- DECODE's walk when the stream ends inside a code (43_decoder R176). -/
theorem decodeLoop_cut (root p : Tree) (y : Symbol) (q r : List Bool) (k : Nat) (s : State) (hp : (y, q ++ r) ∈ p.paths)
    (hr : r ≠ []) (hk : q.length < k) (hend : s.inPos + q.length = 8 * s.inLen) (hh : Holds s.inMem s.inPos q) :
    decodeLoop k root p s = .error .truncatedStream (seek (8 * s.inLen) s) := by
  induction q generalizing p k s with
  | nil =>
    obtain ⟨k, rfl⟩ : ∃ j, k = j + 1 := ⟨k - 1, by rw [List.length_nil] at hk; omega⟩
    rw [List.length_nil] at hend
    rw [decodeLoop, inRead_eos (by omega), ← hend]
    rfl
  | cons b q ih =>
    obtain ⟨hb, hq⟩ := (holds_cons_iff _ _ _ _).1 hh
    rw [List.length_cons] at hk hend
    obtain ⟨k, rfl⟩ : ∃ j, k = j + 1 := ⟨k - 1, by omega⟩
    have hbit : (b.toNat != 0) = b := by cases b <;> rfl
    have hchild := Tree.mem_paths_child hp
    rw [decodeLoop, inRead_tag (by omega) hb]
    simp only [Run.ok_bind, hbit]
    cases hc : p.child b with
    | leaf z w => simp [hc, Tree.paths, hr] at hchild
    | node w l r' =>
      rw [hc] at hchild
      exact ih (.node w l r') k (seek (s.inPos + 1) s) hchild (by omega)
        (by simp only [seek_inPos, seek_inLen]; omega) hq

/-- DECODE of a stream that ends inside a code appends the bytes whose codes are whole (43_decoder R176). -/
theorem decodeBody_cut {s : State} {T : Tree} {xs : List (Symbol × List Bool)} {y : Symbol} {q r : List Bool}
    (hT : validTree s = some T) (hroot : T.isNode = true) (hx : ∀ x ∈ xs, x ∈ T.paths ∧ x.1 ≠ 256)
    (hp : (y, q ++ r) ∈ T.paths) (hr : r ≠ []) (hend : s.inPos + ((xs.map (·.2)).flatten ++ q).length = 8 * s.inLen)
    (hh : Holds s.inMem s.inPos ((xs.map (·.2)).flatten ++ q)) (ho : s.outClosed = false)
    (hroom : s.outBits + 8 * xs.length ≤ 8 * s.outCap) :
    ∃ m, Appended ((xs.map fun x => field 8 x.1.val).flatten) s m ∧
      decodeBody s = .error .truncatedStream (setOutput m (s.outBits + 8 * xs.length) (seek (8 * s.inLen) s)) := by
  rw [List.length_append] at hend
  obtain ⟨hcodes, hcut⟩ := (holds_append_iff _ _ _ _).1 hh
  obtain ⟨k, hk⟩ : ∃ k, 8 * s.inLen + 1 = k + (xs.map (·.2)).flatten.length :=
    ⟨8 * s.inLen + 1 - (xs.map (·.2)).flatten.length, by omega⟩
  obtain ⟨m, ha, hrun⟩ := decodeLoop_bytes T hroot xs k s hx (by omega) hcodes ho hroom
  refine ⟨m, ha, ?_⟩
  simp only [decodeBody, hT]
  rw [hk, hrun, decodeLoop_cut T T y q r k _ hp hr (by omega)
    (by simp only [setOutput_inPos, setOutput_inLen, seek_inPos, seek_inLen]; omega) hcut]
  rfl

/-- Settles O45: `decodeBody_cut`. -/
theorem decodeReportsATruncatedStream : Obligations.DecodeReportsATruncatedStream := by
  intro s t xs q r y hv ht hroot hx hp hr hend hh ho hroom
  obtain ⟨m, ha, hrun⟩ := decodeBody_cut (validTree_of_valid hv ht) hroot hx hp hr hend hh ho hroom
  exact ⟨m, by rw [exec, execDecode, hrun]; rfl, ha⟩

/-! ### DECOMPRESS from the header on -/

/-- Where DECOMPRESS is when DECODE begins: the header's tree and a fresh output. -/
def headerRead (T : Tree) (s : State) : State :=
  { s with
    tree := some T.unweighted, nodes := T.size, treeValid := true, codes := noCodes, codesValid := false,
    inPos := 32 + (header T).length, outBits := 0, outClosed := false }

/-- DECOMPRESS of the magic number and a tree's header goes on to DECODE (43_decoder R177). -/
theorem decompressBody_of_header {s : State} {T : Tree} (hroot : T.isNode = true) (hsize : T.size ≤ Config.nodeCap)
    (hr : 32 + (header T).length ≤ 8 * s.inLen) (hh : Holds s.inMem 0 (field 32 s.magic.toNat ++ header T)) :
    decompressBody s = (decodeBody (headerRead T s)).bind fun _ s => .ok () (outClose s) := by
  obtain ⟨hmagic, hheader⟩ := (holds_append_iff _ _ _ _).1 hh
  rw [length_field, Nat.zero_add] at hheader
  have h₁ : chkmagicBody (rewind (outClear s)) = .ok () (seek 32 (rewind (outClear s))) :=
    chkmagicBody_of_holds (by simp; omega) hmagic
  have h₂ := rdhdrBody_of_holds (s := seek 32 (rewind (outClear s))) hroot hsize (by simp; omega) hheader
  rw [decompressBody, h₁, Run.ok_bind, h₂, Run.ok_bind]
  simp only [headerRead, installTree, seek, dropTree, dropCodes, rewind, outClear]

/-- The bytes that leaves of bytes stand for. -/
theorem map_fst_eq_byteSymbols {xs : List (Symbol × List Bool)} (h : ∀ x ∈ xs, x.1 ≠ 256) :
    xs.map (·.1) = (xs.map fun x => BitVec.ofNat 8 x.1.val).map fun b => byteSymbol b.toNat := by
  rw [List.map_map]
  refine List.map_congr_left fun x hx => (byteSymbol_ofNat ?_).symm
  have hlt := x.1.isLt
  have hne : x.1.val ≠ 256 := fun heq => h x hx (Fin.ext heq)
  omega

/-- Settles O46: `decompressBody_of_header`, then `decodeBody_of_holds`, whose output is whole bytes. -/
theorem decompressReadsTheStream : Obligations.DecompressReadsTheStream := by
  intro s T xs q hroot hsize hx hq hr hh hroom
  obtain ⟨hbefore, hpayload⟩ := (holds_append_iff _ _ _ _).1 hh
  rw [List.length_append, length_field, Nat.zero_add] at hpayload
  obtain ⟨m, ha, hrun⟩ := decodeBody_of_holds (s := headerRead T s) (T := T.unweighted) rfl (by simpa using hroot)
    (by simpa using hx) (by simpa using hq) hr hpayload rfl (by simp only [headerRead]; omega)
  have hbits : (headerRead T s).outBits = 0 := rfl
  have hpos : (headerRead T s).inPos = 32 + (header T).length := rfl
  have hsyms := map_fst_eq_byteSymbols fun x hx' => (hx x hx').2
  have hout := ha.holds
  have hframe := ha.frame
  rw [flatten_field_of_map_fst hsyms, hbits] at hout hframe
  rw [hbits, hpos, Nat.zero_add] at hrun
  refine ⟨m, noCodes, ?_, fun y => getElem_noCodes y.isLt, fun i hi => ?_, fun a ha' => ?_⟩
  · rw [exec, execDecompress, decompressBody_of_header hroot hsize (by omega) hbefore, hrun, Run.ok_bind, finish_ok,
      outClose_of_open (by rfl)]
    simp only [setOutput_outBits, show (8 * xs.length + 7) / 8 = xs.length by omega]
    rfl
  · have hread := read_of_holds_byteBits (a := 0) hout i (by simpa using hi)
    rwa [Nat.zero_add, List.getElem_map] at hread
  · refine hframe a (.inr ?_)
    rw [length_byteBits, List.length_map]
    omega

end Sys2Proof.Machine
end

section
/-! SUPPORT. Streams that are cut: in the header, and in the payload (43_decoder R174, R179). -/

namespace Sys2Proof.Machine

/-! ### A bit string as far as the stream goes -/

/-- The buffer holds the bit string from `p` on as far as bit `n`. -/
def HoldsTo (m : Memory) (n p : Nat) (bs : List Bool) : Prop :=
  ∀ k, (h : k < bs.length) → p + k < n → Memory.bit m (p + k) = some bs[k]

theorem HoldsTo.holds {m : Memory} {n p : Nat} {bs : List Bool} (h : HoldsTo m n p bs) (hn : p + bs.length ≤ n) :
    Holds m p bs := fun k hk => h k hk (by omega)

theorem HoldsTo.holds_take {m : Memory} {n p : Nat} {bs : List Bool} (h : HoldsTo m n p bs) :
    Holds m p (bs.take (n - p)) := by
  intro k hk
  rw [List.length_take] at hk
  rw [List.getElem_take]
  exact h k (by omega) (by omega)

theorem HoldsTo.left {m : Memory} {n p : Nat} {xs ys : List Bool} (h : HoldsTo m n p (xs ++ ys)) : HoldsTo m n p xs := by
  intro k hk hn
  have hbit := h k (by rw [List.length_append]; omega) hn
  rwa [List.getElem_append_left hk] at hbit

theorem HoldsTo.right {m : Memory} {n p : Nat} {xs ys : List Bool} (h : HoldsTo m n p (xs ++ ys)) :
    HoldsTo m n (p + xs.length) ys := by
  intro k hk hn
  have hbit := h (xs.length + k) (by rw [List.length_append]; omega) (by omega)
  rw [List.getElem_append_right (Nat.le_add_right _ _)] at hbit
  simpa only [Nat.add_sub_cancel_left, ← Nat.add_assoc] using hbit

theorem HoldsTo.bit {m : Memory} {n p : Nat} {b : Bool} {bs : List Bool} (h : HoldsTo m n p (b :: bs)) (hn : p < n) :
    Memory.bit m p = some b := h 0 (Nat.zero_lt_succ _) hn

theorem HoldsTo.tail {m : Memory} {n p : Nat} {b : Bool} {bs : List Bool} (h : HoldsTo m n p (b :: bs)) :
    HoldsTo m n (p + 1) bs := HoldsTo.right (xs := [b]) h

/-- A stream with the same bytes as a buffer that holds the bit string, as far as it goes. -/
theorem Holds.holdsTo_of_read_eq {m m' : Memory} {n : Nat} {bs : List Bool} (h : Holds m 0 bs)
    (hread : ∀ i, i < n → Memory.read m' i = Memory.read m i) : HoldsTo m' (8 * n) 0 bs := by
  intro k hk hn
  rw [Memory.bit, hread _ (by omega)]
  exact h k hk

/-! ### A cut header -/

/-- Rd of a tree's header that the stream does not hold to its end (43_decoder R174). -/
theorem rd_cut (T : Tree) (fuel count : Nat) (s : State) (hf : 513 < fuel + count) (hc : count + T.size ≤ 513)
    (hp : s.inPos ≤ 8 * s.inLen) (hcut : 8 * s.inLen < s.inPos + (header T).length)
    (hh : HoldsTo s.inMem (8 * s.inLen) s.inPos (header T)) :
    ∃ p, rd fuel count s = .error .malformedHeader (seek p s) := by
  induction T generalizing fuel count s with
  | leaf y w =>
    rw [Tree.size] at hc
    rw [header, List.length_cons, length_field] at hcut
    by_cases htag : s.inPos < 8 * s.inLen
    · exact ⟨_, rd_of_short_symbol (by omega) (by omega) htag hcut (hh.bit htag)⟩
    · exact ⟨s.inPos, rd_of_no_tag (by omega) (by omega)⟩
  | node w l r ihl ihr =>
    rw [Tree.size] at hc
    rw [header, List.length_cons, List.length_append] at hcut
    by_cases htag : s.inPos < 8 * s.inLen
    · obtain ⟨fuel, rfl⟩ : ∃ k, fuel = k + 1 := ⟨fuel - 1, by omega⟩
      have hcount : ¬ Config.nodeCap < count + 1 := by simp only [Config.nodeCap]; omega
      have hchildren := hh.tail
      rw [rd, inRead_tag htag (hh.bit htag)]
      simp only [Run.ok_bind, if_neg hcount, Bool.toNat_false, if_true]
      by_cases hl : 8 * s.inLen < s.inPos + 1 + (header l).length
      · obtain ⟨p, hrun⟩ := ihl fuel (count + 1) (seek (s.inPos + 1) s) (by omega) (by omega) htag hl hchildren.left
        exact ⟨p, by rw [hrun]; rfl⟩
      · have hrun := rd_header l fuel (count + 1) (seek (s.inPos + 1) s) (by omega) (by omega) (Nat.le_of_not_lt hl)
          (hchildren.left.holds (Nat.le_of_not_lt hl))
        obtain ⟨p, hrun'⟩ := ihr fuel (count + 1 + l.size) (seek (s.inPos + 1 + (header l).length) s) (by omega)
          (by omega) (Nat.le_of_not_lt hl) (by simp only [seek_inPos, seek_inLen]; omega) hchildren.right
        refine ⟨p, ?_⟩
        rw [hrun, Run.ok_bind, seek_inPos, seek_seek, hrun']
        rfl
    · exact ⟨s.inPos, rd_of_no_tag (by omega) (by omega)⟩

/-- DECOMPRESS of a stream that ends inside the header (43_decoder R179). -/
theorem decompressBody_header_cut {s : State} {T : Tree} (hsize : T.size ≤ Config.nodeCap) (hmagic : 32 ≤ 8 * s.inLen)
    (hcut : 8 * s.inLen < 32 + (header T).length)
    (hh : HoldsTo s.inMem (8 * s.inLen) 0 (field 32 s.magic.toNat ++ header T)) :
    ∃ p, decompressBody s = .error .malformedHeader (seek p (dropTree (outClear s))) := by
  have h₁ : chkmagicBody (rewind (outClear s)) = .ok () (seek 32 (rewind (outClear s))) :=
    chkmagicBody_of_holds (by simp; omega) (hh.left.holds (by rwa [length_field, Nat.zero_add]))
  have hheader := hh.right
  rw [length_field, Nat.zero_add] at hheader
  obtain ⟨p, hrun⟩ := rd_cut T (Config.nodeCap + 1) 0 (dropTree (seek 32 (rewind (outClear s)))) (by simp)
    (by simpa using hsize) hmagic hcut hheader
  refine ⟨p, ?_⟩
  rw [decompressBody, h₁, Run.ok_bind, rdhdrBody, hrun]
  rfl

/-! ### A cut payload -/

/-- A cut of a sequence of codes is some whole codes and a code that is not whole. -/
theorem exists_cut_code (ys : List (Symbol × List Bool)) {n : Nat} (hn : n < (ys.map (·.2)).flatten.length) :
    ∃ (k : Nat) (hk : k < ys.length) (q r : List Bool), ys[k].2 = q ++ r ∧ r ≠ [] ∧
      ((ys.take k).map (·.2)).flatten ++ q = (ys.map (·.2)).flatten.take n := by
  induction ys generalizing n with
  | nil => simp at hn
  | cons y ys ih =>
    rw [List.map_cons, List.flatten_cons, List.length_append] at hn
    by_cases hy : n < y.2.length
    · refine ⟨0, Nat.zero_lt_succ _, y.2.take n, y.2.drop n, (List.take_append_drop n y.2).symm, ?_, ?_⟩
      · exact List.ne_nil_of_length_pos (by rw [List.length_drop]; omega)
      · rw [List.map_cons, List.flatten_cons, List.take_append_of_le_length hy.le]
        rfl
    · obtain ⟨k, hk, q, r, hcode, hr, hcut⟩ := ih (n := n - y.2.length) (by omega)
      refine ⟨k + 1, by simpa using hk, q, r, hcode, hr, ?_⟩
      rw [List.take_succ_cons, List.map_cons, List.flatten_cons, List.append_assoc, hcut, List.map_cons, List.flatten_cons,
        List.take_append, List.take_of_length_le (Nat.le_of_not_lt hy)]

/-- DECOMPRESS of a stream that ends inside the payload of some bytes (43_decoder R179). -/
theorem decompressBody_payload_cut {s : State} {T : Tree} {bytes : List Byte} {p : List Bool} (hroot : T.isNode = true)
    (hsize : T.size ≤ Config.nodeCap) (hp : payload (codesOf T) bytes = some p)
    (hheader : 32 + (header T).length ≤ 8 * s.inLen) (hcut : 8 * s.inLen < 32 + (header T).length + p.length)
    (hh : HoldsTo s.inMem (8 * s.inLen) 0 (field 32 s.magic.toNat ++ header T ++ p)) (hroom : bytes.length ≤ s.outCap) :
    ∃ k m, k ≤ bytes.length ∧ Holds m 0 (byteBits (bytes.take k)) ∧
      decompressBody s = .error .truncatedStream (setOutput m (8 * k) (seek (8 * s.inLen) (headerRead T s))) := by
  have hlen : (field 32 s.magic.toNat ++ header T).length = 32 + (header T).length := by
    rw [List.length_append, length_field]
  have hpayload := hh.right.holds_take
  rw [hlen, Nat.zero_add] at hpayload
  obtain ⟨xs, q, hsyms, hpaths, hq, rfl⟩ := paths_of_payload hp
  have hcount : xs.length = bytes.length := by simpa using congrArg List.length hsyms
  have hflat : (xs.map (·.2)).flatten ++ q = ((xs ++ [((256 : Symbol), q)]).map (·.2)).flatten := by simp
  rw [hflat] at hcut hpayload
  obtain ⟨k, hk, q', r, hcode, hr, htake⟩ := exists_cut_code (xs ++ [((256 : Symbol), q)])
    (n := 8 * s.inLen - (32 + (header T).length)) (by omega)
  rw [List.length_append, List.length_singleton] at hk
  rw [List.take_append_of_le_length (by omega)] at htake
  have hpath : ((xs ++ [((256 : Symbol), q)])[k].1, q' ++ r) ∈ T.paths := by
    rw [← hcode]
    rcases List.mem_append.1 (List.getElem_mem (l := xs ++ [(256, q)]) (by simpa using hk)) with hmem | hmem
    · exact hpaths _ hmem
    · rw [List.mem_singleton.1 hmem]
      exact hq
  have hx : ∀ x ∈ xs.take k, x ∈ T.paths ∧ x.1 ≠ 256 := by
    intro x hx
    have hmem := List.mem_of_mem_take hx
    obtain ⟨b, -, hb⟩ := List.mem_map.1 (hsyms ▸ List.mem_map_of_mem hmem)
    exact ⟨hpaths x hmem, hb ▸ byteSymbol_ne_eof b⟩
  have hktake : (xs.take k).length = k := by rw [List.length_take]; omega
  obtain ⟨m, ha, hrun⟩ := decodeBody_cut (s := headerRead T s) (T := T.unweighted) (xs := xs.take k) (q := q') rfl
    (by simpa using hroot) (by simpa using hx) (by simpa using hpath) hr
    (by rw [htake, List.length_take]; simp only [headerRead]; omega) (by rw [htake]; exact hpayload) rfl
    (by rw [hktake]; simp only [headerRead]; omega)
  have hout := ha.holds
  rw [flatten_field_of_map_fst (bytes := bytes.take k) (by rw [List.map_take, hsyms, List.map_take])] at hout
  refine ⟨k, m, by omega, hout, ?_⟩
  rw [decompressBody_of_header hroot hsize hheader (hh.left.holds (by omega)), hrun, hktake]
  simp only [headerRead, Nat.zero_add]
  rfl

/-! ### Every truncation -/

/-- COMPRESS that goes on leaves BUILD's tree, the stream from output bit 0 on, and no more than its padding after it
(42_encoder R146, 41_bitstream R113). -/
theorem padded_stream_of_compressBody {bytes : List Byte} {s t : State} (hl : Loaded bytes s)
    (h : compressBody s = .ok () t) :
    ∃ T p, T.isNode = true ∧ T.size ≤ Config.nodeCap ∧ t.tree = some T ∧ payload (codesOf T) bytes = some p ∧
      Holds t.outMem 0 (field 32 s.magic.toNat ++ header T ++ p) ∧
      t.outBits = 8 * ((32 + (11 * T.leaves - 1) + p.length + 7) / 8) := by
  obtain ⟨T, hT, hroot, hsize⟩ := buildTree_bounds (countTable bytes)
  rw [compressBody_eq hl hT] at h
  obtain ⟨p, m, hp, ha, rfl⟩ := appended_of_encodeBody (s := trainedOn bytes T s) (T := T) hl rfl h
  refine ⟨T, p, hroot, hsize, by rw [outClose_tree]; rfl, hp, by rw [outClose_outMem]; exact ha.holds, ?_⟩
  rw [outClose_of_open (by rfl), List.append_assoc, length_stream]
  simp only [trainedOn, setOutput_outBits, Nat.zero_add]

/-- Settles O49: the cut is before the end of the stream, in its magic number, its header or its payload. -/
theorem everyTruncationIsReported : Obligations.EveryTruncationIsReported := by
  intro S s t u T hl _ hrun herr htree hmagic hlen hread hcap
  obtain ⟨t, hbody, rfl⟩ := finish_eq_next_of_no_error hrun herr
  obtain ⟨T', p, hroot, hsize, hT, hp, hh, hbits⟩ := padded_stream_of_compressBody hl hbody
  obtain rfl : T' = T := Option.some.inj (hT.symm.trans htree)
  have hheader : (header T').length = 11 * T'.leaves - 1 := by have := length_header T'; omega
  rw [← hheader] at hbits ⊢
  rw [complete_outBits, hbits] at hlen
  have hto := hh.holdsTo_of_read_eq hread
  rw [← hmagic] at hto
  rw [exec, execDecompress]
  by_cases hshort : u.inLen < 4
  · rw [decompressBody, chkmagicBody_short (by rw [rewind_inLen, outClear_inLen, rewind_inPos]; omega)]
    exact ⟨_, rfl, rfl, fun _ => ⟨rfl, rfl⟩, fun h => by omega, fun h => by omega⟩
  · by_cases hcut : 8 * u.inLen < 32 + (header T').length
    · obtain ⟨q, hrun⟩ := decompressBody_header_cut hsize (by omega) hcut hto.left
      rw [hrun]
      exact ⟨_, rfl, rfl, fun h => absurd h hshort, fun _ _ => ⟨rfl, rfl⟩, fun h => by omega⟩
    · obtain ⟨k, m, hk, hout, hrun⟩ := decompressBody_payload_cut hroot hsize hp (by omega) (by omega) hto hcap
      rw [hrun]
      refine ⟨_, rfl, rfl, fun h => absurd h hshort, fun _ h => absurd h hcut,
        fun _ => ⟨rfl, k, hk, rfl, fun i hi hik => ?_⟩⟩
      have hbyte := read_of_holds_byteBits (a := 0) hout i (by rw [List.length_take]; omega)
      rwa [Nat.zero_add, List.getElem_take] at hbyte

end Sys2Proof.Machine
end

section
/-! SUPPORT. A composite command does what its steps do one after another: no part of a command looks at the command
report, so the completions between the steps leave no trace (70_reset R239). -/

namespace Sys2Proof.Machine

/-! ### Parts of a command that do not look at the command report -/

/-- The same end of a part, in the states where BUSY and DONE are those of a completed command. -/
def Run.completed {α : Type} : Run α → Run α
  | .ok a s => .ok a (complete s)
  | .error e s => .error e (complete s)
  | .fault f => .fault f

/-- The part neither looks at BUSY and DONE nor changes them. -/
def IgnoresReport {α : Type} (f : State → Run α) : Prop := ∀ s, f (complete s) = (f s).completed

theorem Run.completed_bind {α β : Type} {g : α → State → Run β} (hg : ∀ a, IgnoresReport (g a)) (r : Run α) :
    r.completed.bind g = (r.bind g).completed := by
  cases r with
  | ok a s => exact hg a s
  | error e s => rfl
  | fault f => rfl

theorem IgnoresReport.bind {α β : Type} {f : State → Run α} {g : α → State → Run β} (hf : IgnoresReport f)
    (hg : ∀ a, IgnoresReport (g a)) : IgnoresReport fun s => (f s).bind g := fun s => by
  exact (congrArg (Run.bind · g) (hf s)).trans (Run.completed_bind hg _)

theorem inRead_ignoresReport (n : Nat) : IgnoresReport (inRead n) := by
  intro s
  rw [inRead, inRead, complete_inLen, complete_inPos, complete_inMem]
  by_cases hend : 8 * s.inLen < s.inPos + n
  · rw [if_pos hend, if_pos hend]
    rfl
  · rw [if_neg hend, if_neg hend]
    cases Memory.bits s.inMem s.inPos n <;> rfl

theorem outPut_ignoresReport (bs : List Bool) : IgnoresReport fun s => Run.ofEmit (outPut bs s) := by
  intro s
  induction bs generalizing s with
  | nil => rfl
  | cons b bs ih =>
    simp only [outPut]
    by_cases hclosed : s.outClosed = true
    · rw [if_pos hclosed, if_pos (by exact hclosed)]
      rfl
    · by_cases hfull : s.outBits = 8 * s.outCap
      · rw [if_neg hclosed, if_neg (by exact hclosed), if_pos hfull, if_pos (by exact hfull)]
        rfl
      · rw [if_neg hclosed, if_neg (by exact hclosed), if_neg hfull, if_neg (by exact hfull)]
        exact ih (appendBit b s)

theorem outClose_complete (s : State) : outClose (complete s) = complete (outClose s) := by
  by_cases hclosed : s.outClosed
  · rw [outClose, outClose, if_pos hclosed, if_pos (by exact hclosed)]
  · rw [outClose, outClose, if_neg hclosed, if_neg (by exact hclosed)]
    rfl

theorem close_ignoresReport : IgnoresReport fun s => Run.ok () (outClose s) := fun s => by
  simp only
  rw [outClose_complete]
  rfl

/-! ### The encoder's parts -/

theorem countLoop_ignoresReport (k : Nat) : IgnoresReport (countLoop k) := by
  induction k with
  | zero => exact fun _ => rfl
  | succ k ih =>
    refine (inRead_ignoresReport _).bind fun v => ?_
    cases v with
    | none => exact fun _ => rfl
    | some v => exact fun s => ih (setFreq (bump s.freq (byteSymbol v)) s)

theorem countBody_ignoresReport : IgnoresReport countBody := fun s => by
  rw [countBody, complete_inLen]
  exact ((countLoop_ignoresReport (s.inLen + 1)).bind fun _ _ => rfl) (setFreq noCounts s)

theorem gencodesBody_ignoresReport : IgnoresReport fun s => Run.ofEmit (gencodesBody s) := by
  intro s
  have htree : validTree (complete s) = validTree s := rfl
  simp only [gencodesBody, htree]
  split <;> rfl

theorem emitCode_ignoresReport (y : Symbol) : IgnoresReport (emitCode y) := by
  intro s
  rw [emitCode, emitCode, complete_codes]
  split
  · rfl
  · exact outPut_ignoresReport _ s

theorem encodeLoop_ignoresReport (k : Nat) : IgnoresReport (encodeLoop k) := by
  induction k with
  | zero => exact fun _ => rfl
  | succ k ih =>
    refine (inRead_ignoresReport _).bind fun v => ?_
    cases v with
    | none => exact fun _ => rfl
    | some v => exact (emitCode_ignoresReport _).bind fun _ => ih

theorem encodePayload_ignoresReport : IgnoresReport encodePayload := fun s =>
  ((encodeLoop_ignoresReport (s.inLen + 1)).bind fun _ => emitCode_ignoresReport _) (rewind s)

theorem encodeBody_ignoresReport : IgnoresReport encodeBody := by
  intro s
  have htree : validTree (complete s) = validTree s := rfl
  simp only [encodeBody, htree, complete_codesValid, complete_magic]
  split
  · exact ((outPut_ignoresReport _).bind fun _ => (outPut_ignoresReport _).bind fun _ =>
      encodePayload_ignoresReport.bind fun _ => close_ignoresReport) s
  · rfl

/-! ### The decoder's parts -/

theorem chkmagicBody_ignoresReport : IgnoresReport chkmagicBody := by
  refine (inRead_ignoresReport _).bind fun v t => ?_
  rw [complete_magic]
  split <;> rfl

theorem rd_ignoresReport (fuel count : Nat) : IgnoresReport (rd fuel count) := by
  induction fuel generalizing count with
  | zero => exact fun _ => rfl
  | succ fuel ih =>
    refine (inRead_ignoresReport 1).bind fun t => ?_
    cases t with
    | none => exact fun _ => rfl
    | some t =>
      simp only
      split
      · exact fun _ => rfl
      · split
        · exact (ih _).bind fun l => (ih l.2).bind fun r _ => rfl
        · refine (inRead_ignoresReport _).bind fun v => ?_
          cases v with
          | none => exact fun _ => rfl
          | some v =>
            simp only
            split <;> exact fun _ => rfl

theorem rdhdrBody_ignoresReport : IgnoresReport rdhdrBody := by
  refine fun s => ((rd_ignoresReport _ 0).bind fun t => ?_) (dropTree s)
  split <;> exact fun _ => rfl

theorem decodeLoop_ignoresReport (k : Nat) (root p : Tree) : IgnoresReport (decodeLoop k root p) := by
  induction k generalizing p with
  | zero => exact fun _ => rfl
  | succ k ih =>
    refine (inRead_ignoresReport 1).bind fun b => ?_
    cases b with
    | none => exact fun _ => rfl
    | some b =>
      simp only
      split
      · split
        · exact fun _ => rfl
        · exact (outPut_ignoresReport _).bind fun _ => ih root
      · exact ih _

theorem decodeBody_ignoresReport : IgnoresReport decodeBody := by
  intro s
  have htree : validTree (complete s) = validTree s := rfl
  simp only [decodeBody, htree, complete_inLen]
  split
  · rfl
  · exact decodeLoop_ignoresReport _ _ _ s

/-! ### A run of steps that succeeds -/

theorem finish_completed (r : Run Unit) : finish r.completed = finish r := by
  cases r <;> rfl

/-- No command takes an error back (60_exceptions R203). -/
theorem err_of_exec {i : Instr} {s t : State} (h : exec i s = .next t) (ht : t.err = false) : s.err = false := by
  obtain ⟨u, hreach, rfl | ⟨e, -, rfl⟩⟩ := exec_next h
  · have hreport := hreach.report_eq
    simp only [report, Prod.mk.injEq] at hreport
    exact hreport.2.2.1.symm.trans ht
  · cases ht

theorem err_of_execAll {is : List Instr} {s u : State} (h : execAll is s = .next u) (hu : u.err = false) :
    s.err = false := by
  induction is generalizing s with
  | nil =>
    cases h
    exact hu
  | cons i is ih =>
    rw [execAll] at h
    cases hi : exec i s with
    | next t =>
      rw [hi] at h
      exact err_of_exec hi (ih h)
    | fault f => rw [hi] at h; cases h
    | refused r => rw [hi] at h; cases h

/-- A run of the commands that succeeds does what one command with this body does. -/
def StepsAs (is : List Instr) (g : State → Run Unit) : Prop :=
  ∀ s u, execAll is s = .next u → u.err = false → finish (g s) = .next u

theorem StepsAs.single {i : Instr} {f : State → Run Unit} (hi : exec i = fun s => finish (f s)) : StepsAs [i] f := by
  intro s u h _
  simp only [execAll, hi] at h
  cases hf : finish (f s) with
  | next t => rw [hf] at h; exact h
  | fault e => rw [hf] at h; cases h
  | refused r => rw [hf] at h; cases h

/-- One more command before the run: its body goes before the body of the rest. -/
theorem StepsAs.cons {i : Instr} {is : List Instr} {f g : State → Run Unit} (hi : exec i = fun s => finish (f s))
    (hg : IgnoresReport g) (his : StepsAs is g) : StepsAs (i :: is) fun s => (f s).bind fun _ => g := by
  intro s u h hu
  simp only [execAll, hi] at h
  cases hf : f s with
  | ok a t =>
    simp only [hf] at h ⊢
    have hrest := his (complete t) u h hu
    rwa [hg t, finish_completed] at hrest
  | error e t =>
    simp only [hf, finish] at h
    exact absurd (err_of_execAll h hu) (by simp [raise])
  | fault e =>
    simp only [hf, finish] at h
    cases h

/-- The six steps of a compression (42_encoder R146). -/
theorem stepsAs_compressBody : StepsAs [.outclr, .rstin, .count, .build, .gencodes, .encode] compressBody := by
  have hcodes : IgnoresReport fun s => (Run.ofEmit (gencodesBody s)).bind fun _ => encodeBody :=
    gencodesBody_ignoresReport.bind fun _ => encodeBody_ignoresReport
  have hbuild : IgnoresReport fun s => (Run.ofEmit (gencodesBody (buildBody s))).bind fun _ => encodeBody :=
    fun s => hcodes (buildBody s)
  have hcount : IgnoresReport fun s => (countBody s).bind fun _ s =>
      (Run.ofEmit (gencodesBody (buildBody s))).bind fun _ => encodeBody := countBody_ignoresReport.bind fun _ => hbuild
  exact (((((StepsAs.single rfl).cons (i := .gencodes) (f := fun s => Run.ofEmit (gencodesBody s))
    (funext fun s => (finish_ofEmit _).symm) encodeBody_ignoresReport).cons
    (f := fun s => .ok () (buildBody s)) rfl hcodes).cons rfl hbuild).cons
    (f := fun s => .ok () (rewind s)) rfl hcount).cons
    (f := fun s => .ok () (outClear s)) rfl fun s => hcount (rewind s)

/-- The six steps of a decompression (43_decoder R177). -/
theorem stepsAs_decompressBody :
    StepsAs [.outclr, .rstin, .chkmagic, .rdhdr, .decode, .close] decompressBody := by
  have hdecode : IgnoresReport fun s => (decodeBody s).bind fun _ s => .ok () (outClose s) :=
    decodeBody_ignoresReport.bind fun _ => close_ignoresReport
  have hrdhdr : IgnoresReport fun s => (rdhdrBody s).bind fun _ s =>
      (decodeBody s).bind fun _ s => .ok () (outClose s) := rdhdrBody_ignoresReport.bind fun _ => hdecode
  have hchkmagic : IgnoresReport fun s => (chkmagicBody s).bind fun _ s => (rdhdrBody s).bind fun _ s =>
      (decodeBody s).bind fun _ s => .ok () (outClose s) := chkmagicBody_ignoresReport.bind fun _ => hrdhdr
  exact (((((StepsAs.single (f := fun s => .ok () (outClose s)) rfl).cons rfl close_ignoresReport).cons rfl hdecode).cons
    rfl hrdhdr).cons (f := fun s => .ok () (rewind s)) rfl hchkmagic).cons
    (f := fun s => .ok () (outClear s)) rfl fun s => hchkmagic (rewind s)

/-- Settles O39: `stepsAs_compressBody` and `stepsAs_decompressBody`. -/
theorem compositesEqualTheirSteps : Obligations.CompositesEqualTheirSteps := fun s u _ hu =>
  ⟨fun h => stepsAs_compressBody s u h hu, fun h => stepsAs_decompressBody s u h hu⟩

end Sys2Proof.Machine
end
